-- ==== Sys2Proof/Word.lean ====
section
/-! DEFINITION. The word and byte types (00_scope.md R7, R8: `WORD` is 32 bits; 20_memory.md R72: a program image is bytes). -/

namespace Sys2Proof

/-- A program word, an operand, a counter, a stack entry or a handle: 32 bits (R7, R8). -/
abbrev Word := BitVec 32

/-- One byte of a program image (R72). -/
abbrev Byte := BitVec 8

end Sys2Proof
end

