-- ==== Sys2Proof/Syntax.lean ====
section
/-! DEFINITION. The 22 instructions of 30_encoding.md R101, one constructor per row of the opcode table. -/

namespace Sys2Proof

/-- An instruction with its operand words as fetched (R93: every operand is accepted as it is). The count word of
ARPEGGIO (R94) is the number of its offsets. -/
inductive Instr where
  /-- `ATTACK note` (R131). -/
  | attack (note : Word)
  /-- `RELEASE` (R132). -/
  | release
  /-- `MUTE` (R133). -/
  | mute
  /-- `ARPEGGIO speed, count, offsets` (R191). -/
  | arpeggio (speed : Word) (offsets : List Word)
  /-- `VOLUME value` (R134). -/
  | volume (value : Word)
  /-- `PANNING value` (R135). -/
  | panning (value : Word)
  /-- `PITCH value` (R136). -/
  | pitch (value : Word)
  /-- `DUTYCYCLE value` (R137). -/
  | dutycycle (value : Word)
  /-- `PHASEWRAP value` (R138). -/
  | phasewrap (value : Word)
  /-- `MASTERVOLUME value` (R139). -/
  | mastervolume (value : Word)
  /-- `INSTRUMENT index` (R140). -/
  | instrument (index : Word)
  /-- `WAVEFORM w`: the whole operand word, whose two fields depend on `WAVE_CUSTOM_BIT` (R95, R141). -/
  | waveform (operand : Word)
  /-- `ATTACKTICKS ticks` (R152). -/
  | attackticks (ticks : Word)
  /-- `RELEASETICKS ticks` (R153). -/
  | releaseticks (ticks : Word)
  /-- `MUTETICKS ticks` (R154). -/
  | muteticks (ticks : Word)
  /-- `STEP ticks` (R166). -/
  | step (ticks : Word)
  /-- `STEPTICKS` (R168). -/
  | stepticks
  /-- `CALL address` (R176). -/
  | call (address : Word)
  /-- `RETURN` (R178). -/
  | ret
  /-- `JUMP address` (R180). -/
  | jump (address : Word)
  /-- `GROUP number` (R182). -/
  | group (number : Word)
  /-- `END` (R184). -/
  | endTrack
deriving DecidableEq, Repr

end Sys2Proof
end

