-- ==== Sys2Proof/WellFormed.lean ====
section
/-! DEFINITION. When an instruction can be written in words: the offsets of an ARPEGGIO are counted by one word (30_encoding.md R94). -/

namespace Sys2Proof

/-- The instruction has an encoding: the number of ARPEGGIO's offsets fits its 32-bit count word (R90, R94). Every other
operand is one whole word and is accepted as it is (R93). -/
def Instr.wf : Instr → Bool
  | .arpeggio _ offsets => decide (offsets.length < 2 ^ 32)
  | .attack _ => true
  | .release => true
  | .mute => true
  | .volume _ => true
  | .panning _ => true
  | .pitch _ => true
  | .dutycycle _ => true
  | .phasewrap _ => true
  | .mastervolume _ => true
  | .instrument _ => true
  | .waveform _ => true
  | .attackticks _ => true
  | .releaseticks _ => true
  | .muteticks _ => true
  | .step _ => true
  | .stepticks => true
  | .call _ => true
  | .ret => true
  | .jump _ => true
  | .group _ => true
  | .endTrack => true

end Sys2Proof
end

