-- ==== Sys2Proof/Decode.lean ====
section
/-! DEFINITION. Decoding the words at the cursor (30_encoding.md R90 to R97, R101) and, after it, the encoder. -/

namespace Sys2Proof

/-- The format of an opcode: how many operand words follow it and what they make of it (R90, R92). -/
inductive Form where
  /-- F0: no operand word. -/
  | f0 (i : Instr)
  /-- F1: one operand word. -/
  | f1 (mk : Word → Instr)
  /-- FA: speed, count and `count` offsets; ARPEGGIO alone (R94). -/
  | fa (mk : Word → List Word → Instr)

/-- The opcode map (R101). The whole word is compared (R91); every other word is no instruction (R97). -/
def formOf (w : Word) : Option Form :=
  match w.toNat with
  | 0x01 => some (.f1 .attack)
  | 0x02 => some (.f0 .release)
  | 0x03 => some (.f0 .mute)
  | 0x04 => some (.fa .arpeggio)
  | 0x05 => some (.f1 .volume)
  | 0x06 => some (.f1 .panning)
  | 0x07 => some (.f1 .pitch)
  | 0x08 => some (.f1 .dutycycle)
  | 0x09 => some (.f1 .phasewrap)
  | 0x0A => some (.f1 .mastervolume)
  | 0x0B => some (.f1 .instrument)
  | 0x0C => some (.f1 .waveform)
  | 0x10 => some (.f1 .attackticks)
  | 0x11 => some (.f1 .releaseticks)
  | 0x12 => some (.f1 .muteticks)
  | 0x20 => some (.f1 .step)
  | 0x21 => some (.f0 .stepticks)
  | 0x30 => some (.f1 .call)
  | 0x31 => some (.f0 .ret)
  | 0x32 => some (.f1 .jump)
  | 0x33 => some (.f1 .group)
  | 0x3F => some (.f0 .endTrack)
  | _ => none

/-- What decoding the words from the cursor to the end of the program gives. -/
inductive Decoded where
  /-- An instruction, and the words after it. -/
  | instr (i : Instr) (rest : List Word)
  /-- No word is left: the end of the stream (40_interpreter_cycle.md R116). -/
  | endOfStream
  /-- The opcode is recognized but its operand words are not all there (R117). -/
  | truncated (opcode : Word)
  /-- The word is not one of the 22 codes (R97, R118). -/
  | unknownOpcode (word : Word)
deriving DecidableEq, Repr

/-- Decode the instruction at the head of a word list (R96). Recognition is tested before the operands' presence (60_exceptions.md
R276); for ARPEGGIO the count word must exist before the offsets are counted (R94, R117). -/
def decode : List Word → Decoded
  | [] => .endOfStream
  | w :: rest =>
    match formOf w with
    | none => .unknownOpcode w
    | some (.f0 i) => .instr i rest
    | some (.f1 mk) =>
      match rest with
      | op :: rest' => .instr (mk op) rest'
      | [] => .truncated w
    | some (.fa mk) =>
      match rest with
      | speed :: count :: tail =>
        if count.toNat ≤ tail.length then
          .instr (mk speed (tail.take count.toNat)) (tail.drop count.toNat)
        else .truncated w
      | _ => .truncated w

/-- The opcode word of an instruction (R101). -/
def Instr.code : Instr → Word
  | .attack _ => 0x00000001
  | .release => 0x00000002
  | .mute => 0x00000003
  | .arpeggio _ _ => 0x00000004
  | .volume _ => 0x00000005
  | .panning _ => 0x00000006
  | .pitch _ => 0x00000007
  | .dutycycle _ => 0x00000008
  | .phasewrap _ => 0x00000009
  | .mastervolume _ => 0x0000000A
  | .instrument _ => 0x0000000B
  | .waveform _ => 0x0000000C
  | .attackticks _ => 0x00000010
  | .releaseticks _ => 0x00000011
  | .muteticks _ => 0x00000012
  | .step _ => 0x00000020
  | .stepticks => 0x00000021
  | .call _ => 0x00000030
  | .ret => 0x00000031
  | .jump _ => 0x00000032
  | .group _ => 0x00000033
  | .endTrack => 0x0000003F

/-- The operand words of an instruction, in the order of its format (R90, R93). -/
def Instr.operands : Instr → List Word
  | .attack note => [note]
  | .release => []
  | .mute => []
  | .arpeggio speed offsets => speed :: BitVec.ofNat 32 offsets.length :: offsets
  | .volume value => [value]
  | .panning value => [value]
  | .pitch value => [value]
  | .dutycycle value => [value]
  | .phasewrap value => [value]
  | .mastervolume value => [value]
  | .instrument index => [index]
  | .waveform operand => [operand]
  | .attackticks ticks => [ticks]
  | .releaseticks ticks => [ticks]
  | .muteticks ticks => [ticks]
  | .step ticks => [ticks]
  | .stepticks => []
  | .call address => [address]
  | .ret => []
  | .jump address => [address]
  | .group number => [number]
  | .endTrack => []

/-- The operand-word count `k` of an instruction (R92). -/
def Instr.operandCount : Instr → Nat
  | .release | .mute | .stepticks | .ret | .endTrack => 0
  | .arpeggio _ offsets => 2 + offsets.length
  | .attack _ | .volume _ | .panning _ | .pitch _ | .dutycycle _ | .phasewrap _ | .mastervolume _ | .instrument _
  | .waveform _ | .attackticks _ | .releaseticks _ | .muteticks _ | .step _ | .call _ | .jump _ | .group _ => 1

/-- The words of a well-formed instruction: its opcode word, then its operand words (R90). -/
def encode (i : Instr) : List Word := i.code :: i.operands

/-- Word `n` of an instruction given as one number, bit 0 the least significant bit of its first word; every bit from
`nbits` on is 0. -/
def tableWord (nbits w n : Nat) : Word := BitVec.ofNat 32 ((w % 2 ^ nbits) >>> (32 * n))

/-- The words of such a number, up to the longest instruction it can hold: three, and for an ARPEGGIO as many more as its
count word says. -/
def tableWords (nbits w : Nat) : List Word :=
  let n := if tableWord nbits w 0 = (Instr.arpeggio 0 []).code then 3 + (tableWord nbits w 2).toNat else 3
  (List.range n).map (tableWord nbits w)

/-- The instruction the decoder reads from the number of an opcode-table row; none where it refuses. -/
def decodeTableWord (nbits w : Nat) : Option Instr :=
  match decode (tableWords nbits w) with
  | .instr i _ => some i
  | .endOfStream => none
  | .truncated _ => none
  | .unknownOpcode _ => none

end Sys2Proof
end

