-- ==== Sys2Proof/Config.lean ====
section
/-! DEFINITION. The implementation parameters of 00_scope.md R7 and the values the spec leaves free. -/

namespace Sys2Proof

namespace Config

/-- `ENTRY`, the program start address (R7, R77). -/
def entry : Word := 0

/-- `NULL_HANDLE`, the result of a table lookup outside the table (R7, R74). -/
def nullHandle : Word := 0

/-- `MAX_CHANNELS`: the spec gives it no value (R7, U17), so it has none here. Log 6. -/
opaque maxChannels : Nat

/-- `MIN_RATE`: the spec gives it no value (R7, U17), so it has none here. Log 6. -/
opaque minRate : Nat

/-- `MAX_RATE`: the spec gives it no value (R7, U17), so it has none here. Log 6. -/
opaque maxRate : Nat

/-- The write callback's answer to its n-th request where the answer tape gives none (R267, U8): a free value. Log 10. -/
opaque writeAck : Nat → Bool

end Config

/-- The parameters of R7 that a run is taken with. A state carries them as plain data that no step writes (R53), so that
every statement about a state holds for every choice of them. Log 5. -/
structure Params where
  /-- `STACK_DEPTH`, entries of the call stack. -/
  stackDepth : Nat
  /-- `ARP_MAX`, entries of the arpeggio buffer. -/
  arpMax : Nat
  /-- `WAVE_CUSTOM_BIT`, the bit of the WAVEFORM operand that marks a custom waveform. -/
  waveCustomBit : Fin 32
  /-- `MAX_CHANNELS`. -/
  maxChannels : Nat
  /-- `MIN_RATE`. -/
  minRate : Nat
  /-- `MAX_RATE`. -/
  maxRate : Nat
  /-- `CAP_CLOCKS`, capacity of the list of auxiliary clocks; none is unbounded (R48). Log 33. -/
  capClocks : Option Nat
  /-- `CAP_DIVIDERS`, capacity of each divider group. -/
  capDividers : Option Nat
  /-- `CAP_TRACKS`, capacity of the track list. -/
  capTracks : Option Nat
deriving DecidableEq, Repr

/-- The values of R7's table: the defaults it decides, and the three it leaves open as opaque constants. -/
def Params.default : Params where
  stackDepth := 64
  arpMax := 8
  waveCustomBit := 31
  maxChannels := Config.maxChannels
  minRate := Config.minRate
  maxRate := Config.maxRate
  capClocks := none
  capDividers := none
  capTracks := none

end Sys2Proof
end

