-- ==== Sys2Proof/Machine/State.lean ====
section
/-! DEFINITION. Every piece of state of 10_state.md, the activation frames of the one thread of control, the inputs and the
output trace; the reasons a step can stop; the machine right after power-on. -/

namespace Sys2Proof.Machine

/-- A program image: the non-zero bytes of a read-only word array, byte addresses strictly rising (20_memory.md R70, R72). Log 11. -/
abbrev Memory := List Host.Cell

/-- What a byte that the list does not hold reads as. Log 11. -/
abbrev Memory.unlisted : Byte := 0

/-- The canonical form of a memory: addresses strictly rising, no entry equal to what an unlisted address reads as. -/
abbrev Memory.wf (m : Memory) : Prop :=
  m.Pairwise (fun c d => c.1 < d.1) ∧ ∀ c ∈ m, c.2 ≠ Memory.unlisted

/-- The handle by which the host names a track (60_exceptions.md R288). -/
abbrev Track := Nat

/-- A divider identifier (R42, R262). -/
abbrev DividerId := Nat

/-- A divider-group number: 0 is `G_EFFECT`, 1 is `G_BEAT`, auxiliary groups from 2 on (R43). -/
abbrev GroupNo := Nat

/-- An attached unit, of which the block knows only the order (R44). -/
abbrev UnitId := Nat

/-- FixedTime (R40): `int` a 64-bit two's-complement number of samples, `frac` a 20-bit fraction. The bound on `frac` is in its type. -/
structure FixedTime where
  int : BitVec 64
  frac : BitVec 20
deriving DecidableEq, Repr

/-- TFLAGS (R26), one Boolean per named bit; every other bit of the register reads 0. Log 24. -/
structure TFlags where
  hasStep : Bool := false
  hasAttack : Bool := false
  hasRelease : Bool := false
  hasMute : Bool := false
  hasArpeggio : Bool := false
  intrAttack : Bool := false
  intrRelease : Bool := false
  intrMute : Bool := false
deriving DecidableEq, Repr

/-- The cause of an interpreter fault (60_exceptions.md R272). -/
inductive Cause where
  | stackOverflow
  | unknownOpcode
deriving DecidableEq, Repr

/-- STATUS (R27): DONE and FAULT; every other bit reads 0, FAULT = 3 is never produced. Log 24. -/
structure Status where
  done : Bool := false
  fault : Option Cause := none
deriving DecidableEq, Repr

/-- The bindings of an interpreter (R29): PM with PROGLEN, ITAB, WTAB. A table's length is its list's. Log 12. -/
structure Bindings where
  pm : Memory := []
  proglen : Word := 0
  itab : List Word := []
  wtab : List Word := []
deriving DecidableEq, Repr

/-- An interpreter instance (R20 to R29): its bindings and its mutable state. -/
structure Interp where
  bind : Bindings
  pc : Word
  stack : List Word
  sp : Nat
  stepc : Word
  atkc : Word
  relc : Word
  mutc : Word
  arpc : Word
  dur : Word
  lastw : Word
  tflags : TFlags
  status : Status
  arp : List Word
  arplen : Nat
  arpidx : Nat
  arpspeed : Word
  basenote : Word
deriving DecidableEq, Repr

/-- What a divider drives (R42). -/
inductive Target where
  | track (t : Track)
  | ext (tag : Word)
deriving DecidableEq, Repr

/-- A divider (R42). -/
structure Divider where
  id : DividerId
  divisor : Word
  target : Target
deriving DecidableEq, Repr

/-- A deferred divider command of a group's queue (R47). An attach carries the identifier it was given when posted (R238). -/
inductive Deferred where
  | attach (id : DividerId) (divisor tag : Word)
  | detach (id : DividerId)
  | setDivisor (id : DividerId) (divisor : Word)
deriving DecidableEq, Repr

/-- A divider group (R43), held in the list of the clock it is attached to. -/
structure Group where
  num : GroupNo
  list : List Divider := []
  queue : List Deferred := []
  inPass : Bool := false
deriving DecidableEq, Repr

/-- A clock (R41): period, tick count, time of the next boundary, and its divider groups in order. -/
structure Clock where
  period : FixedTime
  tickCount : BitVec 64 := 0
  next : FixedTime := ⟨0, 0⟩
  groups : List Group
deriving DecidableEq, Repr

/-- The error codes of 60_exceptions.md R270. -/
inductive ErrCode where
  | ok
  | allocation
  | invalidAttribute
  | invalidValue
  | invalidReturnValue
  | interpreterFault
deriving DecidableEq, Repr

/-- A track port (R46): `P.interp`, `P.divider`, `P.WAITC`, `P.ERR`. -/
structure Port where
  track : Track
  divider : DividerId
  waitc : Word := 0
  err : ErrCode := .ok
deriving DecidableEq, Repr

/-- The Context state machine (47_clock_divider.md R255). -/
inductive CtxState where
  | uninitialized
  | running
  | reset
  | disposed
deriving DecidableEq, Repr

/-- CTXFLAGS (R45); every other bit reads 0. Log 24. -/
structure CtxFlags where
  clkrst : Bool := false
  ingen : Bool := false
deriving DecidableEq, Repr

/-- The two built-in groups of the master clock, empty (R43, R234): `G_EFFECT` before `G_BEAT`. -/
def builtinGroups : List Group := [{ num := 0 }, { num := 1 }]

/-- The Context (R44). The field values here are those before Init, which no rule reads (R300). Log 3. -/
structure Context where
  state : CtxState := .uninitialized
  nchan : Nat := 0
  rate : Nat := 0
  now : BitVec 64 := 0
  master : Clock := { period := ⟨0, 0⟩, groups := builtinGroups }
  clocks : List Clock := []
  tracks : List Port := []
  units : List UnitId := []
  flags : CtxFlags := {}
  /-- The identifier the next divider gets; identifiers are never reused (R262). Log 17. -/
  nextDivider : DividerId := 1
  /-- The number the next auxiliary group gets (R43). Log 16. -/
  nextGroup : GroupNo := 2
deriving DecidableEq, Repr

/-- The kinds of sink event (R50). -/
inductive SinkKind where
  | attack
  | release
  | mute
  | arpnote
  | volume
  | panning
  | pitch
  | dutycycle
  | phasewrap
  | mastervolume
  | instrument
  | waveformBuiltin
  | waveformCustom
deriving DecidableEq, Repr

/-- The value of an attribute (47_clock_divider.md R268): a FixedTime or a number. -/
inductive AttrValue where
  | time (t : FixedTime)
  | num (n : Nat)
deriving DecidableEq, Repr

/-- The host commands (47_clock_divider.md R257 to R268). Log 22 on the argument types. -/
inductive Command where
  | init (nchan rate : Int) (masterPeriod : FixedTime)
  | reset
  | dispose
  | trackBind (t : Track) (program itab wtab : List Word)
  | trackAttach (t : Track) (g : GroupNo) (divisor : Word)
  | trackDetach (t : Track)
  | trackReset (t : Track)
  | trackStatus (t : Track)
  | clockAttach (period : FixedTime)
  | clockDetach (i : Nat)
  | dividerAttach (g : GroupNo) (divisor tag : Word)
  | dividerDetach (id : DividerId)
  | dividerSetDivisor (id : DividerId) (divisor : Word)
  | unitAttach (u : UnitId)
  | unitDetach (u : UnitId)
  | generate (n : Int)
  | generateToTime (endTime : FixedTime) (cap : Int)
  | getAttr (id index : Nat)
  | setAttr (id index : Nat) (value : AttrValue)
deriving DecidableEq, Repr

/-- What a command answers. -/
inductive Reply where
  /-- The command succeeded and returns nothing. -/
  | done
  /-- Frames produced (R266, R267). -/
  | frames (n : Nat)
  /-- A divider's identifier (R260, R262). -/
  | divider (id : DividerId)
  /-- A group's number (R265). -/
  | group (g : GroupNo)
  /-- `(DONE, FAULT, ERR, PC)` (R261); no ERR for a track that has no port. Log 20. -/
  | status (done : Bool) (fault : Option Cause) (err : Option ErrCode) (pc : Word)
  /-- An attribute's value (R268). -/
  | attr (v : AttrValue)
  /-- The command ended with an error code (R270, R278). -/
  | error (e : ErrCode)
deriving DecidableEq, Repr

/-- What the block presents on its output ports, in order. Log 30. -/
inductive Event where
  /-- `Sink(kind, payload)` on the sink port of a track (R50). -/
  | sink (t : Track) (kind : SinkKind) (payload : Word)
  /-- `Render(step)` issued at `now` (R51, R251). -/
  | render (now : BitVec 64) (step : Nat)
  /-- `ExtFire(tag, k)` (R52). -/
  | extFire (tag : Word) (k : BitVec 64)
  /-- `WriteCallback(m)` (R267). -/
  | writeCallback (m : Nat)
  /-- The answer to a command. -/
  | reply (r : Reply)
deriving DecidableEq, Repr

/-- The result of an invocation (40_interpreter_cycle.md R121). -/
inductive InvResult where
  | ok (w : Word)
  | done
  | error (c : Cause)
deriving DecidableEq, Repr

/-- Where an invocation of `ApplyNextStep` stands (R111). -/
inductive Phase where
  /-- At the test of DONE and the elapse (R120, R112). -/
  | enter
  /-- At the head of the loop: ResolveDue, ArpCycleIfDue, the run decision (R113, R114). -/
  | resolve
  /-- At the head of Run's loop (R115). -/
  | run
  /-- After Run, or where it was not entered: the wait is computed (R119). -/
  | settle
  /-- The result is being returned to the track port (R237). -/
  | ret (r : InvResult)
deriving DecidableEq, Repr

/-- Where an iteration of GenerateCore stands (47_clock_divider.md R250). -/
inductive Stage where
  /-- At the computation of the step and the render request. -/
  | head
  /-- At the advance of `now` by the step. -/
  | advance (step : Nat)
  /-- At the processing of the clocks that are due. -/
  | due
deriving DecidableEq, Repr

/-- An activation of the one thread of control (00_scope.md R11; 47_clock_divider.md section 3). Log 1. -/
inductive Frame where
  /-- An invocation of a track's interpreter (R111). -/
  | invoke (t : Track) (phase : Phase)
  /-- Commands the environment posted, still to be processed (R238). -/
  | post (cmds : List Command)
  /-- A pass over a group: the dividers of the snapshot still to visit, and the tick index (R232). -/
  | pass (g : GroupNo) (ids : List DividerId) (k : BitVec 64)
  /-- A boundary: the groups still to pass over, and the tick index (R224). -/
  | groups (gs : List GroupNo) (k : BitVec 64)
  /-- GenerateCore: frames asked for, frames produced (R250). -/
  | core (n produced : Nat) (stage : Stage)
  /-- Generate, waiting for GenerateCore (R266). -/
  | generate (n : Nat)
  /-- GenerateToTime at its loop head: floored end time, chunk capacity, total (R267). -/
  | toTime (endInt : Int) (cap total : Nat)
  /-- GenerateToTime with a chunk of m frames generated: the write callback is due (R267). -/
  | callback (endInt : Int) (cap total m : Nat)
  /-- GenerateToTime whose write callback did not acknowledge: it ends with InvalidReturnValue (R267; 60_exceptions.md R280). -/
  | unacknowledged
deriving DecidableEq, Repr

/-- The inputs from outside the block, as tapes read from their heads. -/
structure Env where
  /-- The commands the host has yet to issue (R11). Log 8. -/
  host : List Command := []
  /-- For each firing, render request and write callback, the commands the environment posts (R238, U7). Log 9. -/
  posts : List (List Command) := []
  /-- The write callback's answers (R267, U8). Log 10. -/
  acks : List Bool := []
  /-- How many answers were taken from the free value `Config.writeAck`. Log 10. -/
  ackCount : Nat := 0
  /-- Whether each allocation succeeds (R279, U9). Log 7. -/
  allocs : List Bool := []
deriving DecidableEq, Repr

/-- The whole machine. -/
structure State where
  /-- The parameters of the run; no step writes them (R7, R53). Log 5. -/
  cfg : Params
  /-- The scheduling engine (10_state.md Part B). -/
  ctx : Context
  /-- The bound interpreter instances by handle, handles strictly rising (R20, R288). Log 4. -/
  interps : List (Track × Interp)
  /-- The thread of control, innermost activation first; empty between commands. Log 1. -/
  ctl : List Frame
  /-- The inputs. -/
  env : Env
  /-- The output trace, oldest event first (R50 to R52, U6). Log 30. -/
  out : List Event
deriving DecidableEq, Repr

/-- Why the machine is stuck: no transition is available (93_implementation_defined.md section 1, `stuck`). An interpreter fault
is not one of these: it is taken as 60_exceptions.md R273 says and the machine goes on. -/
inductive Fault where
  /-- Raised by the sequencer where `now`, a clock's `next` or `tickCount` would leave its 64 bits (46_fixed_time.md R208, 70_reset_and_hazards.md
  R321, U3). Safe: the spec makes the transition unavailable. Log 13. -/
  | timeOverflow
  /-- Raised by the return of an invocation where no counter is armed, so that the minimum of 40_interpreter_cycle.md R119 is over an empty set; no
  run from reset reaches it. Safe. Log 15. -/
  | noArmedCounter
deriving DecidableEq, Repr

/-- Why an instruction has no meaning. -/
inductive Refusal where
  /-- Raised by an arm of exec whose instruction is not modelled yet. Safe. No arm does. -/
  | notModelled (mnemonic : String)
deriving DecidableEq, Repr

/-- The machine at power-on: the Context is Uninitialized (47_clock_divider.md R255), no track is bound, nothing is running and no input has
arrived. Log 2, 3. -/
def State.reset : State where
  cfg := Params.default
  ctx := {}
  interps := []
  ctl := []
  env := {}
  out := []

end Sys2Proof.Machine
end

