-- ==== Sys2Proof/Machine/Flags.lean ====
section
/-! DEFINITION. The flag registers TFLAGS (10_state.md R26), STATUS (R27) and CTXFLAGS (R45) as 32-bit words, and every computation of a
flag. -/

namespace Sys2Proof.Machine

/-- A flag at its bit of a register. -/
def bitAt (b : Bool) (i : Nat) : Word := if b then (1 : Word) <<< i else 0

/-- The register TFLAGS (R26): the named bits at their places, every other bit 0. -/
def TFlags.word (f : TFlags) : Word :=
  bitAt f.hasStep 0 ||| bitAt f.hasAttack 1 ||| bitAt f.hasRelease 2 ||| bitAt f.hasMute 3 ||| bitAt f.hasArpeggio 4
    ||| bitAt f.intrAttack 8 ||| bitAt f.intrRelease 9 ||| bitAt f.intrMute 10

/-- The code of a fault cause (R27; 60_exceptions.md R272). -/
def Cause.code : Cause → Nat
  | .stackOverflow => 1
  | .unknownOpcode => 2

/-- The FAULT field: 0 is no fault (R27). -/
def faultCode : Option Cause → Nat
  | none => 0
  | some c => c.code

/-- The register STATUS (R27): DONE at bit 0, FAULT at bits 2:1. -/
def Status.word (s : Status) : Word := bitAt s.done 0 ||| (BitVec.ofNat 32 (faultCode s.fault)) <<< 1

/-- The register CTXFLAGS (R45). -/
def CtxFlags.word (f : CtxFlags) : Word := bitAt f.clkrst 0 ||| bitAt f.ingen 1

/-- The code of an error (60_exceptions.md R270). -/
def ErrCode.code : ErrCode → Nat
  | .ok => 0
  | .allocation => 1
  | .invalidAttribute => 2
  | .invalidValue => 3
  | .invalidReturnValue => 4
  | .interpreterFault => 5

/-- The 4-bit code of a sink event (R50). -/
def SinkKind.code : SinkKind → BitVec 4
  | .attack => 1
  | .release => 2
  | .mute => 3
  | .arpnote => 4
  | .volume => 5
  | .panning => 6
  | .pitch => 7
  | .dutycycle => 8
  | .phasewrap => 9
  | .mastervolume => 10
  | .instrument => 11
  | .waveformBuiltin => 12
  | .waveformCustom => 13

/-- The result of an invocation on a bus: a 2-bit status and a 32-bit value (40_interpreter_cycle.md R121). -/
def InvResult.bus : InvResult → BitVec 2 × Word
  | .ok w => (0, w)
  | .done => (1, 0)
  | .error c => (2, BitVec.ofNat 32 c.code)

/-- The three gate transitions a timed event can make. -/
inductive Gate where
  | attack
  | release
  | mute
deriving DecidableEq, Repr

/-- The tie policy (42_timed_envelope.md R155, R156): of the events due, the one emitted. Log 29. -/
def tieWinner (attack release mute : Bool) : Option Gate :=
  if mute then some .mute else if release then some .release else if attack then some .attack else none

/-- The timed attack is due: armed with its counter at zero (R155). -/
def Interp.attackDue (i : Interp) : Bool := i.tflags.hasAttack && i.atkc == 0

/-- The timed release is due (R155). -/
def Interp.releaseDue (i : Interp) : Bool := i.tflags.hasRelease && i.relc == 0

/-- The timed mute is due (R155). -/
def Interp.muteDue (i : Interp) : Bool := i.tflags.hasMute && i.mutc == 0

/-- An arpeggio is active: offsets are loaded and the speed is not 0 (45_arpeggio.md R190). -/
def Interp.arpActive (i : Interp) : Bool := decide (1 ≤ i.arplen) && i.arpspeed != 0

/-- The arpeggio cycle is due (45_arpeggio.md R194). -/
def Interp.arpDue (i : Interp) : Bool := i.tflags.hasArpeggio && i.arpc == 0

/-- The step counter holds the program (40_interpreter_cycle.md R114). -/
def Interp.held (i : Interp) : Bool := i.tflags.hasStep && i.stepc != 0

/-- The counters whose armed flag is 1 (40_interpreter_cycle.md R111, R119). -/
def Interp.armed (i : Interp) : List Word :=
  (if i.tflags.hasStep then [i.stepc] else []) ++ (if i.tflags.hasAttack then [i.atkc] else [])
    ++ (if i.tflags.hasRelease then [i.relc] else []) ++ (if i.tflags.hasMute then [i.mutc] else [])
    ++ (if i.tflags.hasArpeggio then [i.arpc] else [])

/-- The least of a list of counters, unsigned; none for an empty list. -/
def leastOf : List Word → Option Word
  | [] => none
  | w :: ws =>
    match leastOf ws with
    | none => some w
    | some v => some (if v < w then v else w)

/-- `W`, the minimum over the armed counters (R119). -/
def Interp.nearest (i : Interp) : Option Word := leastOf i.armed

end Sys2Proof.Machine
end

