-- ==== Sys2Proof/Machine/Operands.lean ====
section
/-! DEFINITION. How operand words are read (30_encoding.md R93 to R95), the note sum (45_arpeggio.md R197) and the table lookup
(20_memory.md R74). -/

namespace Sys2Proof.Machine

/-- `u32(w)` (R8). -/
def u32 (w : Word) : Nat := w.toNat

/-- `s32(w)` (R8). -/
def s32 (w : Word) : Int := w.toInt

/-- `wrap32(n)` (R8). -/
def wrap32 (n : Int) : Word := BitVec.ofInt 32 n

/-- The `custom` field of the WAVEFORM operand: the bit `WAVE_CUSTOM_BIT` (R95). -/
def waveCustom (cfg : Params) (w : Word) : Bool := w.getLsbD cfg.waveCustomBit

/-- The `index` field of the WAVEFORM operand: the word with the bit `WAVE_CUSTOM_BIT` forced to 0 (R95). -/
def waveIndex (cfg : Params) (w : Word) : Word := w &&& ~~~((1 : Word) <<< cfg.waveCustomBit.val)

/-- The note sounded for a base note and an offset: the sum of the two signed numbers, wrapped (R197). -/
def noteSum (base offset : Word) : Word := wrap32 (s32 base + s32 offset)

/-- `ITAB(i)`, `WTAB(i)`: the handle at the index, `NULL_HANDLE` outside the table (R74). -/
def tableAt (table : List Word) (i : Word) : Word := (table[u32 i]?).getD Config.nullHandle

end Sys2Proof.Machine
end

