-- ==== Sys2Proof/Machine/Ops.lean ====
section
/-! DEFINITION. The named operations over memory, the call stack, the interpreter of the running invocation, its sink port and its
arpeggio unit; the entry of an interpreter fault. -/

namespace Sys2Proof.Machine

/-! ## Program memory (20_memory.md R70 to R72) -/

/-- The byte at an address of a program image. -/
def Memory.readByte : Memory → Nat → Byte
  | [], _ => Memory.unlisted
  | (b, v) :: rest, a => if a = b then v else Memory.readByte rest a

/-- A memory with one byte written, in canonical form. -/
def Memory.writeByte : Memory → Nat → Byte → Memory
  | [], a, v => if v = Memory.unlisted then [] else [(a, v)]
  | (b, x) :: rest, a, v =>
    if a < b then (if v = Memory.unlisted then (b, x) :: rest else (a, v) :: (b, x) :: rest)
    else if a = b then (if v = Memory.unlisted then rest else (a, v) :: rest)
    else (b, x) :: Memory.writeByte rest a v

/-- `PM[a]` for a word address: little-endian, the byte at image offset `4*a` is bits 7:0 (R72). -/
def Memory.readWord (m : Memory) (a : Nat) : Word :=
  m.readByte (4 * a + 3) ++ m.readByte (4 * a + 2) ++ m.readByte (4 * a + 1) ++ m.readByte (4 * a)

/-- A program image with one word placed at a word address (R72). -/
def Memory.writeWord (m : Memory) (a : Nat) (w : Word) : Memory :=
  (((m.writeByte (4 * a) (w.extractLsb' 0 8)).writeByte (4 * a + 1) (w.extractLsb' 8 8)).writeByte (4 * a + 2)
    (w.extractLsb' 16 8)).writeByte (4 * a + 3) (w.extractLsb' 24 8)

/-- A program image with words placed from a word address on. -/
def Memory.writeWords (m : Memory) (a : Nat) : List Word → Memory
  | [] => m
  | w :: ws => Memory.writeWords (m.writeWord a w) (a + 1) ws

/-- `MemRead(a, n)` (R71). -/
def Memory.readWords (m : Memory) (a : Nat) : Nat → List Word
  | 0 => []
  | n + 1 => m.readWord a :: m.readWords (a + 1) n

/-! ## The interpreter instances (10_state.md R20, R32) -/

/-- The interpreter reset values (R32; 70_reset_and_hazards.md R301) with the given bindings. -/
def Interp.fresh (cfg : Params) (b : Bindings) : Interp where
  bind := b
  pc := Config.entry
  stack := List.replicate cfg.stackDepth 0
  sp := 0
  stepc := 0
  atkc := 0
  relc := 0
  mutc := 0
  arpc := 0
  dur := 0
  lastw := 0
  tflags := {}
  status := {}
  arp := List.replicate cfg.arpMax 0
  arplen := 0
  arpidx := 0
  arpspeed := 0
  basenote := 0

/-- The instance of a handle, if the track is bound. -/
def lookupInterp : List (Track × Interp) → Track → Option Interp
  | [], _ => none
  | (u, i) :: rest, t => if t = u then some i else lookupInterp rest t

/-- The instances with one of them written, handles strictly rising. -/
def insertInterp : List (Track × Interp) → Track → Interp → List (Track × Interp)
  | [], t, i => [(t, i)]
  | (u, j) :: rest, t, i =>
    if t < u then (t, i) :: (u, j) :: rest
    else if t = u then (t, i) :: rest
    else (u, j) :: insertInterp rest t i

/-- The instance of a handle; for a track that was never bound, the reset values with empty bindings. Log 4. -/
def State.interp (s : State) (t : Track) : Interp :=
  (lookupInterp s.interps t).getD (Interp.fresh s.cfg {})

/-- The machine with one instance written. -/
def State.setInterp (s : State) (t : Track) (i : Interp) : State :=
  { s with interps := insertInterp s.interps t i }

/-- The track whose invocation is running; 0 where none is. Log 25. -/
def State.cur (s : State) : Track :=
  match s.ctl with
  | .invoke t _ :: _ => t
  | _ => 0

/-- The interpreter of the running invocation. -/
def State.it (s : State) : Interp := s.interp s.cur

/-- The machine with the running interpreter updated. -/
def State.updIt (s : State) (f : Interp → Interp) : State := s.setInterp s.cur (f s.it)

/-- One event on an output port (10_state.md R50 to R52). -/
def State.emit (s : State) (e : Event) : State := { s with out := s.out ++ [e] }

/-- `Sink(kind, payload)`: one event on the running track's sink port (R50). -/
def State.sink (s : State) (kind : SinkKind) (payload : Word) : State := s.emit (.sink s.cur kind payload)

/-- `PC <- PC + 1 + k`, for an instruction of `n = 1 + k` words (30_encoding.md R92). -/
def State.advance (s : State) (n : Nat) : State :=
  s.updIt fun i => { i with pc := i.pc + BitVec.ofNat 32 n }

/-! ## The call stack (20_memory.md R75) -/

/-- `Push(v)`, where `SP < STACK_DEPTH`. -/
def Interp.push (i : Interp) (v : Word) : Interp := { i with stack := i.stack.set i.sp v, sp := i.sp + 1 }

/-- `Pop()`, where `SP > 0`: the entry on the top. -/
def Interp.top (i : Interp) : Word := i.stack.getD (i.sp - 1) 0

/-- `Pop()`, where `SP > 0`: the count after it. -/
def Interp.drop (i : Interp) : Interp := { i with sp := i.sp - 1 }

/-! ## The entry of an interpreter fault, and leaving an invocation (60_exceptions.md R273, R274) -/

/-- The running invocation is at another phase. -/
def State.setPhase (s : State) (p : Phase) : State :=
  match s.ctl with
  | .invoke t _ :: rest => { s with ctl := .invoke t p :: rest }
  | _ => s

/-- `DONE <- 1`: the program has ended without a fault (R184, R179, R116, R117). -/
def State.markDone (s : State) : State :=
  s.updIt fun i => { i with status := { i.status with done := true } }

/-- `raise InterpreterFault(cause)` (R273): FAULT and DONE are set, LASTW is 0, PC and everything else of the instance stay, and the
invocation returns Error(cause) at once. There is no handler and no return from it (R274, R282). -/
def State.raise (s : State) (c : Cause) : State :=
  (s.updIt fun i => { i with status := { done := true, fault := some c }, lastw := 0 }).setPhase (.ret (.error c))

/-! ## The arpeggio unit (45_arpeggio.md) -/

/-- The note an attack sounds (R195). -/
def Interp.attackNote (i : Interp) : Word :=
  if 1 ≤ i.arplen then noteSum i.basenote (i.arp.getD 0 0) else i.basenote

/-- The cycle timer loaded and armed where the arpeggio is active, else disarmed (R191, R195). -/
def Interp.rearm (i : Interp) : Interp :=
  if i.arpActive then { i with arpc := i.arpspeed, tflags := { i.tflags with hasArpeggio := true } }
  else { i with tflags := { i.tflags with hasArpeggio := false } }

/-- What `DoAttack` writes (R195): the arpeggio restarts at its first offset. -/
def Interp.attacked (i : Interp) : Interp :=
  { i with arpidx := if 1 ≤ i.arplen then 1 % i.arplen else 0 }.rearm

/-- `DoAttack()` (R195). -/
def State.doAttack (s : State) : State := (s.updIt Interp.attacked).sink .attack s.it.attackNote

/-- What `ARPEGGIO` loads (R191, R196): the first `min(count, ARP_MAX)` offsets, zeros after them. -/
def Interp.loadArp (cfg : Params) (speed : Word) (offsets : List Word) (i : Interp) : Interp :=
  let n := min offsets.length cfg.arpMax
  { i with arp := offsets.take n ++ List.replicate (cfg.arpMax - n) 0, arplen := n, arpspeed := speed, arpidx := 0 }.rearm

/-- The note of a cycle (R193), the source's `nextNote`. -/
def Interp.cycleNote (i : Interp) : Word := noteSum i.basenote (i.arp.getD i.arpidx 0)

/-- What `ArpCycle` writes (R193). -/
def Interp.cycled (i : Interp) : Interp :=
  { i with arpidx := (i.arpidx + 1) % i.arplen, arpc := i.arpspeed }

/-- `ArpCycleIfDue()` (R194). -/
def State.arpCycleIfDue (s : State) : State :=
  if s.it.arpDue then (s.updIt Interp.cycled).sink .arpnote s.it.cycleNote else s

/-! ## The yield and the timed envelope counters (43_step.md R169; 42_timed_envelope.md R150) -/

/-- `Yield(N)` (R169): a wait of zero does nothing (R167). -/
def Interp.yield (n : Word) (i : Interp) : Interp :=
  if n = 0 then i else { i with stepc := n, tflags := { i.tflags with hasStep := true } }

/-- `DUR <- wrap32(DUR + t)` (R151). -/
def Interp.accumulate (t : Word) (i : Interp) : Interp := { i with dur := i.dur + t }

/-- The due events marked in the IntrFlag bits and consumed: their armed flags are cleared, whichever of them wins (R155). -/
def Interp.markDue (i : Interp) : Interp :=
  { i with tflags := { i.tflags with
      hasMute := i.tflags.hasMute && !i.muteDue
      hasRelease := i.tflags.hasRelease && !i.releaseDue
      hasAttack := i.tflags.hasAttack && !i.attackDue
      intrMute := i.muteDue
      intrRelease := i.releaseDue
      intrAttack := i.attackDue } }

/-- The three IntrFlag bits cleared (R155). -/
def Interp.clearIntr (i : Interp) : Interp :=
  { i with tflags := { i.tflags with intrMute := false, intrRelease := false, intrAttack := false } }

/-- The gate transition that the tie policy chose, carried out (R155, R156). -/
def State.carryOut (s : State) : Option Gate → State
  | some .mute => s.sink .mute 0
  | some .release => s.sink .release 0
  | some .attack => s.doAttack
  | none => s

/-- The winner of the tie among the three IntrFlag bits (R155). -/
def Interp.winner (i : Interp) : Option Gate := tieWinner i.tflags.intrAttack i.tflags.intrRelease i.tflags.intrMute

/-- `ResolveDue()` (R155): the due events are marked and consumed, the winner of the tie is carried out, and the IntrFlag bits are 0 again at its end
(10_state.md R26, R31). -/
def State.resolveDue (s : State) : State :=
  let marked := s.updIt Interp.markDue
  (marked.carryOut marked.it.winner).updIt Interp.clearIntr

/-- `Elapse(LASTW)` (40_interpreter_cycle.md R112): every armed counter goes down by the wait last returned. -/
def Interp.elapse (i : Interp) : Interp :=
  let e := i.lastw
  { i with
      stepc := if i.tflags.hasStep then i.stepc - e else i.stepc
      atkc := if i.tflags.hasAttack then i.atkc - e else i.atkc
      relc := if i.tflags.hasRelease then i.relc - e else i.relc
      mutc := if i.tflags.hasMute then i.mutc - e else i.mutc
      arpc := if i.tflags.hasArpeggio then i.arpc - e else i.arpc }

end Sys2Proof.Machine
end

