-- ==== Sys2Proof/Machine/Arpeggio.lean ====
section
/-! DEFINITION. The ARPEGGIO instruction (45_arpeggio.md R191, R196). -/

namespace Sys2Proof.Machine

/-- `ARPEGGIO speed, count, offsets` (R191): no sink event, the cursor moves past all the offsets, stored or not (R196). -/
def execArpeggio (speed : Word) (offsets : List Word) (s : State) : Host.Outcome State Fault Refusal :=
  .next ((s.updIt (Interp.loadArp s.cfg speed offsets)).advance (3 + offsets.length))

end Sys2Proof.Machine
end

