-- ==== Sys2Proof/Machine/ControlFlow.lean ====
section
/-! DEFINITION. The control-flow instructions (44_control_flow.md R175 to R184). None emits a sink event, touches a counter or yields (R175). -/

namespace Sys2Proof.Machine

/-- `PC <- target`: the target is not checked (R181). -/
def State.goto (s : State) (target : Word) : State := s.updIt fun i => { i with pc := target }

/-- `CALL address` (R176): with a full stack, InterpreterFault(StackOverflow) before anything is written (R177). -/
def execCall (address : Word) (s : State) : Host.Outcome State Fault Refusal :=
  if s.it.sp < s.cfg.stackDepth then .next ((s.updIt fun i => i.push (i.pc + 2)).goto address)
  else .next (s.raise .stackOverflow)

/-- `RETURN` (R178): with an empty stack the program ends, PC unchanged (R179). -/
def execRet (s : State) : Host.Outcome State Fault Refusal :=
  if s.it.sp = 0 then .next s.markDone
  else .next ((s.updIt Interp.drop).goto s.it.top)

/-- `JUMP address` (R180). -/
def execJump (address : Word) (s : State) : Host.Outcome State Fault Refusal := .next (s.goto address)

/-- `GROUP number` (R182): a two-word no-op, the operand is ignored. -/
def execGroup (_number : Word) (s : State) : Host.Outcome State Fault Refusal := .next (s.advance 2)

/-- `END` (R184): DONE, PC left at the opcode word. -/
def execEndTrack (s : State) : Host.Outcome State Fault Refusal := .next s.markDone

end Sys2Proof.Machine
end

