-- ==== Sys2Proof/Machine/TimedEnvelope.lean ====
section
/-! DEFINITION. The timed envelope instructions (42_timed_envelope.md R150 to R154). They emit nothing when they execute. -/

namespace Sys2Proof.Machine

/-- `ATTACKTICKS ticks` (R152). -/
def execAttackticks (ticks : Word) (s : State) : Host.Outcome State Fault Refusal :=
  .next ((s.updIt fun i =>
    Interp.accumulate ticks { i with atkc := ticks, tflags := { i.tflags with hasAttack := true } }).advance 2)

/-- `RELEASETICKS ticks` (R153). -/
def execReleaseticks (ticks : Word) (s : State) : Host.Outcome State Fault Refusal :=
  .next ((s.updIt fun i =>
    Interp.accumulate ticks { i with relc := ticks, tflags := { i.tflags with hasRelease := true } }).advance 2)

/-- `MUTETICKS ticks` (R154). -/
def execMuteticks (ticks : Word) (s : State) : Host.Outcome State Fault Refusal :=
  .next ((s.updIt fun i =>
    Interp.accumulate ticks { i with mutc := ticks, tflags := { i.tflags with hasMute := true } }).advance 2)

end Sys2Proof.Machine
end

