-- ==== Sys2Proof/Machine/ValueSetting.lean ====
section
/-! DEFINITION. The value-setting and gate instructions (41_value_setting.md). None faults, none yields (R130). -/

namespace Sys2Proof.Machine

/-- A parameter instruction (R134 to R139): the operand goes to the sink as it is, and the cursor moves past two words. -/
def setParam (kind : SinkKind) (value : Word) (s : State) : Host.Outcome State Fault Refusal :=
  .next ((s.sink kind value).advance 2)

/-- `ATTACK note` (R131). -/
def execAttack (note : Word) (s : State) : Host.Outcome State Fault Refusal :=
  .next ((s.updIt fun i => { i with basenote := note }).doAttack.advance 2)

/-- `RELEASE` (R132). -/
def execRelease (s : State) : Host.Outcome State Fault Refusal :=
  .next ((s.sink .release 0).advance 1)

/-- `MUTE` (R133). -/
def execMute (s : State) : Host.Outcome State Fault Refusal :=
  .next ((s.sink .mute 0).advance 1)

/-- `VOLUME value` (R134). -/
def execVolume (value : Word) (s : State) : Host.Outcome State Fault Refusal := setParam .volume value s

/-- `PANNING value` (R135). -/
def execPanning (value : Word) (s : State) : Host.Outcome State Fault Refusal := setParam .panning value s

/-- `PITCH value` (R136). -/
def execPitch (value : Word) (s : State) : Host.Outcome State Fault Refusal := setParam .pitch value s

/-- `DUTYCYCLE value` (R137). -/
def execDutycycle (value : Word) (s : State) : Host.Outcome State Fault Refusal := setParam .dutycycle value s

/-- `PHASEWRAP value` (R138). -/
def execPhasewrap (value : Word) (s : State) : Host.Outcome State Fault Refusal := setParam .phasewrap value s

/-- `MASTERVOLUME value` (R139). -/
def execMastervolume (value : Word) (s : State) : Host.Outcome State Fault Refusal := setParam .mastervolume value s

/-- `INSTRUMENT index` (R140): the handle, not the index, goes to the sink. -/
def execInstrument (index : Word) (s : State) : Host.Outcome State Fault Refusal :=
  .next ((s.sink .instrument (tableAt s.it.bind.itab index)).advance 2)

/-- `WAVEFORM w` (R141, R95). -/
def execWaveform (operand : Word) (s : State) : Host.Outcome State Fault Refusal :=
  let index := waveIndex s.cfg operand
  let told :=
    if waveCustom s.cfg operand then s.sink .waveformCustom (tableAt s.it.bind.wtab index)
    else s.sink .waveformBuiltin index
  .next (told.advance 2)

end Sys2Proof.Machine
end

