-- ==== Sys2Proof/Machine/Yielding.lean ====
section
/-! DEFINITION. The step instructions, the yield point of a program (43_step.md R165 to R169). -/

namespace Sys2Proof.Machine

/-- `STEP ticks` (R166). -/
def execStep (ticks : Word) (s : State) : Host.Outcome State Fault Refusal :=
  .next ((s.advance 2).updIt (Interp.yield ticks))

/-- `STEPTICKS` (R168): the wait is DUR, which is cleared whether or not the instruction yields. -/
def execStepticks (s : State) : Host.Outcome State Fault Refusal :=
  .next (((s.updIt fun i => { i with dur := 0 }).advance 1).updIt (Interp.yield s.it.dur))

end Sys2Proof.Machine
end

