-- ==== Sys2Proof/Machine/Dispatch.lean ====
section
/-! DEFINITION. What each instruction does (30_encoding.md R101): one arm per instruction, one call of its meaning. -/

namespace Sys2Proof.Machine

/-- The effect of one instruction on the machine whose running invocation stands at it. -/
def exec (i : Instr) (s : State) : Host.Outcome State Fault Refusal :=
  match i with
  | .attack note => Sys2Proof.Machine.execAttack note s
  | .release => Sys2Proof.Machine.execRelease s
  | .mute => Sys2Proof.Machine.execMute s
  | .arpeggio speed offsets => Sys2Proof.Machine.execArpeggio speed offsets s
  | .volume value => Sys2Proof.Machine.execVolume value s
  | .panning value => Sys2Proof.Machine.execPanning value s
  | .pitch value => Sys2Proof.Machine.execPitch value s
  | .dutycycle value => Sys2Proof.Machine.execDutycycle value s
  | .phasewrap value => Sys2Proof.Machine.execPhasewrap value s
  | .mastervolume value => Sys2Proof.Machine.execMastervolume value s
  | .instrument index => Sys2Proof.Machine.execInstrument index s
  | .waveform operand => Sys2Proof.Machine.execWaveform operand s
  | .attackticks ticks => Sys2Proof.Machine.execAttackticks ticks s
  | .releaseticks ticks => Sys2Proof.Machine.execReleaseticks ticks s
  | .muteticks ticks => Sys2Proof.Machine.execMuteticks ticks s
  | .step ticks => Sys2Proof.Machine.execStep ticks s
  | .stepticks => Sys2Proof.Machine.execStepticks s
  | .call address => Sys2Proof.Machine.execCall address s
  | .ret => Sys2Proof.Machine.execRet s
  | .jump address => Sys2Proof.Machine.execJump address s
  | .group number => Sys2Proof.Machine.execGroup number s
  | .endTrack => Sys2Proof.Machine.execEndTrack s

end Sys2Proof.Machine
end

