-- ==== Sys2Proof/Machine/FixedTime.lean ====
section
/-! DEFINITION. FixedTime arithmetic (46_fixed_time.md R200 to R208). A result whose integer part leaves its 64 bits does not exist (R208). -/

namespace Sys2Proof.Machine

/-- `raw(t) = int * 2^20 + frac` (R200). -/
def ftRaw (t : FixedTime) : Int := t.int.toInt * 2 ^ 20 + t.frac.toNat

/-- A number as a 64-bit signed integer; none outside the range (R208). -/
def int64 (n : Int) : Option (BitVec 64) :=
  if -(2 ^ 63) ≤ n ∧ n < 2 ^ 63 then some (BitVec.ofInt 64 n) else none

/-- `FTNorm(i, f)` (R201): the carry or borrow of `f` goes into the integer part. -/
def ftNorm (i f : Int) : Option FixedTime :=
  (int64 (i + f / 2 ^ 20)).map fun n => { int := n, frac := BitVec.ofInt 20 (f % 2 ^ 20) }

/-- `FTAdd(a, b)` (R202). -/
def ftAdd (a b : FixedTime) : Option FixedTime :=
  ftNorm (a.int.toInt + b.int.toInt) (a.frac.toNat + b.frac.toNat)

/-- `FTSub(a, b)` (R203). -/
def ftSub (a b : FixedTime) : Option FixedTime :=
  ftNorm (a.int.toInt - b.int.toInt) ((a.frac.toNat : Int) - b.frac.toNat)

/-- `FTCmp(a, b)` is less: lexicographic, `int` signed and `frac` unsigned (R204). -/
def ftLt (a b : FixedTime) : Bool :=
  decide (a.int.toInt < b.int.toInt) || (a.int == b.int && decide (a.frac.toNat < b.frac.toNat))

/-- `FTCmp(a, b)` (R204). -/
def ftCmp (a b : FixedTime) : Ordering :=
  if ftLt a b then .lt else if ftLt b a then .gt else .eq

/-- `FTIsPositive(a)` (R204). -/
def ftIsPositive (a : FixedTime) : Bool :=
  decide (0 < a.int.toInt) || (a.int == 0 && decide (0 < a.frac.toNat))

/-- `FTFromSamples(n)` (R205). -/
def ftFromSamples (n : BitVec 64) : FixedTime := { int := n, frac := 0 }

/-- `FTFloor(t)` (R205). -/
def ftFloor (t : FixedTime) : Int := t.int.toInt

/-- `FTFromSeconds(num, den, rate)`, for `den >= 1` (R206). -/
def ftFromSeconds (num den rate : Nat) : Option FixedTime :=
  if den = 0 then none else ftNorm 0 ((num * rate * 2 ^ 20 / den : Nat) : Int)

end Sys2Proof.Machine
end

