-- ==== Sys2Proof/Machine/Scheduling.lean ====
section
/-! DEFINITION. The lists of the Context (10_state.md R41 to R48): clocks, groups, dividers, track ports; the clock predicates and the
divider comparator (47_clock_divider.md R221 to R231). -/

namespace Sys2Proof.Machine

/-- The clock list a rule iterates: `[master] ++ clocks` (R44). -/
def Context.clockList (c : Context) : List Clock := c.master :: c.clocks

/-- Every divider group, in clock order. -/
def Context.allGroups (c : Context) : List Group := c.clockList.flatMap (·.groups)

/-- The group of a number. -/
def Context.group? (c : Context) (g : GroupNo) : Option Group := c.allGroups.find? fun x => x.num == g

/-- A clock with every group of its list changed. -/
def Clock.mapGroups (f : Group → Group) (c : Clock) : Clock := { c with groups := c.groups.map f }

/-- The Context with every group changed. -/
def Context.mapGroups (f : Group → Group) (c : Context) : Context :=
  { c with master := c.master.mapGroups f, clocks := c.clocks.map (Clock.mapGroups f) }

/-- The Context with the group of a number changed. -/
def Context.updGroup (c : Context) (g : GroupNo) (f : Group → Group) : Context :=
  c.mapGroups fun x => if x.num = g then f x else x

/-- The divider of an identifier in a group's list. -/
def Group.divider? (g : Group) (id : DividerId) : Option Divider := g.list.find? fun d => d.id == id

/-- The divider of an identifier, with the group it belongs to. -/
def Context.divider? (c : Context) (id : DividerId) : Option (Group × Divider) :=
  c.allGroups.findSome? fun g => (g.divider? id).map fun d => (g, d)

/-- Append a divider at the end of a group's list (R262). -/
def Group.append (d : Divider) (g : Group) : Group := { g with list := g.list ++ [d] }

/-- Remove a divider, keeping the order of the others (R263). -/
def Group.remove (id : DividerId) (g : Group) : Group := { g with list := g.list.filter fun d => d.id != id }

/-- Write a divider's divisor (R264). -/
def Group.setDivisor (id : DividerId) (divisor : Word) (g : Group) : Group :=
  { g with list := g.list.map fun d => if d.id = id then { d with divisor := divisor } else d }

/-- Post a command to a group's queue (R238). -/
def Group.post (q : Deferred) (g : Group) : Group := { g with queue := g.queue ++ [q] }

/-- The port of a track, if it is attached. -/
def Context.port? (c : Context) (t : Track) : Option Port := c.tracks.find? fun p => p.track == t

/-- The Context with the port of a track changed. -/
def Context.updPort (c : Context) (t : Track) (f : Port → Port) : Context :=
  { c with tracks := c.tracks.map fun p => if p.track = t then f p else p }

/-- `TrackDetach` of a track: its divider, its place in `tracks` and its port go (R260). -/
def Context.detachTrack (c : Context) (t : Track) : Context :=
  match c.port? t with
  | none => c
  | some p => { c.mapGroups (Group.remove p.divider) with tracks := c.tracks.filter fun q => q.track != t }

/-- `ClockDue(c)` (R221). -/
def Clock.due (c : Clock) (now : BitVec 64) : Bool := decide (c.next.int.toInt ≤ now.toInt)

/-- `ClockTimeToNext(c)` (R222). -/
def Clock.timeToNext (c : Clock) (now : BitVec 64) : Nat := (c.next.int.toInt - now.toInt).toNat

/-- `TimeToNext()`: the minimum over the clock list (R222). -/
def Context.timeToNext (c : Context) : Nat :=
  c.clocks.foldl (fun m k => min m (k.timeToNext c.now)) (c.master.timeToNext c.now)

/-- The best of the due clocks so far, by place in the list and time of its next boundary. -/
def pickFrom (now : BitVec 64) : List Clock → Nat → Option (Nat × FixedTime) → Option (Nat × FixedTime)
  | [], _, best => best
  | c :: cs, i, best =>
    let better :=
      match best with
      | none => true
      | some (_, t) => ftLt c.next t
    pickFrom now cs (i + 1) (if c.due now && better then some (i, c.next) else best)

/-- `PickDue()` (R225): the place of the due clock with the smallest `next`, the earliest in the list among equals. -/
def Context.pickDue (c : Context) : Option Nat := (pickFrom c.now c.clockList 0 none).map (·.1)

/-- The Context with the clock of a place of the clock list changed; place 0 is the master. -/
def Context.updClock (c : Context) (i : Nat) (f : Clock → Clock) : Context :=
  match i with
  | 0 => { c with master := f c.master }
  | j + 1 => { c with clocks := c.clocks.modify j f }

/-- `DividerDue(d, k)`: the tick index is a multiple of the divisor (R230). -/
def Divider.due (d : Divider) (k : BitVec 64) : Bool := k.toNat % d.divisor.toNat == 0

end Sys2Proof.Machine
end

