-- ==== Sys2Proof/Machine/Invocation.lean ====
section
/-! DEFINITION. The invocation `ApplyNextStep` (40_interpreter_cycle.md R110 to R121): fetch, the phases, the return to the track port (47_clock_divider.md
R237, R239). -/

namespace Sys2Proof.Machine

/-- The words of the program from the cursor to its end: nothing outside the program is ever read (20_memory.md R71). -/
def Interp.stream (i : Interp) : List Word :=
  i.bind.pm.readWords i.pc.toNat (i.bind.proglen.toNat - i.pc.toNat)

/-- What stands at the cursor of the running interpreter (30_encoding.md R96). -/
def State.fetch (s : State) : Decoded := decode s.it.stream

/-- The invocation is entered (R111): in the terminal state nothing happens (R120), else the time since the last one elapses (R112). -/
def State.enterStep (s : State) : State :=
  if s.it.status.done then s.setPhase (.ret .done) else (s.updIt Interp.elapse).setPhase .resolve

/-- The loop head of R111: the due events, the arpeggio cycle, then the run decision (R113, R114). -/
def State.resolveStep (s : State) : State :=
  let s := s.resolveDue.arpCycleIfDue
  if s.it.held then s.setPhase .settle
  else (s.updIt fun i => { i with tflags := { i.tflags with hasStep := false } }).setPhase .run

/-- One turn of Run's loop (R115): Run has returned if the program has ended or yielded; else the instruction at the cursor is executed. The end of the stream
and a truncated instruction end the program (R116, R117); an unrecognized opcode faults (R118). -/
def State.runStep (s : State) : Host.Outcome State Fault Refusal :=
  if s.it.status.done || s.it.tflags.hasStep then .next (s.setPhase .settle)
  else
    match s.fetch with
    | .instr i _ => exec i s
    | .endOfStream => .next s.markDone
    | .truncated _ => .next s.markDone
    | .unknownOpcode _ => .next (s.raise .unknownOpcode)

/-- The end of a pass of R111's loop (R119): Done, or the minimum of the armed counters; a minimum of 0 sends it round again. -/
def State.settleStep (s : State) : Host.Outcome State Fault Refusal :=
  if s.it.status.done then .next ((s.updIt fun i => { i with lastw := 0 }).setPhase (.ret .done))
  else
    match s.it.nearest with
    | none => .fault .noArmedCounter
    | some w =>
      .next (if w = 0 then s.setPhase .resolve else (s.updIt fun i => { i with lastw := w }).setPhase (.ret (.ok w)))

/-- The port after the invocation's result (R237, R239). -/
def Port.take (r : InvResult) (p : Port) : Port :=
  match r with
  | .ok w => { p with waitc := w }
  | .done => { p with waitc := 0 }
  | .error _ => { p with waitc := 0, err := .interpreterFault }

/-- The invocation returns its result to the track port (R237). -/
def State.returnStep (t : Track) (r : InvResult) (rest : List Frame) (s : State) : State :=
  { s with ctx := s.ctx.updPort t (Port.take r), ctl := rest }

/-- One action of an invocation. -/
def State.invokeStep (t : Track) (phase : Phase) (rest : List Frame) (s : State) : Host.Outcome State Fault Refusal :=
  match phase with
  | .enter => .next s.enterStep
  | .resolve => .next s.resolveStep
  | .run => s.runStep
  | .settle => s.settleStep
  | .ret r => .next (s.returnStep t r rest)

/-- The machine with the words of an instruction placed where the running interpreter fetches next, its program long enough to hold them, and its invocation at
the head of Run's loop. Where no invocation is running, one of track 0 is started; a cursor too near the end of the address space goes to the entry. Log 2. -/
def State.placeWords (s : State) (words : List Word) : State :=
  let t := s.cur
  let i := s.it
  let pc := if i.pc.toNat + words.length < 2 ^ 32 then i.pc else Config.entry
  let len := max i.bind.proglen.toNat (pc.toNat + words.length)
  let rest :=
    match s.ctl with
    | .invoke _ _ :: rest => rest
    | ctl => ctl
  let s := s.setInterp t
    { i with
        pc := pc
        bind := { i.bind with pm := i.bind.pm.writeWords pc.toNat words, proglen := BitVec.ofNat 32 len }
        tflags := { i.tflags with hasStep := false }
        status := { i.status with done := false } }
  { s with ctl := .invoke t .run :: rest }

end Sys2Proof.Machine
end

