-- ==== Sys2Proof/Machine/HostCommands.lean ====
section
/-! DEFINITION. The host commands (47_clock_divider.md R255 to R268), their refusals (60_exceptions.md R278, R279), interpreter reset and Context
reset (70_reset_and_hazards.md R301, R303), and the deferred divider commands (R238, R233). -/

namespace Sys2Proof.Machine

/-- The answer to a command. -/
def State.reply (s : State) (r : Reply) : State := s.emit (.reply r)

/-- `refuse E` (R278): nothing changes but the answer. -/
def State.refuse (s : State) (e : ErrCode) : State := s.reply (.error e)

/-- The machine with its Context changed. -/
def State.updCtx (s : State) (f : Context → Context) : State := { s with ctx := f s.ctx }

/-- A list of this length is below its capacity parameter (R48, R279). -/
def belowCap : Option Nat → Nat → Bool
  | none, _ => true
  | some cap, n => decide (n < cap)

/-- Whether an allocation succeeds, where there is room: the environment's next answer, success where it gives none (R279, U9). Log 7. -/
def State.allocate (s : State) (room : Bool) : Bool × State :=
  if room then
    match s.env.allocs with
    | [] => (true, s)
    | b :: bs => (b, { s with env := { s.env with allocs := bs } })
  else (false, s)

/-! ## Reset -/

/-- `InterpReset(I)` of a track's interpreter (R301): everything but the bindings takes its reset value. -/
def State.interpReset (s : State) (t : Track) : State :=
  s.setInterp t (Interp.fresh s.cfg (s.interp t).bind)

/-- A clock with its count and next boundary zeroed, the period kept (R303 step 2). -/
def Clock.zeroed (c : Clock) : Clock := { c with tickCount := 0, next := ⟨0, 0⟩ }

/-- A group with its queue emptied and no pass running, the list kept (R303 step 3). -/
def Group.quiet (g : Group) : Group := { g with queue := [], inPass := false }

/-- A port as after reset (R303 step 4). -/
def Port.cleared (p : Port) : Port := { p with waitc := 0, err := .ok }

/-- The Context's part of the reset sequence (R303 steps 2, 3, 4, 5), with the state it ends in. CLKRST is 1 only inside the sequence, which is
one transition, so that the host never sees it (R45, R255). -/
def Context.resetSeq (c : Context) : Context :=
  { c with
      state := .running
      master := (c.master.mapGroups Group.quiet).zeroed
      clocks := c.clocks.map fun k => (k.mapGroups Group.quiet).zeroed
      tracks := c.tracks.map Port.cleared
      now := 0
      flags := { c.flags with clkrst := false } }

/-- `Reset()` (R303): the Context's part, and interpreter reset of every attached track. -/
def State.contextReset (s : State) : State :=
  (s.ctx.tracks.foldl (fun s p => s.interpReset p.track) s).updCtx Context.resetSeq

/-! ## Which commands are accepted (R255, R256) -/

/-- The Context state allows the command (R255). -/
def Command.allowedIn : Command → CtxState → Bool
  | .init _ _ _, st => st == .uninitialized
  | _, st => st == .running

/-- The command is accepted inside a rendering call (R256). -/
def Command.allowedInGen : Command → Bool
  | .dividerAttach _ _ _ | .dividerDetach _ | .dividerSetDivisor _ _ | .getAttr _ _ | .setAttr _ _ _ | .trackStatus _ => true
  | .init _ _ _ | .reset | .dispose | .trackBind _ _ _ _ | .trackAttach _ _ _ | .trackDetach _ | .trackReset _ | .clockAttach _
  | .clockDetach _ | .unitAttach _ | .unitDetach _ | .generate _ | .generateToTime _ _ => false

/-! ## Context and units -/

/-- The Context right after `Init` (10_state.md R49). -/
def initialContext (nchan rate : Nat) (period : FixedTime) : Context :=
  { state := .running, nchan := nchan, rate := rate, master := { period := period, groups := builtinGroups } }

/-- `Init(nchan, rate, masterPeriod)` (R257). -/
def cmdInit (nchan rate : Int) (period : FixedTime) (s : State) : State :=
  if 1 ≤ nchan ∧ nchan ≤ s.cfg.maxChannels ∧ s.cfg.minRate ≤ rate ∧ rate ≤ s.cfg.maxRate ∧ ftIsPositive period then
    match s.allocate true with
    | (true, s) => (s.updCtx fun _ => initialContext nchan.toNat rate.toNat period).reply .done
    | (false, s) => s.refuse .allocation
  else s.refuse .invalidValue

/-- `Reset()` (R258). -/
def cmdReset (s : State) : State := s.contextReset.reply .done

/-- `Dispose()` (R259): every track, unit, divider and auxiliary clock is detached; the interpreter instances survive. -/
def cmdDispose (s : State) : State :=
  (s.updCtx fun c =>
    { (c.tracks.foldl (fun c p => c.detachTrack p.track) c).mapGroups (fun g => { g with list := [] }) with
        units := []
        clocks := []
        state := .disposed }).reply .done

/-- `UnitAttach(u)` (R265). -/
def cmdUnitAttach (u : UnitId) (s : State) : State :=
  if u ∈ s.ctx.units then s.refuse .invalidValue
  else (s.updCtx fun c => { c with units := c.units ++ [u] }).reply .done

/-- `UnitDetach(u)` (R265). -/
def cmdUnitDetach (u : UnitId) (s : State) : State :=
  if u ∈ s.ctx.units then (s.updCtx fun c => { c with units := c.units.filter fun v => v != u }).reply .done
  else s.refuse .invalidValue

/-! ## Tracks (R260, R261) -/

/-- The track is bound. -/
def State.bound (s : State) (t : Track) : Bool := (lookupInterp s.interps t).isSome

/-- The bindings a `TrackBind` makes: the program as a byte image with its length, and the two tables (R29, R72). -/
def bindingsOf (program itab wtab : List Word) : Bindings :=
  { pm := Memory.writeWords [] 0 program, proglen := BitVec.ofNat 32 program.length, itab := itab, wtab := wtab }

/-- `TrackBind(t, PM, PROGLEN, ITAB, ITAB_LEN, WTAB, WTAB_LEN)` (R260). Log 19 on the length. -/
def cmdTrackBind (t : Track) (program itab wtab : List Word) (s : State) : State :=
  if (s.ctx.port? t).isNone ∧ program.length < 2 ^ 32 then
    (s.setInterp t (Interp.fresh s.cfg (bindingsOf program itab wtab))).reply .done
  else s.refuse .invalidValue

/-- `TrackAttach(t, g, divisor)` (R260): it does not reset the interpreter. -/
def cmdTrackAttach (t : Track) (g : GroupNo) (divisor : Word) (s : State) : State :=
  match s.ctx.group? g with
  | none => s.refuse .invalidValue
  | some grp =>
    if s.bound t ∧ (s.ctx.port? t).isNone ∧ divisor ≠ 0 then
      match s.allocate (belowCap s.cfg.capTracks s.ctx.tracks.length && belowCap s.cfg.capDividers grp.list.length) with
      | (true, s) =>
        let id := s.ctx.nextDivider
        (s.updCtx fun c =>
          { c.updGroup g (Group.append { id := id, divisor := divisor, target := .track t }) with
              tracks := c.tracks ++ [{ track := t, divider := id }]
              nextDivider := id + 1 }).reply (.divider id)
      | (false, s) => s.refuse .allocation
    else s.refuse .invalidValue

/-- `TrackDetach(t)` (R260): the interpreter keeps its state. -/
def cmdTrackDetach (t : Track) (s : State) : State :=
  if (s.ctx.port? t).isSome then (s.updCtx fun c => c.detachTrack t).reply .done else s.refuse .invalidValue

/-- `TrackReset(t)` (R260). -/
def cmdTrackReset (t : Track) (s : State) : State :=
  if s.bound t then ((s.interpReset t).updCtx fun c => c.updPort t Port.cleared).reply .done
  else s.refuse .invalidValue

/-- `TrackStatus(t)` (R261). Log 20 on a track without a port. -/
def cmdTrackStatus (t : Track) (s : State) : State :=
  if s.bound t then
    s.reply (.status (s.interp t).status.done (s.interp t).status.fault ((s.ctx.port? t).map (·.err)) (s.interp t).pc)
  else s.refuse .invalidValue

/-! ## Clocks (R265) -/

/-- `ClockAttach(period)` (R265): the first boundary of the new clock is at the current `now`. DESIGN CHOICE: `CAP_CLOCKS` bounds the auxiliary clocks, the list
`clocks` that the command appends to; the master does not count. Log 33. -/
def cmdClockAttach (period : FixedTime) (s : State) : State :=
  if ftIsPositive period then
    match s.allocate (belowCap s.cfg.capClocks s.ctx.clocks.length) with
    | (true, s) =>
      let g := s.ctx.nextGroup
      (s.updCtx fun c =>
        { c with
            clocks := c.clocks ++ [{ period := period, next := ftFromSamples c.now, groups := [{ num := g }] }]
            nextGroup := g + 1 }).reply (.group g)
    | (false, s) => s.refuse .allocation
  else s.refuse .invalidValue

/-- The tracks that the dividers of a clock's groups drive. -/
def Clock.drivenTracks (c : Clock) : List Track :=
  (c.groups.flatMap (·.list)).filterMap fun d =>
    match d.target with
    | .track t => some t
    | .ext _ => none

/-- `ClockDetach(i)` (R265): clock numbers as in R268, 0 is the master, which cannot be detached. The tracks of its group are detached, its
dividers go with it. Log 26. -/
def cmdClockDetach (i : Nat) (s : State) : State :=
  match i with
  | 0 => s.refuse .invalidValue
  | j + 1 =>
    match s.ctx.clocks[j]? with
    | none => s.refuse .invalidValue
    | some k =>
      (s.updCtx fun c =>
        let c' := k.drivenTracks.foldl Context.detachTrack c
        { c' with clocks := c'.clocks.eraseIdx j }).reply .done

/-! ## Dividers, at once or deferred (R262 to R264, R238) -/

/-- `DividerAttach(g, divisor, EXT(tag))` (R262): queued where a pass over the group is running (R238), with the identifier it will have. Log 18. -/
def cmdDividerAttach (g : GroupNo) (divisor tag : Word) (s : State) : State :=
  match s.ctx.group? g with
  | none => s.refuse .invalidValue
  | some grp =>
    let id := s.ctx.nextDivider
    if grp.inPass then
      (s.updCtx fun c =>
        { c.updGroup g (Group.post (.attach id divisor tag)) with nextDivider := id + 1 }).reply (.divider id)
    else if divisor = 0 then s.refuse .invalidValue
    else
      match s.allocate (belowCap s.cfg.capDividers grp.list.length) with
      | (true, s) =>
        (s.updCtx fun c =>
          { c.updGroup g (Group.append { id := id, divisor := divisor, target := .ext tag }) with
              nextDivider := id + 1 }).reply (.divider id)
      | (false, s) => s.refuse .allocation

/-- The divider drives an external target (R263). -/
def Divider.external (d : Divider) : Bool :=
  match d.target with
  | .ext _ => true
  | .track _ => false

/-- `DividerDetach(id)` (R263), queued where a pass over the divider's group is running. Log 18. -/
def cmdDividerDetach (id : DividerId) (s : State) : State :=
  match s.ctx.divider? id with
  | none => s.refuse .invalidValue
  | some (grp, d) =>
    if grp.inPass then (s.updCtx fun c => c.updGroup grp.num (Group.post (.detach id))).reply .done
    else if d.external then (s.updCtx fun c => c.updGroup grp.num (Group.remove id)).reply .done
    else s.refuse .invalidValue

/-- `DividerSetDivisor(id, divisor)` (R264), queued where a pass over the divider's group is running. Log 18. -/
def cmdDividerSetDivisor (id : DividerId) (divisor : Word) (s : State) : State :=
  match s.ctx.divider? id with
  | none => s.refuse .invalidValue
  | some (grp, _) =>
    if grp.inPass then (s.updCtx fun c => c.updGroup grp.num (Group.post (.setDivisor id divisor))).reply .done
    else if divisor = 0 then s.refuse .invalidValue
    else (s.updCtx fun c => c.updGroup grp.num (Group.setDivisor id divisor)).reply .done

/-- One queued command of a group applied when its pass has ended (R233): as the host command of the same name, but one that would be refused is
dropped without an answer. -/
def State.applyDeferred (g : GroupNo) (s : State) : Deferred → State
  | .attach id divisor tag =>
    match s.ctx.group? g with
    | none => s
    | some grp =>
      if divisor = 0 then s
      else
        match s.allocate (belowCap s.cfg.capDividers grp.list.length) with
        | (true, s) => s.updCtx fun c => c.updGroup g (Group.append { id := id, divisor := divisor, target := .ext tag })
        | (false, s) => s
  | .detach id =>
    match s.ctx.divider? id with
    | none => s
    | some (grp, d) => if d.external then s.updCtx fun c => c.updGroup grp.num (Group.remove id) else s
  | .setDivisor id divisor =>
    match s.ctx.divider? id with
    | none => s
    | some (grp, _) =>
      if divisor = 0 then s else s.updCtx fun c => c.updGroup grp.num (Group.setDivisor id divisor)

/-- `DrainQueue(g)` (R233). -/
def State.drainQueue (g : GroupNo) (s : State) : State :=
  match s.ctx.group? g with
  | none => s
  | some grp => (grp.queue.foldl (State.applyDeferred g) s).updCtx fun c => c.updGroup g fun x => { x with queue := [] }

/-! ## Rendering calls (R266, R267) -/

/-- `INGEN` written (R45). -/
def State.setIngen (s : State) (b : Bool) : State :=
  s.updCtx fun c => { c with flags := { c.flags with ingen := b } }

/-- An activation started. -/
def State.push (s : State) (f : Frame) : State := { s with ctl := f :: s.ctl }

/-- `Generate(n)` (R266): GenerateCore is started; the answer comes when it returns. -/
def cmdGenerate (n : Int) (s : State) : State :=
  if 0 ≤ n then ((s.setIngen true).push (.generate n.toNat)).push (.core n.toNat 0 .head)
  else s.refuse .invalidValue

/-- `GenerateToTime(end, cap)` (R267). -/
def cmdGenerateToTime (endTime : FixedTime) (cap : Int) (s : State) : State :=
  if 1 ≤ cap then (s.setIngen true).push (.toTime (ftFloor endTime) cap.toNat 0)
  else s.refuse .invalidValue

/-! ## Attributes (R268) -/

/-- The answer to a lookup whose index may name nothing: its value, else InvalidValue. -/
def State.attrOr (s : State) (v : Option AttrValue) : State :=
  match v with
  | some v => s.reply (.attr v)
  | none => s.refuse .invalidValue

/-- `GetAttr(id, index)` (R268). -/
def cmdGetAttr (id index : Nat) (s : State) : State :=
  match id with
  | 1 => s.reply (.attr (.time (ftFromSamples s.ctx.now)))
  | 2 => s.attrOr (s.ctx.clockList[index]?.map fun k => .time k.period)
  | 3 => s.attrOr ((s.ctx.divider? index).map fun p => .num p.2.divisor.toNat)
  | 4 => s.reply (.attr (.num s.ctx.nchan))
  | 5 => s.reply (.attr (.num s.ctx.rate))
  | 6 => s.attrOr (s.ctx.clockList[index]?.map fun k => .num k.tickCount.toNat)
  | _ => s.refuse .invalidAttribute

/-- `SetAttr(id, index, value)` (R268, R226): the id is checked first (R278). Log 23 on a value of the wrong kind. -/
def cmdSetAttr (id index : Nat) (value : AttrValue) (s : State) : State :=
  match id with
  | 2 =>
    match value with
    | .time p =>
      if index < s.ctx.clockList.length ∧ ftIsPositive p then
        (s.updCtx fun c => c.updClock index fun k => { k with period := p }).reply .done
      else s.refuse .invalidValue
    | .num _ => s.refuse .invalidValue
  | 3 =>
    match value with
    | .num v => if v < 2 ^ 32 then cmdDividerSetDivisor index (BitVec.ofNat 32 v) s else s.refuse .invalidValue
    | .time _ => s.refuse .invalidValue
  | _ => s.refuse .invalidAttribute

/-! ## One command -/

/-- One command, issued by the host or posted by the environment: the state check, then the check of INGEN (R256, R278), then the command. -/
def runCommand (c : Command) (s : State) : State :=
  if !c.allowedIn s.ctx.state || (s.ctx.flags.ingen && !c.allowedInGen) then s.refuse .invalidValue
  else
    match c with
    | .init nchan rate period => cmdInit nchan rate period s
    | .reset => cmdReset s
    | .dispose => cmdDispose s
    | .trackBind t program itab wtab => cmdTrackBind t program itab wtab s
    | .trackAttach t g divisor => cmdTrackAttach t g divisor s
    | .trackDetach t => cmdTrackDetach t s
    | .trackReset t => cmdTrackReset t s
    | .trackStatus t => cmdTrackStatus t s
    | .clockAttach period => cmdClockAttach period s
    | .clockDetach i => cmdClockDetach i s
    | .dividerAttach g divisor tag => cmdDividerAttach g divisor tag s
    | .dividerDetach id => cmdDividerDetach id s
    | .dividerSetDivisor id divisor => cmdDividerSetDivisor id divisor s
    | .unitAttach u => cmdUnitAttach u s
    | .unitDetach u => cmdUnitDetach u s
    | .generate n => cmdGenerate n s
    | .generateToTime endTime cap => cmdGenerateToTime endTime cap s
    | .getAttr id index => cmdGetAttr id index s
    | .setAttr id index value => cmdSetAttr id index value s

/-- The block between commands: the host's next command is run; where none has arrived nothing happens (R290). Log 8. -/
def State.idle (s : State) : State :=
  match s.env.host with
  | [] => s
  | c :: cs => runCommand c { s with env := { s.env with host := cs } }

/-- Commands posted by the environment, one at a time (R238). -/
def State.processPosts (cmds : List Command) (rest : List Frame) (s : State) : State :=
  match cmds with
  | [] => { s with ctl := rest }
  | c :: cs => runCommand c { s with ctl := .post cs :: rest }

end Sys2Proof.Machine
end

