-- ==== Sys2Proof/Machine/Sequencer.lean ====
section
/-! DEFINITION. The sequencer: boundaries, group passes, firings, the track port, GenerateCore and the two rendering commands
(47_clock_divider.md R224, R225, R230 to R239, R250 to R252, R266, R267). Each definition takes the activations below the running one as `rest`. -/

namespace Sys2Proof.Machine

/-- The commands the environment posts at this point, none where its tape is exhausted (R238, U7), become an activation of their own. Log 9. -/
def State.openToPosts (s : State) : State :=
  match s.env.posts with
  | [] => s
  | cmds :: more => { s with env := { s.env with posts := more }, ctl := .post cmds :: s.ctl }

/-! ## Firing (R235, R237) -/

/-- `TrackTick(P)` up to the invocation (R237): a finished track does nothing; the wait counts down; at 0 the interpreter is invoked. -/
def State.trackTick (t : Track) (s : State) : State :=
  match s.ctx.port? t with
  | none => s
  | some p =>
    if (s.interp t).status.done then s
    else
      let w := if p.waitc = 0 then 0 else p.waitc - 1
      let counted := s.updCtx fun c => c.updPort t fun p => { p with waitc := w }
      if w = 0 then counted.push (.invoke t .enter) else counted

/-- `Fire(d, k)` (R235): the environment may post commands before the pass moves on, after the firing's own work. -/
def State.fire (d : Divider) (k : BitVec 64) (s : State) : State :=
  match d.target with
  | .track t => s.openToPosts.trackTick t
  | .ext tag => (s.emit (.extFire tag k)).openToPosts

/-! ## A pass over a group (R232, R233) -/

/-- The pass begins: the snapshot of the group's list (R232). Log 31. -/
def State.beginPass (g : GroupNo) (k : BitVec 64) (s : State) : State :=
  let ids := ((s.ctx.group? g).map fun x => x.list.map (·.id)).getD []
  (s.updCtx fun c => c.updGroup g fun x => { x with inPass := true }).push (.pass g ids k)

/-- The divider of an identifier in the list of a group. -/
def Context.member? (c : Context) (g : GroupNo) (id : DividerId) : Option Divider :=
  (c.group? g).bind fun x => x.divider? id

/-- One divider of the snapshot is visited (R232): it fires if it is due, with the divisor it has now, and CLKRST is 0 (R231). -/
def State.visit (g : GroupNo) (id : DividerId) (k : BitVec 64) (s : State) : State :=
  match s.ctx.member? g id with
  | none => s
  | some d => if !s.ctx.flags.clkrst && d.due k then s.fire d k else s

/-- The pass ends: `g.inPass <- 0`, then the queue is drained (R232). -/
def State.endPass (g : GroupNo) (s : State) : State :=
  (s.updCtx fun c => c.updGroup g fun x => { x with inPass := false }).drainQueue g

/-- A pass: the next divider of the snapshot, or its end. -/
def State.passStep (g : GroupNo) (ids : List DividerId) (k : BitVec 64) (rest : List Frame) (s : State) : State :=
  match ids with
  | [] => { s with ctl := rest }.endPass g
  | id :: more => { s with ctl := .pass g more k :: rest }.visit g id k

/-- A boundary: the pass over the next group, or the end of the boundary (R224, R234). -/
def State.groupsStep (gs : List GroupNo) (k : BitVec 64) (rest : List Frame) (s : State) : State :=
  match gs with
  | [] => { s with ctl := rest }
  | g :: more => { s with ctl := .groups more k :: rest }.beginPass g k

/-! ## Boundaries and GenerateCore (R224, R225, R250) -/

/-- `BoundaryStep(c)` for the clock at a place of the clock list, up to its passes (R224): the tick count and the next boundary are written before any
divider fires; where one of them would leave its 64 bits there is no transition (R208, R321). -/
def State.boundary (i : Nat) (s : State) : Host.Outcome State Fault Refusal :=
  match s.ctx.clockList[i]? with
  | none => .next s
  | some c =>
    if c.tickCount.toNat + 1 < 2 ^ 64 then
      match ftAdd c.next c.period with
      | some n =>
        .next ((s.updCtx fun x => x.updClock i fun c => { c with tickCount := c.tickCount + 1, next := n }).push
          (.groups (c.groups.map (·.num)) c.tickCount))
      | none => .fault .timeOverflow
    else .fault .timeOverflow

/-- The step of an iteration: `min(remaining, TimeToNext())` (R252). -/
def Context.stepLength (c : Context) (n produced : Nat) : Nat := min (n - produced) c.timeToNext

/-- The head of an iteration (R250): the step is computed, and `Render(step)` is requested unless it is 0 (R251). -/
def State.coreHead (n produced : Nat) (rest : List Frame) (s : State) : State :=
  let step := s.ctx.stepLength n produced
  let s := { s with ctl := .core n produced (.advance step) :: rest }
  if step = 0 then s else (s.emit (.render s.ctx.now step)).openToPosts

/-- `now` advances by the step (R250); where it would leave its 64 bits there is no transition (R321). -/
def State.coreAdvance (n produced step : Nat) (rest : List Frame) (s : State) : Host.Outcome State Fault Refusal :=
  match int64 (s.ctx.now.toInt + step) with
  | none => .fault .timeOverflow
  | some now' =>
    .next { s with ctx := { s.ctx with now := now' }, ctl := .core n (produced + step) .due :: rest }

/-- The boundaries that are due, one at a time and picked anew (R225, R250); then the next iteration, or the return. -/
def State.coreDue (n produced : Nat) (rest : List Frame) (s : State) : Host.Outcome State Fault Refusal :=
  match s.ctx.pickDue with
  | some i => s.boundary i
  | none => .next (if produced = n then { s with ctl := rest } else { s with ctl := .core n produced .head :: rest })

/-- One stage of GenerateCore (R250). -/
def State.coreStep (n produced : Nat) (stage : Stage) (rest : List Frame) (s : State) : Host.Outcome State Fault Refusal :=
  match stage with
  | .head => .next (s.coreHead n produced rest)
  | .advance step => s.coreAdvance n produced step rest
  | .due => s.coreDue n produced rest

/-! ## The rendering commands (R266, R267) -/

/-- A rendering call ends with its answer. -/
def State.endCall (r : Reply) (rest : List Frame) (s : State) : State :=
  ({ s with ctl := rest }.setIngen false).reply r

/-- The loop head of GenerateToTime (R267): another chunk of at most `cap` frames, or the return of the total. -/
def State.toTimeStep (endInt : Int) (cap total : Nat) (rest : List Frame) (s : State) : State :=
  if s.ctx.now.toInt < endInt then
    let m := min cap (endInt - s.ctx.now.toInt).toNat
    { s with ctl := .core m 0 .head :: .callback endInt cap total m :: rest }
  else s.endCall (.frames total) rest

/-- The answer of the write callback: the tape's next, or the free value (R267, U8). Log 10. -/
def State.takeAck (s : State) : Bool × State :=
  match s.env.acks with
  | b :: bs => (b, { s with env := { s.env with acks := bs } })
  | [] => (Config.writeAck s.env.ackCount, { s with env := { s.env with ackCount := s.env.ackCount + 1 } })

/-- The write callback is asked to take a chunk of m frames (R267); where it does not acknowledge, the command ends with InvalidReturnValue (R280). -/
def State.callbackStep (endInt : Int) (cap total m : Nat) (rest : List Frame) (s : State) : State :=
  let (ack, s) := (s.emit (.writeCallback m)).takeAck
  let next := if ack then Frame.toTime endInt cap (total + m) else .unacknowledged
  { s with ctl := next :: rest }.openToPosts

end Sys2Proof.Machine
end

