-- ==== Sys2Proof/Machine/Step.lean ====
section
/-! DEFINITION. One step of the machine: one action of the innermost activation of its thread of control (00_scope.md R11). Log 1. -/

namespace Sys2Proof.Machine

/-- One step. -/
def step (s : State) : Host.Outcome State Fault Refusal :=
  match s.ctl with
  | [] => .next s.idle
  | .invoke t phase :: rest => s.invokeStep t phase rest
  | .post cmds :: rest => .next (s.processPosts cmds rest)
  | .pass g ids k :: rest => .next (s.passStep g ids k rest)
  | .groups gs k :: rest => .next (s.groupsStep gs k rest)
  | .core n produced stage :: rest => s.coreStep n produced stage rest
  | .generate n :: rest => .next (s.endCall (.frames n) rest)
  | .toTime endInt cap total :: rest => .next (s.toTimeStep endInt cap total rest)
  | .callback endInt cap total m :: rest => .next (s.callbackStep endInt cap total m rest)
  | .unacknowledged :: rest => .next (s.endCall (.error .invalidReturnValue) rest)

/-- The machine with the instruction of an opcode-table number stored where the next step fetches. Log 2. -/
def State.withFetchWord (s : State) (nbits w : Nat) : State := s.placeWords (tableWords nbits w)

end Sys2Proof.Machine
end

