-- ==== Sys2Proof/Machine/Assembler.lean ====
section
/-! DEFINITION. The textual form of a program (30_encoding.md R99, R100), one instruction a line, and the words it assembles to. -/

namespace Sys2Proof.Machine

/-! ## Lines and tokens -/

/-- The parts of a text between the occurrences of a character. -/
def splitAt (c : Char) : List Char → List (List Char)
  | [] => [[]]
  | x :: xs =>
    if x = c then [] :: splitAt c xs
    else
      match splitAt c xs with
      | [] => [[x]]
      | l :: ls => (x :: l) :: ls

/-- A text without the spaces around it. -/
def trimText (t : List Char) : List Char :=
  ((t.dropWhile (·.isWhitespace)).reverse.dropWhile (·.isWhitespace)).reverse

/-- The comma-separated operands of a line; none where nothing is written. -/
def operandsOf (t : List Char) : List (List Char) :=
  if trimText t = [] then [] else (splitAt ',' t).map trimText

/-- A digit's value, up to fifteen. -/
def digitValue (c : Char) : Option Nat :=
  if '0' ≤ c ∧ c ≤ '9' then some (c.toNat - '0'.toNat)
  else if 'a' ≤ c ∧ c ≤ 'f' then some (c.toNat - 'a'.toNat + 10)
  else if 'A' ≤ c ∧ c ≤ 'F' then some (c.toNat - 'A'.toNat + 10)
  else none

/-- The value of a row of digits after those read so far. -/
def digitsFrom (base acc : Nat) : List Char → Option Nat
  | [] => some acc
  | c :: cs =>
    match digitValue c with
    | some d => if d < base then digitsFrom base (base * acc + d) cs else none
    | none => none

/-- The value of a row of at least one digit. -/
def digits (base : Nat) (t : List Char) : Option Nat := if t = [] then none else digitsFrom base 0 t

/-- A number: decimal, optionally signed, or `0x` hexadecimal (R99). -/
def numberOf : List Char → Option Int
  | '0' :: 'x' :: t => (digits 16 t).map fun n => (n : Int)
  | '-' :: t => (digits 10 t).map fun n => -(n : Int)
  | '+' :: t => (digits 10 t).map fun n => (n : Int)
  | t => (digits 10 t).map fun n => (n : Int)

/-- A number operand: `wrap32` of its value (R99). -/
def wordOf (t : List Char) : Option Word := (numberOf t).map wrap32

/-- A label's name: a letter or an underscore, then letters, digits and underscores. Log 32. -/
def isName : List Char → Bool
  | [] => false
  | c :: cs => (c.isAlpha || c == '_') && cs.all fun d => d.isAlphanum || d == '_'

/-! ## Statements -/

/-- An address operand: a number, or a label (R99). -/
inductive Address where
  | number (w : Word)
  | label (name : List Char)
deriving DecidableEq, Repr

/-- One line of a program. -/
inductive Statement where
  /-- `name:`, the address of the next instruction. -/
  | define (name : List Char)
  /-- An instruction without an address operand. -/
  | plain (i : Instr)
  /-- `CALL`. -/
  | call (a : Address)
  /-- `JUMP`. -/
  | jump (a : Address)
deriving DecidableEq, Repr

/-- An address operand read. -/
def addressOf (t : List Char) : Option Address :=
  match wordOf t with
  | some w => some (.number w)
  | none => if isName t then some (.label t) else none

/-- The offsets of an ARPEGGIO between its brackets, given from the opening bracket on (R99). -/
def bracketed (t : List Char) : Option (List Word) :=
  match trimText t with
  | '[' :: t =>
    match t.reverse with
    | ']' :: t => (operandsOf t.reverse).mapM wordOf
    | _ => none
  | _ => none

/-- The operands of an ARPEGGIO: speed, then the bracketed offsets after the first comma (R99). -/
def arpeggioOf (t : List Char) : Option Instr :=
  match splitAt ',' t with
  | speed :: rest =>
    match wordOf (trimText speed), bracketed (List.intercalate [','] rest) with
    | some w, some offsets => some (.arpeggio w offsets)
    | _, _ => none
  | [] => none

/-- The operand of a WAVEFORM: `n` with the custom bit 0, `custom n` with it set (R99). -/
def waveformOf (cfg : Params) (t : List Char) : Option Instr :=
  if t.take 7 = "custom ".toList then
    (wordOf (trimText (t.drop 7))).map fun w => .waveform (w ||| (1 : Word) <<< cfg.waveCustomBit.val)
  else (wordOf (trimText t)).map fun w => .waveform (waveIndex cfg w)

/-- An instruction with one number operand. -/
def withWord (mk : Word → Instr) (t : List Char) : Option Statement :=
  match operandsOf t with
  | [op] => (wordOf op).map fun w => .plain (mk w)
  | _ => none

/-- An instruction without operands. -/
def withNone (i : Instr) (t : List Char) : Option Statement :=
  if operandsOf t = [] then some (.plain i) else none

/-- An instruction line: the mnemonic of R101, and the text of its operands. -/
def instructionOf (cfg : Params) (mnemonic : String) (t : List Char) : Option Statement :=
  match mnemonic with
  | "ATTACK" => withWord .attack t
  | "RELEASE" => withNone .release t
  | "MUTE" => withNone .mute t
  | "ARPEGGIO" => (arpeggioOf t).map .plain
  | "VOLUME" => withWord .volume t
  | "PANNING" => withWord .panning t
  | "PITCH" => withWord .pitch t
  | "DUTYCYCLE" => withWord .dutycycle t
  | "PHASEWRAP" => withWord .phasewrap t
  | "MASTERVOLUME" => withWord .mastervolume t
  | "INSTRUMENT" => withWord .instrument t
  | "WAVEFORM" => (waveformOf cfg t).map .plain
  | "ATTACKTICKS" => withWord .attackticks t
  | "RELEASETICKS" => withWord .releaseticks t
  | "MUTETICKS" => withWord .muteticks t
  | "STEP" => withWord .step t
  | "STEPTICKS" => withNone .stepticks t
  | "CALL" => (addressOf t).map .call
  | "RETURN" => withNone .ret t
  | "JUMP" => (addressOf t).map .jump
  | "GROUP" => withWord .group t
  | "END" => withNone .endTrack t
  | _ => none

/-- The instruction of a line, or nothing where it is blank. -/
def instructionLine (cfg : Params) (t : List Char) : Option (List Statement) :=
  if t = [] then some []
  else
    (instructionOf cfg (String.ofList (t.takeWhile fun c => !c.isWhitespace))
      (trimText (t.dropWhile fun c => !c.isWhitespace))).map fun x => [x]

/-- The statements of a line without its comment: a label, an instruction, both as the listings of 95_test_vectors.md write them, or none; no answer for a
line that is none of R99's forms. -/
def lineOf (cfg : Params) (line : List Char) : Option (List Statement) :=
  match splitAt ':' (line.takeWhile (· != ';')) with
  | [t] => instructionLine cfg (trimText t)
  | [name, t] =>
    if isName (trimText name) then
      (instructionLine cfg (trimText t)).map fun rest => .define (trimText name) :: rest
    else none
  | _ => none

/-! ## Two passes -/

/-- The words a statement takes. -/
def Statement.size : Statement → Nat
  | .define _ => 0
  | .plain i => 1 + i.operandCount
  | .call _ => 2
  | .jump _ => 2

/-- The labels of a program with their word addresses, from an address on (R99). -/
def labelsFrom (a : Nat) : List Statement → List (List Char × Nat)
  | [] => []
  | .define name :: rest => (name, a) :: labelsFrom a rest
  | .plain i :: rest => labelsFrom (a + (1 + i.operandCount)) rest
  | .call _ :: rest => labelsFrom (a + 2) rest
  | .jump _ :: rest => labelsFrom (a + 2) rest

/-- An address operand resolved. -/
def Address.resolve (labels : List (List Char × Nat)) : Address → Option Word
  | .number w => some w
  | .label name => (labels.lookup name).map fun a => BitVec.ofNat 32 a

/-- The words of a statement: those of its instruction (R90). -/
def Statement.words (labels : List (List Char × Nat)) : Statement → Option (List Word)
  | .define _ => some []
  | .plain i => some (encode i)
  | .call a => (a.resolve labels).map fun w => encode (.call w)
  | .jump a => (a.resolve labels).map fun w => encode (.jump w)

/-- The words of a program's statements, one after the other with no padding (R90). -/
def wordsOf (labels : List (List Char × Nat)) : List Statement → Option (List Word)
  | [] => some []
  | x :: xs =>
    match x.words labels, wordsOf labels xs with
    | some ws, some rest => some (ws ++ rest)
    | _, _ => none

/-- The statements of a program's lines. -/
def statementsOf (cfg : Params) : List (List Char) → Option (List Statement)
  | [] => some []
  | l :: ls =>
    match lineOf cfg l, statementsOf cfg ls with
    | some xs, some rest => some (xs ++ rest)
    | _, _ => none

/-- The words of a program's text (R99); no answer for a text that is not of R99's form, defines a label twice or uses one it does not define. Log 32. -/
def assemble (cfg : Params) (source : List Char) : Option (List Word) :=
  match statementsOf cfg (splitAt '\n' source) with
  | none => none
  | some program =>
    let labels := labelsFrom Config.entry.toNat program
    if (labels.map (·.1)).Nodup then wordsOf labels program else none

end Sys2Proof.Machine
end

