-- ==== Sys2Proof/Safety.lean ====
section
/-! DEFINITION. What a sound machine is (10_state.md R31, R40 to R47) and how an instruction completes, in the terms the statements use. -/

namespace Sys2Proof.Machine

/-! ## How an instruction or a step completes -/

/-- Of everything but the thread of control and the trace, only the running interpreter differs: the parameters, the Context, the inputs, every other track's
interpreter and every byte of every track's program memory are as before. -/
structure OnlyRunning (s t : State) : Prop where
  cfg : t.cfg = s.cfg
  ctx : t.ctx = s.ctx
  env : t.env = s.env
  others : ∀ u, u ≠ s.cur → t.interp u = s.interp u
  bytes : ∀ u a, (t.interp u).bind.pm.readByte a = (s.interp u).bind.pm.readByte a

/-- From `s` to `t` the running interpreter becomes `i`, the events `evs` are presented after the earlier ones, the thread of control becomes `ctl`, and nothing
else differs. -/
structure Leaves (s t : State) (i : Interp) (evs : List Event) (ctl : List Frame) : Prop where
  running : t.interp s.cur = i
  out : t.out = s.out ++ evs
  ctl : t.ctl = ctl
  rest : OnlyRunning s t

/-- The instruction answers a next state with the running interpreter `i` and the events `evs`, and its invocation goes on. -/
def Completes (instr : Instr) (s : State) (i : Interp) (evs : List Event) : Prop :=
  ∃ t, exec instr s = .next t ∧ Leaves s t i evs s.ctl

/-- One step of the machine answers a next state with the running interpreter `i`, the events `evs` and the thread of control `ctl`. -/
def StepsTo (s : State) (i : Interp) (evs : List Event) (ctl : List Frame) : Prop :=
  ∃ t, step s = .next t ∧ Leaves s t i evs ctl

/-- The machine stands at the head of Run's loop of a track's invocation, the program neither ended nor held (40_interpreter_cycle.md R115). -/
structure AtFetch (s : State) (t : Track) (rest : List Frame) : Prop where
  ctl : s.ctl = .invoke t .run :: rest
  done : (s.interp t).status.done = false
  free : (s.interp t).tflags.hasStep = false

/-- The instructions of a list executed one after the other. -/
def execAll : List Instr → State → Host.Outcome State Fault Refusal
  | [], s => .next s
  | i :: is, s =>
    match exec i s with
    | .next t => execAll is t
    | .fault f => .fault f
    | .refused r => .refused r

/-- A number of steps. -/
def stepN : Nat → State → Host.Outcome State Fault Refusal
  | 0, s => .next s
  | n + 1, s =>
    match step s with
    | .next t => stepN n t
    | .fault f => .fault f
    | .refused r => .refused r

/-- The time of a clock's `k`-th boundary by repeated addition of its period from zero (46_fixed_time.md R209). -/
def nthBoundary (p : FixedTime) : Nat → Option FixedTime
  | 0 => some ⟨0, 0⟩
  | k + 1 => (nthBoundary p k).bind fun t => ftAdd t p

/-- The 22 opcode words (30_encoding.md R101). -/
def opcodes : List Word :=
  [0x01, 0x02, 0x03, 0x04, 0x05, 0x06, 0x07, 0x08, 0x09, 0x0A, 0x0B, 0x0C, 0x10, 0x11, 0x12, 0x20, 0x21, 0x30, 0x31, 0x32, 0x33, 0x3F]

/-! ## Host commands -/

/-- The command is refused: it answers the error code and changes nothing (60_exceptions.md R278). -/
def Refuses (c : Command) (s : State) (e : ErrCode) : Prop :=
  runCommand c s = { s with out := s.out ++ [.reply (.error e)] }

/-- The command answers `r` and leaves the Context `x`; nothing else changes. -/
def Answers (c : Command) (s : State) (x : Context) (r : Reply) : Prop :=
  runCommand c s = { s with ctx := x, out := s.out ++ [.reply r] }

/-- A list of `n` elements has reached its capacity (60_exceptions.md R279). -/
def CapReached (cap : Option Nat) (n : Nat) : Prop := ∃ c, cap = some c ∧ c ≤ n

/-- How a command that allocates comes out (60_exceptions.md R279): without room, or where the environment's next Boolean says so, it is refused with
AllocationError; else it answers `r` and leaves the Context `x`. Nothing else changes, but that the Boolean has been read (log 7). -/
structure Allocates (c : Command) (s : State) (noRoom : Prop) (x : Context) (r : Reply) : Prop where
  full : noRoom → Refuses c s .allocation
  denied : ¬noRoom → s.env.allocs.head? = some false →
    runCommand c s =
      { s with env := { s.env with allocs := s.env.allocs.tail }, out := s.out ++ [.reply (.error .allocation)] }
  granted : ¬noRoom → s.env.allocs.head? ≠ some false →
    runCommand c s = { s with ctx := x, env := { s.env with allocs := s.env.allocs.tail }, out := s.out ++ [.reply r] }

/-- The Context with `f` applied to the group numbered `g`; every other group and everything else of every clock as it was. -/
def Context.withGroup (c : Context) (g : GroupNo) (f : Group → Group) : Context :=
  let on := fun k : Clock => { k with groups := k.groups.map fun x => if x.num = g then f x else x }
  { c with master := on c.master, clocks := c.clocks.map on }

/-! ## Sound interpreters (10_state.md R31) -/

/-- R31 (a), (b), (c), (f), with R22 and R28's array sizes, R27's "FAULT implies DONE" and the canonical form of the program image. -/
structure Interp.Sound (cfg : Params) (i : Interp) : Prop where
  sp : i.sp ≤ cfg.stackDepth
  stack : i.stack.length = cfg.stackDepth
  arp : i.arp.length = cfg.arpMax
  arplen : i.arplen ≤ cfg.arpMax
  arpidx : i.arplen = 0 ∨ i.arpidx < i.arplen
  intr : i.tflags.intrAttack = false ∧ i.tflags.intrRelease = false ∧ i.tflags.intrMute = false
  fault : i.status.fault ≠ none → i.status.done = true
  arpeggio : i.tflags.hasArpeggio = true → 1 ≤ i.arplen ∧ i.arpspeed ≠ 0
  image : i.bind.pm.wf

/-- Every bound instance is sound, and there is one per handle. -/
def State.InterpsSound (s : State) : Prop :=
  s.interps.Pairwise (fun a b => a.1 < b.1) ∧ ∀ p ∈ s.interps, p.2.Sound s.cfg

/-- A yield holds the program and the wait returned is the minimum of the armed counters (R31 d). -/
def Interp.Waiting (i : Interp) : Prop :=
  i.tflags.hasStep = true ∧ i.stepc ≠ 0 ∧ i.lastw ≠ 0 ∧ i.nearest = some i.lastw

/-- R31 (d) and (e) of an interpreter no invocation of which is executing: a done one has LASTW 0; one that is not done is as interpreter reset left it, or
waits. -/
def Interp.Resting (cfg : Params) (i : Interp) : Prop :=
  (i.status.done = true → i.lastw = 0) ∧ (i.status.done = false → i = Interp.fresh cfg i.bind ∨ i.Waiting)

/-- What holds of the running interpreter at each phase of its invocation. -/
def Phase.Fits (cfg : Params) (i : Interp) : Phase → Prop
  | .enter => i.Resting cfg
  | .resolve => i.status.done = false
  | .run => i.tflags.hasStep = true → i.stepc ≠ 0
  | .settle => i.status.done = true ∨ (i.tflags.hasStep = true ∧ i.stepc ≠ 0)
  | .ret (.ok w) => i.status.done = false ∧ i.Waiting ∧ i.lastw = w
  | .ret .done => i.status.done = true ∧ i.lastw = 0
  | .ret (.error c) => i.status.done = true ∧ i.lastw = 0 ∧ i.status.fault = some c

/-- The activation is an invocation. -/
def Frame.isInvoke : Frame → Bool
  | .invoke _ _ => true
  | .post _ | .pass _ _ _ | .groups _ _ | .core _ _ _ | .generate _ | .toTime _ _ _ | .callback _ _ _ _ | .unacknowledged => false

/-- At most one invocation is executing, the innermost activation; its interpreter fits its phase and every other interpreter rests. -/
def State.PhasesFit (s : State) : Prop :=
  (∀ f ∈ s.ctl.tail, f.isInvoke = false) ∧
  match s.ctl with
  | .invoke t p :: _ => p.Fits s.cfg (s.interp t) ∧ ∀ u, u ≠ t → (s.interp u).Resting s.cfg
  | _ => ∀ u, (s.interp u).Resting s.cfg

/-! ## A sound Context (10_state.md R41 to R47) -/

/-- Periods are positive (R41; the master's once Init has set it), divisors are at least 1 (R42), the master has the two built-in groups and an auxiliary clock
exactly one (R43), group numbers are distinct and were given out, a queue is empty where no pass is running (R47), `now` is not negative (R44), and
CLKRST is 0 between transitions (R45). -/
structure Context.Sound (c : Context) : Prop where
  masterPeriod : c.state = .running → ftIsPositive c.master.period = true
  periods : ∀ k ∈ c.clocks, ftIsPositive k.period = true
  divisors : ∀ g ∈ c.allGroups, ∀ d ∈ g.list, d.divisor ≠ 0
  builtin : c.master.groups.map (·.num) = [0, 1]
  single : ∀ k ∈ c.clocks, k.groups.length = 1
  numbers : (c.allGroups.map (·.num)).Nodup
  numbersBelow : ∀ g ∈ c.allGroups, g.num < c.nextGroup
  queues : ∀ g ∈ c.allGroups, g.inPass = false → g.queue = []
  now : 0 ≤ c.now.toInt
  clkrst : c.flags.clkrst = false

/-- The identifiers a group holds: those of its dividers, and those given to attaches still in its queue (R238). -/
def Group.ids (g : Group) : List DividerId :=
  g.list.map (·.id) ++ g.queue.filterMap fun q =>
    match q with
    | .attach id _ _ => some id
    | .detach _ => none
    | .setDivisor _ _ => none

/-- Every identifier was given to one divider only and was given out (R262), attached tracks have one port each, and a port and the divider that drives its
track name each other (R46, R260). -/
structure Context.Linked (c : Context) : Prop where
  ids : (c.allGroups.flatMap Group.ids).Nodup
  idsBelow : ∀ g ∈ c.allGroups, ∀ id ∈ g.ids, id < c.nextDivider
  tracks : (c.tracks.map (·.track)).Nodup
  portDivider : ∀ p ∈ c.tracks, ∃ g ∈ c.allGroups, ∃ d ∈ g.list, d.id = p.divider ∧ d.target = .track p.track
  dividerPort : ∀ g ∈ c.allGroups, ∀ d ∈ g.list, ∀ t, d.target = .track t → ∃ p ∈ c.tracks, p.track = t ∧ p.divider = d.id

end Sys2Proof.Machine
end

