-- ==== Sys2Proof/Certificates/Slice0/Obligations.lean ====
section
/-! DEFINITION. The statements about the machine, from the numbered rules of spec/. -/

open Sys2Proof Sys2Proof.Machine

/-! ## Encoding (30_encoding.md) and fetch (40_interpreter_cycle.md R115 to R118) -/

/-- R90 to R96: decoding the words of a well-formed instruction gives it back, with the words after it untouched, whatever they are. -/
def Obligations.DecodeEncodeRoundTrip : Prop :=
  ∀ (i : Instr) (rest : List Word), i.wf = true → decode (encode i ++ rest) = .instr i rest

/-- R90, R96: every word list that decodes to an instruction begins with the words of exactly that instruction, which is well formed. -/
def Obligations.DecodeReadsOnlyEncodings : Prop :=
  ∀ (ws : List Word) (i : Instr) (rest : List Word), decode ws = .instr i rest → i.wf = true ∧ ws = encode i ++ rest

/-- R101: words written out from the opcode map decode to the instructions they stand for. -/
def Obligations.SampleWordsDecode : Prop :=
  decode [0x00000001, 0x0000003C] = .instr (.attack 60) []
  ∧ decode [0x00000004, 0x00000002, 0x00000003, 0x00000000, 0x00000004, 0x00000007] = .instr (.arpeggio 2 [0, 4, 7]) []
  ∧ decode [0x0000000C, 0x80000000, 0x0000003F] = .instr (.waveform 0x80000000) [0x3F]
  ∧ decode [0x00000011, 0x00000006] = .instr (.releaseticks 6) []
  ∧ decode [0x00000020, 0x0000113A] = .instr (.step 4410) []
  ∧ decode [0x00000030, 0x00000014] = .instr (.call 20) []
  ∧ decode [0x0000003F] = .instr .endTrack []

/-- R97: a word is unrecognized exactly when it is not one of the 22 codes, whatever follows it. -/
def Obligations.UnrecognizedWords : Prop :=
  opcodes.length = 22 ∧ opcodes.Nodup ∧ ∀ (w : Word) (rest : List Word), decode (w :: rest) = .unknownOpcode w ↔ w ∉ opcodes

/-- R115, with the model's cut of an invocation into steps (log 1): at the head of Run's loop a step is the execution of the instruction at the cursor, and nothing else. -/
def Obligations.StepRunsDecodedInstruction : Prop :=
  ∀ (s : State) (t : Track) (rest : List Frame) (i : Instr) (more : List Word),
    AtFetch s t rest → decode (s.interp t).stream = .instr i more → i.wf = true → step s = exec i s

/-- R96, R115: where the words of a well-formed instruction stand in program memory from the cursor on, all below PROGLEN, a step executes it. -/
def Obligations.StepRunsEncodedInstruction : Prop :=
  ∀ (s : State) (t : Track) (rest : List Frame) (i : Instr),
    AtFetch s t rest → i.wf = true →
    (s.interp t).pc.toNat + (encode i).length ≤ (s.interp t).bind.proglen.toNat →
    (∀ k w, (encode i)[k]? = some w → (s.interp t).bind.pm.readWord ((s.interp t).pc.toNat + k) = w) →
    step s = exec i s

/-- R116, R117: where the cursor is at or beyond PROGLEN, and where the operand words of a recognized opcode do not all lie below it, the program ends; nothing else
changes, and PC keeps its address. -/
def Obligations.ProgramEndsAtFetch : Prop :=
  ∀ (s : State) (t : Track) (rest : List Frame),
    AtFetch s t rest →
    let p := s.interp t
    let len := p.bind.proglen.toNat
    let w := p.bind.pm.readWord p.pc.toNat
    (len ≤ p.pc.toNat
      ∨ (p.pc.toNat < len ∧ w ≠ 4 ∧ ∃ i : Instr, i.code = w ∧ len < p.pc.toNat + 1 + i.operandCount)
      ∨ (p.pc.toNat < len ∧ w = 4
          ∧ (len < p.pc.toNat + 3 ∨ len < p.pc.toNat + 3 + (p.bind.pm.readWord (p.pc.toNat + 2)).toNat))) →
    StepsTo s { p with status := { p.status with done := true } } [] s.ctl

/-- R118, R273: fetching an unrecognized opcode takes the fault entry with cause UnknownOpcode, PC left at the word. -/
def Obligations.UnknownOpcodeFaults : Prop :=
  ∀ (s : State) (t : Track) (rest : List Frame),
    AtFetch s t rest → (s.interp t).pc.toNat < (s.interp t).bind.proglen.toNat →
    (s.interp t).bind.pm.readWord (s.interp t).pc.toNat ∉ opcodes →
    StepsTo s { s.interp t with status := { done := true, fault := some .unknownOpcode }, lastw := 0 } []
      (.invoke t (.ret (.error .unknownOpcode)) :: rest)

/-! ## What each instruction does, where it completes, and its frame

`Completes` says that exec answers a next state, gives the whole of the running interpreter in it and the events presented, and that nothing else changes:
the thread of control, the Context, the inputs, every other interpreter and every byte of every program memory. -/

/-- R134 to R139: VOLUME, PANNING, PITCH, DUTYCYCLE, PHASEWRAP and MASTERVOLUME pass the operand word to the sink and move the cursor by two words. -/
def Obligations.ParameterInstructions : Prop :=
  ∀ (s : State) (v : Word),
    (encode (.volume v) = [0x00000005, v] ∧ Completes (.volume v) s { s.it with pc := s.it.pc + 2 } [.sink s.cur .volume v])
    ∧ (encode (.panning v) = [0x00000006, v] ∧ Completes (.panning v) s { s.it with pc := s.it.pc + 2 } [.sink s.cur .panning v])
    ∧ (encode (.pitch v) = [0x00000007, v] ∧ Completes (.pitch v) s { s.it with pc := s.it.pc + 2 } [.sink s.cur .pitch v])
    ∧ (encode (.dutycycle v) = [0x00000008, v]
      ∧ Completes (.dutycycle v) s { s.it with pc := s.it.pc + 2 } [.sink s.cur .dutycycle v])
    ∧ (encode (.phasewrap v) = [0x00000009, v]
      ∧ Completes (.phasewrap v) s { s.it with pc := s.it.pc + 2 } [.sink s.cur .phasewrap v])
    ∧ (encode (.mastervolume v) = [0x0000000A, v]
      ∧ Completes (.mastervolume v) s { s.it with pc := s.it.pc + 2 } [.sink s.cur .mastervolume v])

/-- R132, R133: RELEASE and MUTE present their event with payload 0, write no flag, and move the cursor by one word. -/
def Obligations.GateInstructions : Prop :=
  ∀ s : State,
    (encode .release = [0x00000002] ∧ Completes .release s { s.it with pc := s.it.pc + 1 } [.sink s.cur .release 0])
    ∧ (encode .mute = [0x00000003] ∧ Completes .mute s { s.it with pc := s.it.pc + 1 } [.sink s.cur .mute 0])

/-- R140, R141, R95, R74: INSTRUMENT presents the handle at its index of ITAB; WAVEFORM presents the built-in number where the custom bit is 0, else the handle of
WTAB at the index, which is the operand without that bit. An index outside a table gives the null handle 0. -/
def Obligations.TableInstructions : Prop :=
  ∀ (s : State) (w : Word),
    encode (.instrument w) = [0x0000000B, w]
    ∧ Completes (.instrument w) s { s.it with pc := s.it.pc + 2 }
        [.sink s.cur .instrument (if h : w.toNat < s.it.bind.itab.length then s.it.bind.itab[w.toNat] else 0)]
    ∧ encode (.waveform w) = [0x0000000C, w]
    ∧ (w.getLsbD s.cfg.waveCustomBit = false →
        Completes (.waveform w) s { s.it with pc := s.it.pc + 2 } [.sink s.cur .waveformBuiltin w])
    ∧ (w.getLsbD s.cfg.waveCustomBit = true →
        let index := w - BitVec.twoPow 32 s.cfg.waveCustomBit
        Completes (.waveform w) s { s.it with pc := s.it.pc + 2 }
          [.sink s.cur .waveformCustom (if h : index.toNat < s.it.bind.wtab.length then s.it.bind.wtab[index.toNat] else 0)])

/-- R131, R195, R197: ATTACK writes the base note, sounds it with the first offset added, and restarts the arpeggio and its cycle timer. -/
def Obligations.AttackInstruction : Prop :=
  ∀ (s : State) (note : Word),
    let p := s.it
    let active := decide (1 ≤ p.arplen ∧ p.arpspeed ≠ 0)
    encode (.attack note) = [0x00000001, note]
    ∧ Completes (.attack note) s
        { p with
            basenote := note
            arpidx := if 1 ≤ p.arplen then 1 % p.arplen else 0
            arpc := if active then p.arpspeed else p.arpc
            tflags := { p.tflags with hasArpeggio := active }
            pc := p.pc + 2 }
        [.sink s.cur .attack (if 1 ≤ p.arplen then note + p.arp.getD 0 0 else note)]

/-- R191, R196: ARPEGGIO stores the first ARP_MAX of its offsets, zeros after them, restarts the arpeggio, arms the cycle timer where the arpeggio is active,
and moves past all its words. -/
def Obligations.ArpeggioInstruction : Prop :=
  ∀ (s : State) (speed : Word) (offsets : List Word),
    let p := s.it
    let active := decide (1 ≤ min offsets.length s.cfg.arpMax ∧ speed ≠ 0)
    encode (.arpeggio speed offsets) = 0x00000004 :: speed :: BitVec.ofNat 32 offsets.length :: offsets
    ∧ Completes (.arpeggio speed offsets) s
        { p with
            arp := (List.range s.cfg.arpMax).map fun k => offsets.getD k 0
            arplen := min offsets.length s.cfg.arpMax
            arpspeed := speed
            arpidx := 0
            arpc := if active then speed else p.arpc
            tflags := { p.tflags with hasArpeggio := active }
            pc := p.pc + 3 + BitVec.ofNat 32 offsets.length }
        []

/-- R151, and the pseudocode of R152 to R154: ATTACKTICKS, RELEASETICKS and MUTETICKS load and arm their counter, over an earlier schedule too, and add the delay to
DUR modulo 2^32; no event. -/
def Obligations.TimedEnvelopeInstructions : Prop :=
  ∀ (s : State) (n : Word),
    let p := s.it
    (encode (.attackticks n) = [0x00000010, n]
      ∧ Completes (.attackticks n) s
          { p with atkc := n, tflags := { p.tflags with hasAttack := true }, dur := p.dur + n, pc := p.pc + 2 } [])
    ∧ (encode (.releaseticks n) = [0x00000011, n]
      ∧ Completes (.releaseticks n) s
          { p with relc := n, tflags := { p.tflags with hasRelease := true }, dur := p.dur + n, pc := p.pc + 2 } [])
    ∧ (encode (.muteticks n) = [0x00000012, n]
      ∧ Completes (.muteticks n) s
          { p with mutc := n, tflags := { p.tflags with hasMute := true }, dur := p.dur + n, pc := p.pc + 2 } [])

/-- R166 to R169: STEP waits for its operand, STEPTICKS for DUR, which it clears whether or not it yields. A wait that is not 0 loads and arms the step counter; a
wait of 0 only moves the cursor. -/
def Obligations.YieldInstructions : Prop :=
  ∀ (s : State) (n : Word),
    let p := s.it
    encode (.step n) = [0x00000020, n]
    ∧ (n ≠ 0 → Completes (.step n) s { p with pc := p.pc + 2, stepc := n, tflags := { p.tflags with hasStep := true } } [])
    ∧ (n = 0 → Completes (.step n) s { p with pc := p.pc + 2 } [])
    ∧ encode .stepticks = [0x00000021]
    ∧ (p.dur ≠ 0 →
        Completes .stepticks s
          { p with dur := 0, pc := p.pc + 1, stepc := p.dur, tflags := { p.tflags with hasStep := true } } [])
    ∧ (p.dur = 0 → Completes .stepticks s { p with pc := p.pc + 1 } [])

/-- R176, R178, R179, R75: CALL with room on the stack pushes the address of the instruction after it and jumps; RETURN pops the cursor, and with an empty stack ends
the program without a fault, PC unchanged. -/
def Obligations.CallAndReturnInstructions : Prop :=
  ∀ (s : State) (target : Word),
    let p := s.it
    encode (.call target) = [0x00000030, target]
    ∧ (p.sp < s.cfg.stackDepth →
        Completes (.call target) s { p with stack := p.stack.set p.sp (p.pc + 2), sp := p.sp + 1, pc := target } [])
    ∧ encode .ret = [0x00000031]
    ∧ (p.sp = 0 → Completes .ret s { p with status := { p.status with done := true } } [])
    ∧ ∀ (n : Nat) (a : Word), p.sp = n + 1 → p.stack[n]? = some a → Completes .ret s { p with sp := n, pc := a } []

/-- R177, R273: CALL with a full stack takes the fault entry with cause StackOverflow; stack, count and PC stay. -/
def Obligations.CallOverflowFaults : Prop :=
  ∀ (s : State) (t : Track) (rest : List Frame) (target : Word),
    s.ctl = .invoke t .run :: rest → (s.interp t).sp = s.cfg.stackDepth →
    ∃ u, exec (.call target) s = .next u
      ∧ Leaves s u { s.interp t with status := { done := true, fault := some .stackOverflow }, lastw := 0 } []
          (.invoke t (.ret (.error .stackOverflow)) :: rest)

/-- R180, R182, R184: JUMP writes the cursor, unchecked; GROUP is a two-word no-op; END ends the program with PC left at it. -/
def Obligations.JumpGroupEndInstructions : Prop :=
  ∀ (s : State) (w : Word),
    let p := s.it
    (encode (.jump w) = [0x00000032, w] ∧ Completes (.jump w) s { p with pc := w } [])
    ∧ (encode (.group w) = [0x00000033, w] ∧ Completes (.group w) s { p with pc := p.pc + 2 } [])
    ∧ (encode .endTrack = [0x0000003F] ∧ Completes .endTrack s { p with status := { p.status with done := true } } [])

/-- Call and return symmetry (R176, R178): calls to any targets, as many as the stack has room for, followed by as many returns, end at the word after the first
call, with the stack count and every entry below it as before and no event. -/
def Obligations.CallReturnSymmetry : Prop :=
  ∀ (s : State) (targets : List Word),
    targets ≠ [] → s.it.stack.length = s.cfg.stackDepth → s.it.sp + targets.length ≤ s.cfg.stackDepth →
    ∃ t, execAll (targets.map Instr.call ++ targets.map fun _ => Instr.ret) s = .next t
      ∧ (t.interp s.cur).pc = s.it.pc + 2 ∧ (t.interp s.cur).sp = s.it.sp
      ∧ (∀ k < s.it.sp, (t.interp s.cur).stack[k]? = s.it.stack[k]?)
      ∧ (t.interp s.cur).status = s.it.status ∧ t.out = s.out ∧ t.ctl = s.ctl

/-- R177: the calls that fill the stack succeed and the next one faults, with the stack as they left it. -/
def Obligations.DepthPlusOneFaults : Prop :=
  ∀ (s : State) (t : Track) (rest : List Frame) (targets : List Word) (target : Word),
    s.ctl = .invoke t .run :: rest → (s.interp t).sp + targets.length = s.cfg.stackDepth →
    ∃ u v, execAll (targets.map Instr.call) s = .next u
      ∧ (u.interp t).sp = s.cfg.stackDepth ∧ (u.interp t).status = (s.interp t).status ∧ u.ctl = s.ctl
      ∧ exec (.call target) u = .next v ∧ v.ctl = .invoke t (.ret (.error .stackOverflow)) :: rest
      ∧ (v.interp t).status = { done := true, fault := some .stackOverflow } ∧ (v.interp t).lastw = 0
      ∧ (v.interp t).pc = (u.interp t).pc ∧ (v.interp t).sp = (u.interp t).sp ∧ (v.interp t).stack = (u.interp t).stack

/-! ## The invocation (40_interpreter_cycle.md R111 to R121)

The phases `enter`, `resolve`, `run`, `settle` and `ret` are the places where the model cuts an invocation into steps: its own choice (log 1). -/

/-- R120: an invocation in the terminal state changes nothing, emits nothing and returns Done. -/
def Obligations.TerminalNoOp : Prop :=
  ∀ (s : State) (t : Track) (rest : List Frame),
    s.ctl = .invoke t .enter :: rest → (s.interp t).status.done = true →
    StepsTo s (s.interp t) [] (.invoke t (.ret .done) :: rest)

/-- R184, R274, R302: only interpreter reset leaves the done state, and FAULT keeps its cause until then. -/
def Obligations.DoneOnlyLeftByReset : Prop :=
  ∀ (s u : State) (t : Track),
    step s = .next u → (s.interp t).status.done = true →
    (u.interp t).status = (s.interp t).status ∨ u.interp t = Interp.fresh s.cfg (u.interp t).bind

/-- R112: the invocation of a program that has not ended takes the wait last returned off every armed counter and off no other; in an interpreter at rest no
armed counter is below that wait. -/
def Obligations.ElapseCountsDown : Prop :=
  ∀ (s : State) (t : Track) (rest : List Frame),
    let p := s.interp t
    let f := p.tflags
    s.ctl = .invoke t .enter :: rest → p.status.done = false →
    StepsTo s
      { p with
          stepc := if f.hasStep then p.stepc - p.lastw else p.stepc
          atkc := if f.hasAttack then p.atkc - p.lastw else p.atkc
          relc := if f.hasRelease then p.relc - p.lastw else p.relc
          mutc := if f.hasMute then p.mutc - p.lastw else p.mutc
          arpc := if f.hasArpeggio then p.arpc - p.lastw else p.arpc }
      [] (.invoke t .resolve :: rest)
    ∧ (p.Resting s.cfg → ∀ w ∈ p.armed, p.lastw ≤ w)

/-- R155, R156: every due timed event is consumed, exactly one is carried out, mute before release before attack, and the IntrFlag bits are 0 afterwards; where the
attack wins, the arpeggio restarts as R195 says. That one event wins, and in this order, is the spec's own reading, which R156 and U14 of
93_implementation_defined.md say must be validated against the upstream software: the model follows it (log 29, DEDUCED, unsafe). -/
def Obligations.TieResolution : Prop :=
  ∀ s : State,
    let p := s.it
    let m := p.tflags.hasMute && p.mutc == 0
    let r := p.tflags.hasRelease && p.relc == 0
    let a := p.tflags.hasAttack && p.atkc == 0
    let active := decide (1 ≤ p.arplen ∧ p.arpspeed ≠ 0)
    let flags : TFlags :=
      { p.tflags with
          hasMute := p.tflags.hasMute && !m
          hasRelease := p.tflags.hasRelease && !r
          hasAttack := p.tflags.hasAttack && !a
          intrMute := false
          intrRelease := false
          intrAttack := false }
    s.resolveDue.out = s.out ++
        (if m then [.sink s.cur .mute 0]
         else if r then [.sink s.cur .release 0]
         else if a then [.sink s.cur .attack (if 1 ≤ p.arplen then p.basenote + p.arp.getD 0 0 else p.basenote)]
         else [])
    ∧ s.resolveDue.it =
        (if a = true ∧ r = false ∧ m = false then
          { p with
              tflags := { flags with hasArpeggio := active }
              arpidx := if 1 ≤ p.arplen then 1 % p.arplen else 0
              arpc := if active then p.arpspeed else p.arpc }
         else { p with tflags := flags })
    ∧ s.resolveDue.ctl = s.ctl ∧ OnlyRunning s s.resolveDue

/-- R193, R194, R197: a due cycle presents the note of the current offset, moves to the next offset and reloads the timer; where none is due nothing happens. -/
def Obligations.ArpeggioCycle : Prop :=
  ∀ s : State,
    let p := s.it
    (p.tflags.hasArpeggio = true → p.arpc = 0 → 1 ≤ p.arplen →
      s.arpCycleIfDue.out = s.out ++ [.sink s.cur .arpnote (p.basenote + p.arp.getD p.arpidx 0)]
      ∧ s.arpCycleIfDue.it = { p with arpidx := (p.arpidx + 1) % p.arplen, arpc := p.arpspeed }
      ∧ s.arpCycleIfDue.ctl = s.ctl ∧ OnlyRunning s s.arpCycleIfDue)
    ∧ (p.tflags.hasArpeggio = false ∨ p.arpc ≠ 0 → s.arpCycleIfDue = s)

/-- R111, R113, R114: one pass first resolves the due events, with at most one gate transition, then the arpeggio cycle, at most one, and only then enters Run, which it
does unless the step counter holds the program; the step flag is cleared where Run is entered; a held program executes nothing and its cursor stays. -/
def Obligations.ResolutionOrder : Prop :=
  ∀ (s : State) (t : Track) (rest : List Frame),
    s.ctl = .invoke t .resolve :: rest →
    let r := s.resolveDue.arpCycleIfDue
    ∃ u gate cycle, step s = .next u ∧ s.resolveDue.out = s.out ++ gate ∧ r.out = s.resolveDue.out ++ cycle ∧ u.out = r.out
      ∧ gate.length ≤ 1 ∧ (∀ e ∈ gate, ∃ k w, e = .sink t k w ∧ (k = .attack ∨ k = .release ∨ k = .mute))
      ∧ cycle.length ≤ 1 ∧ (∀ e ∈ cycle, ∃ w, e = .sink t .arpnote w)
      ∧ (u.interp t).pc = (s.interp t).pc ∧ (u.interp t).stepc = (s.interp t).stepc
      ∧ ((s.interp t).tflags.hasStep = true ∧ (s.interp t).stepc ≠ 0 →
          u.ctl = .invoke t .settle :: rest ∧ u.interp t = r.it ∧ (u.interp t).tflags.hasStep = true)
      ∧ ((s.interp t).tflags.hasStep = false ∨ (s.interp t).stepc = 0 →
          u.ctl = .invoke t .run :: rest ∧ u.interp t = { r.it with tflags := { r.it.tflags with hasStep := false } })
      ∧ OnlyRunning s u

/-- R115, R119, R121: Run returns as soon as the program has ended or yielded, and executes nothing more; then an invocation of an ended program returns Done with LASTW 0; any other returns the least armed counter, kept in LASTW, unless that is 0: then it
goes round again with nothing changed. -/
def Obligations.ReturnedWait : Prop :=
  ∀ (s : State) (t : Track) (rest : List Frame),
    let p := s.interp t
    (s.ctl = .invoke t .run :: rest → p.status.done = true ∨ p.tflags.hasStep = true → StepsTo s p [] (.invoke t .settle :: rest))
    ∧ (s.ctl = .invoke t .settle :: rest →
        (p.status.done = true → StepsTo s { p with lastw := 0 } [] (.invoke t (.ret .done) :: rest))
        ∧ (p.status.done = false → ∀ w ∈ p.armed, (∀ v ∈ p.armed, w ≤ v) →
            (w ≠ 0 → StepsTo s { p with lastw := w } [] (.invoke t (.ret (.ok w)) :: rest))
            ∧ (w = 0 → StepsTo s p [] (.invoke t .resolve :: rest))))

/-- R119: a sound invocation whose program has yielded and whose wait comes out 0 goes round exactly once more, executes no instruction, and returns a wait
that is not 0. -/
def Obligations.AtMostTwoPasses : Prop :=
  ∀ (s : State) (t : Track) (rest : List Frame),
    let p := s.interp t
    s.ctl = .invoke t .settle :: rest → p.Sound s.cfg → p.status.done = false → p.tflags.hasStep = true → p.stepc ≠ 0 →
    p.nearest = some 0 →
    ∃ u w, stepN 3 s = .next u ∧ w ≠ 0 ∧ u.ctl = .invoke t (.ret (.ok w)) :: rest
      ∧ (u.interp t).lastw = w ∧ (u.interp t).pc = p.pc

/-! ## The track port (47_clock_divider.md R237, R239) -/

/-- R237: one firing of a track's divider. A finished track does nothing; the wait counts down by one; at 0 the interpreter is invoked. -/
def Obligations.TrackTick : Prop :=
  ∀ (s : State) (t : Track) (p : Port),
    s.ctx.port? t = some p →
    ((s.interp t).status.done = true → s.trackTick t = s)
    ∧ ((s.interp t).status.done = false →
        (s.trackTick t).ctx.port? t = some { p with waitc := if p.waitc = 0 then 0 else p.waitc - 1 }
        ∧ (p.waitc.toNat ≤ 1 → (s.trackTick t).ctl = .invoke t .enter :: s.ctl)
        ∧ (1 < p.waitc.toNat → (s.trackTick t).ctl = s.ctl)
        ∧ (∀ v, v ≠ t → (s.trackTick t).ctx.port? v = s.ctx.port? v)
        ∧ { (s.trackTick t).ctx with tracks := s.ctx.tracks } = s.ctx
        ∧ (s.trackTick t).interps = s.interps ∧ (s.trackTick t).out = s.out ∧ (s.trackTick t).env = s.env
        ∧ (s.trackTick t).cfg = s.cfg)

/-- R237, R239: the port takes the invocation's result: the wait, or 0, and for Error the latched error code. -/
def Obligations.PortTakesResult : Prop :=
  ∀ (s : State) (t : Track) (r : InvResult) (rest : List Frame) (p : Port),
    s.ctl = .invoke t (.ret r) :: rest → s.ctx.port? t = some p →
    ∃ u, step s = .next u ∧ u.ctl = rest ∧ u.interps = s.interps ∧ u.out = s.out ∧ u.env = s.env ∧ u.cfg = s.cfg
      ∧ { u.ctx with tracks := s.ctx.tracks } = s.ctx
      ∧ (∀ v, v ≠ t → u.ctx.port? v = s.ctx.port? v)
      ∧ u.ctx.port? t = some
          (match r with
           | .ok w => { p with waitc := w }
           | .done => { p with waitc := 0 }
           | .error _ => { p with waitc := 0, err := .interpreterFault })

/-- R79, R84, R275: whatever an invocation does, a fault included, touches no other interpreter, no other port, no clock, not the time and no input, and presents
events on its own track's sink only. -/
def Obligations.InvocationIsLocal : Prop :=
  ∀ (s u : State) (t : Track) (phase : Phase) (rest : List Frame),
    s.ctl = .invoke t phase :: rest → step s = .next u →
    (∀ v, v ≠ t → u.interp v = s.interp v ∧ u.ctx.port? v = s.ctx.port? v)
    ∧ { u.ctx with tracks := s.ctx.tracks } = s.ctx ∧ u.env = s.env ∧ u.cfg = s.cfg
    ∧ ∃ evs, u.out = s.out ++ evs ∧ ∀ e ∈ evs, ∃ k w, e = .sink t k w

/-- R53, R76, R82, R302: no step of the machine, of the sequencer or any other, writes a parameter; and the bindings of an interpreter, its program memory with them,
are changed by a TrackBind of its track and by nothing else. The commands stand on the model's input tapes (log 8, 9). -/
def Obligations.OnlyTrackBindRebinds : Prop :=
  (∀ s u : State, step s = .next u → u.cfg = s.cfg)
  ∧ ∀ (s u : State) (t : Track),
      step s = .next u → (u.interp t).bind ≠ (s.interp t).bind →
      ∃ program itab wtab,
        (u.interp t).bind = bindingsOf program itab wtab
        ∧ ((s.ctl = [] ∧ ∃ more, s.env.host = .trackBind t program itab wtab :: more)
          ∨ ∃ more rest, s.ctl = .post (.trackBind t program itab wtab :: more) :: rest)

/-! ## FixedTime (46_fixed_time.md) -/

/-- R200: `raw` is a bijection between FixedTimes and the integers from -2^83 up to 2^83 - 1, and a FixedTime denotes raw / 2^20 samples. -/
def Obligations.RawIsBijection : Prop :=
  (∀ t : FixedTime, -(2 ^ 83) ≤ ftRaw t ∧ ftRaw t < 2 ^ 83)
  ∧ (∀ n : Int, -(2 ^ 83) ≤ n → n < 2 ^ 83 → ∃ t, ftRaw t = n ∧ ∀ u, ftRaw u = n → u = t)
  ∧ ∀ t : FixedTime, (t.int.toInt : ℚ) + (t.frac.toNat : ℚ) / 2 ^ 20 = (ftRaw t : ℚ) / 2 ^ 20

/-- R201 to R203, R208: normalization, addition and subtraction are exact; a result exists exactly where it can be represented. -/
def Obligations.FixedTimeExact : Prop :=
  (∀ (i f : Int) (t : FixedTime), ftNorm i f = some t ↔ ftRaw t = i * 2 ^ 20 + f)
  ∧ (∀ a b c : FixedTime, ftAdd a b = some c ↔ ftRaw c = ftRaw a + ftRaw b)
  ∧ ∀ a b c : FixedTime, ftSub a b = some c ↔ ftRaw c = ftRaw a - ftRaw b

/-- R204: the comparison is the lexicographic order of the two fields, the order of the raw values, hence total. -/
def Obligations.FixedTimeOrder : Prop :=
  ∀ a b : FixedTime,
    (ftLt a b = true ↔ a.int.toInt < b.int.toInt ∨ (a.int = b.int ∧ a.frac.toNat < b.frac.toNat))
    ∧ (ftLt a b = true ↔ ftRaw a < ftRaw b)
    ∧ ftCmp a b = compare (ftRaw a) (ftRaw b)
    ∧ (ftCmp a b = .eq ↔ a = b)
    ∧ (ftIsPositive a = true ↔ ftLt ⟨0, 0⟩ a = true)

/-- R205, R206: conversion from samples and from seconds, and the floor. -/
def Obligations.FixedTimeConversions : Prop :=
  (∀ n : BitVec 64, ftRaw (ftFromSamples n) = n.toInt * 2 ^ 20)
  ∧ (∀ t : FixedTime, ftFloor t = ⌊(ftRaw t : ℚ) / 2 ^ 20⌋)
  ∧ ∀ (num den rate : Nat) (t : FixedTime), 1 ≤ den →
      (ftFromSeconds num den rate = some t ↔ ftRaw t = ⌊((num * rate * 2 ^ 20 : Nat) : ℚ) / (den : ℚ)⌋)

/-- R209: the k-th boundary of a clock lies exactly k periods after zero; the samples rendered before it fall short of that by less than one; and where the period was
rounded down from num / den seconds, the further error stays below one sample up to 2^20 boundaries. -/
def Obligations.DriftBound : Prop :=
  ∀ (p t : FixedTime) (k : Nat),
    nthBoundary p k = some t →
    ftRaw t = k * ftRaw p
    ∧ 0 ≤ (k : ℚ) * (ftRaw p / 2 ^ 20) - ftFloor t ∧ (k : ℚ) * (ftRaw p / 2 ^ 20) - ftFloor t < 1
    ∧ ∀ num den rate : Nat, 1 ≤ den → ftFromSeconds num den rate = some p → k ≤ 2 ^ 20 →
        0 ≤ (k : ℚ) * ((num : ℚ) * rate / den) - k * (ftRaw p / 2 ^ 20)
        ∧ (k : ℚ) * ((num : ℚ) * rate / den) - k * (ftRaw p / 2 ^ 20) < 1

/-! ## Clocks, boundaries and the sequencer (47_clock_divider.md R221 to R225, R250 to R252)

The stages of an iteration are the model's cut (log 1), the input tape `env.posts` is its form of the environment's commands (log 9), and
`timeOverflow` is its form of the transition that is not available (log 13). -/

/-- R221, R222: a clock is due when its next boundary, rounded down, has been reached; the time to it is never negative; the Context's is the minimum over the clock
list. -/
def Obligations.TimeToNext : Prop :=
  (∀ (c : Clock) (now : BitVec 64),
    (c.due now = true ↔ c.next.int.toInt ≤ now.toInt)
    ∧ (c.timeToNext now : Int) = max 0 (c.next.int.toInt - now.toInt))
  ∧ ∀ x : Context,
      (∃ c ∈ x.master :: x.clocks, x.timeToNext = c.timeToNext x.now)
      ∧ ∀ c ∈ x.master :: x.clocks, x.timeToNext ≤ c.timeToNext x.now

/-- R225: the clock picked is due, no due clock has an earlier boundary, and none before it in the list has an equal one; none is picked only where none is due. -/
def Obligations.PickDue : Prop :=
  ∀ x : Context,
    (x.pickDue = none ↔ ∀ c ∈ x.master :: x.clocks, c.due x.now = false)
    ∧ ∀ i, x.pickDue = some i ↔
        ∃ c, (x.master :: x.clocks)[i]? = some c ∧ c.due x.now = true
          ∧ ∀ j d, (x.master :: x.clocks)[j]? = some d → d.due x.now = true →
              ftLt d.next c.next = false ∧ (j < i → ftLt c.next d.next = true)

/-- R224: processing a boundary takes the tick count as its index, raises it by one, moves the next boundary by one period, and opens the passes over the clock's
groups in order; every other clock and everything else stays. Where a value would leave its 64 bits there is no transition (R208, R321). -/
def Obligations.BoundaryStep : Prop :=
  ∀ (s : State) (n p i : Nat) (rest : List Frame) (c : Clock),
    s.ctl = .core n p .due :: rest → s.ctx.pickDue = some i → (s.ctx.master :: s.ctx.clocks)[i]? = some c →
    (∀ b, c.tickCount.toNat + 1 < 2 ^ 64 → ftAdd c.next c.period = some b →
      ∃ u, step s = .next u
        ∧ u.ctl = .groups (c.groups.map (·.num)) c.tickCount :: s.ctl
        ∧ (u.ctx.master :: u.ctx.clocks)[i]? = some { c with tickCount := c.tickCount + 1, next := b }
        ∧ (∀ j, j ≠ i → (u.ctx.master :: u.ctx.clocks)[j]? = (s.ctx.master :: s.ctx.clocks)[j]?)
        ∧ { u.ctx with master := s.ctx.master, clocks := s.ctx.clocks } = s.ctx
        ∧ u.interps = s.interps ∧ u.out = s.out ∧ u.env = s.env ∧ u.cfg = s.cfg)
    ∧ (c.tickCount.toNat + 1 = 2 ^ 64 → step s = .fault .timeOverflow)
    ∧ (ftAdd c.next c.period = none → step s = .fault .timeOverflow)

/-- R250 to R252: an iteration renders up to the nearest boundary or the frames that remain, whichever is less, issues no request for a step of 0, then advances the
time by the step; nothing else changes. At a request the environment may post commands (log 9). -/
def Obligations.IterationAdvances : Prop :=
  ∀ (s : State) (n p : Nat) (rest : List Frame),
    let step' := min (n - p) s.ctx.timeToNext
    let ahead : List Frame := .core n p (.advance step') :: rest
    (s.ctl = .core n p .head :: rest →
      (step' = 0 → step s = .next { s with ctl := ahead })
      ∧ (step' ≠ 0 → s.env.posts = [] →
          step s = .next { s with ctl := ahead, out := s.out ++ [.render s.ctx.now step'] })
      ∧ ∀ cmds later, step' ≠ 0 → s.env.posts = cmds :: later →
          step s = .next { s with
            ctl := .post cmds :: ahead, env := { s.env with posts := later }, out := s.out ++ [.render s.ctx.now step'] })
    ∧ ∀ d, s.ctl = .core n p (.advance d) :: rest →
        (s.ctx.now.toInt + d < 2 ^ 63 →
          ∃ now', now'.toInt = s.ctx.now.toInt + d
            ∧ step s = .next { s with ctl := .core n (p + d) .due :: rest, ctx := { s.ctx with now := now' } })
        ∧ (2 ^ 63 ≤ s.ctx.now.toInt + d → step s = .fault .timeOverflow)

/-- R250: GenerateCore returns only when all its frames are produced and no clock is due, and returning changes nothing else; where frames remain, it goes to the head
of another iteration. -/
def Obligations.CoreReturns : Prop :=
  ∀ (s : State) (n p : Nat) (stage : Stage) (rest : List Frame),
    s.ctl = .core n p stage :: rest →
    (∀ u, step s = .next u → u.ctl = rest →
      stage = .due ∧ p = n ∧ (∀ c ∈ s.ctx.master :: s.ctx.clocks, c.due s.ctx.now = false) ∧ u = { s with ctl := rest })
    ∧ (stage = .due → (∀ c ∈ s.ctx.master :: s.ctx.clocks, c.due s.ctx.now = false) → p = n →
        step s = .next { s with ctl := rest })
    ∧ (stage = .due → (∀ c ∈ s.ctx.master :: s.ctx.clocks, c.due s.ctx.now = false) → p ≠ n →
        step s = .next { s with ctl := .core n p .head :: rest })

/-! ## Dividers and passes (R230 to R238)

A step of a pass visits one divider (log 1); the snapshot holds identifiers (log 31). -/

/-- R230 to R232, R235, R236: a step of a pass visits the next divider of the snapshot: with CLKRST 0 one that is due fires, a track's by a tick of the track's port, an
external one by its event, and then the environment may post commands (log 9); one that is not due, or is gone, does nothing. So a pass over a group whose
dividers have external targets, in an environment that posts nothing, fires exactly the dividers whose divisor divides the tick index, in attachment
order, each once, and ends with the group as it was, no longer in pass, and nothing else changed. -/
def Obligations.PassFiresInOrder : Prop :=
  (∀ (s : State) (g : GroupNo) (id : DividerId) (more : List DividerId) (k : BitVec 64) (rest : List Frame),
    s.ctl = .pass g (id :: more) k :: rest →
    let next := { s with ctl := .pass g more k :: rest }
    let posted := fun u : State =>
      match s.env.posts with
      | [] => u
      | cmds :: later => { u with env := { u.env with posts := later }, ctl := .post cmds :: u.ctl }
    let visited := fun d : Divider => ∃ grp, s.ctx.group? g = some grp ∧ grp.list.find? (fun e => e.id == id) = some d
    (∀ d, visited d → s.ctx.flags.clkrst = false → d.divisor.toNat ∣ k.toNat →
      (∀ t, d.target = .track t → step s = .next ((posted next).trackTick t))
      ∧ ∀ tag, d.target = .ext tag → step s = .next (posted { next with out := s.out ++ [.extFire tag k] }))
    ∧ (s.ctx.flags.clkrst = true ∨ (∀ d, visited d → ¬d.divisor.toNat ∣ k.toNat) → step s = .next next))
  ∧ ∀ (s : State) (g : GroupNo) (grp : Group) (k : BitVec 64) (rest : List Frame),
    s.ctl = .pass g (grp.list.map (·.id)) k :: rest → s.ctx.group? g = some grp → (grp.list.map (·.id)).Nodup →
    (∀ d ∈ grp.list, d.external = true) → grp.queue = [] → s.ctx.flags.clkrst = false → s.env.posts = [] →
    stepN (grp.list.length + 1) s = .next
      { s with
          ctl := rest
          ctx := s.ctx.withGroup g fun x => { x with inPass := false, queue := [] }
          out := s.out ++ grp.list.filterMap fun d =>
            match d.target with
            | .ext tag => if d.divisor.toNat ∣ k.toNat then some (.extFire tag k) else none
            | .track _ => none }

/-- R224, R232, R234: the passes of a boundary run one after the other in the clock's order of groups, each over the list as it stands when the pass begins; opening
one marks its group and changes nothing else. -/
def Obligations.GroupsInOrder : Prop :=
  ∀ (s : State) (g : GroupNo) (more : List GroupNo) (k : BitVec 64) (rest : List Frame) (grp : Group),
    (s.ctl = .groups [] k :: rest → step s = .next { s with ctl := rest })
    ∧ (s.ctl = .groups (g :: more) k :: rest → s.ctx.group? g = some grp →
        step s = .next
          { s with
              ctl := .pass g (grp.list.map (·.id)) k :: .groups more k :: rest
              ctx := s.ctx.withGroup g fun x => { x with inPass := true } })

/-- R238: while a pass over its group runs, a divider command is appended to the group's queue and changes no divider, no other group and nothing else; an attach answers
the identifier its divider will have. That nothing else of the command is checked when it is posted is the model's reading (log 18). -/
def Obligations.DividerCommandsDeferred : Prop :=
  ∀ (s : State) (g : GroupNo) (grp : Group),
    s.ctx.state = .running → s.ctx.group? g = some grp → grp.inPass = true →
    let queued := fun q : Deferred => s.ctx.withGroup g fun x => { x with queue := x.queue ++ [q] }
    (∀ divisor tag : Word,
      Answers (.dividerAttach g divisor tag) s
        { queued (.attach s.ctx.nextDivider divisor tag) with nextDivider := s.ctx.nextDivider + 1 } (.divider s.ctx.nextDivider))
    ∧ ∀ (id : DividerId) (d : Divider), s.ctx.divider? id = some (grp, d) →
        Answers (.dividerDetach id) s (queued (.detach id)) .done
        ∧ ∀ divisor : Word, Answers (.dividerSetDivisor id divisor) s (queued (.setDivisor id divisor)) .done

/-- R232, R233, R238, R262 to R264, R278, R279: outside a pass over its group a divider command takes effect at once, or is refused: DividerAttach appends a divider with
the next identifier, DividerDetach removes an external one, DividerSetDivisor writes the divisor. The end of a pass clears the mark, applies the
commands of the queue in the order posted, and empties it. A queued command does to the dividers what the host command of the same name does, and a refused
one does nothing; neither answers; an attach gives the divider the identifier it was promised. The allocation and the order of the checks are the
model's (log 7, 21). -/
def Obligations.QueuedAsHostCommands : Prop :=
  (∀ (s : State) (g : GroupNo) (divisor tag : Word),
    s.ctx.state = .running →
    (∀ grp, s.ctx.group? g = some grp → grp.inPass = false →
      (divisor ≠ 0 →
        Allocates (.dividerAttach g divisor tag) s (CapReached s.cfg.capDividers grp.list.length)
          { s.ctx.withGroup g fun x => { x with list := x.list ++ [⟨s.ctx.nextDivider, divisor, .ext tag⟩] } with
              nextDivider := s.ctx.nextDivider + 1 }
          (.divider s.ctx.nextDivider))
      ∧ (divisor = 0 → Refuses (.dividerAttach g divisor tag) s .invalidValue))
    ∧ (s.ctx.group? g = none → Refuses (.dividerAttach g divisor tag) s .invalidValue))
  ∧ (∀ (s : State) (id : DividerId),
    s.ctx.state = .running →
    (∀ grp d, s.ctx.divider? id = some (grp, d) → grp.inPass = false →
      (∀ tag, d.target = .ext tag →
        Answers (.dividerDetach id) s
          (s.ctx.withGroup grp.num fun x => { x with list := x.list.filter fun e => e.id != id }) .done)
      ∧ (∀ t, d.target = .track t → Refuses (.dividerDetach id) s .invalidValue)
      ∧ ∀ divisor : Word,
          (divisor ≠ 0 →
            Answers (.dividerSetDivisor id divisor) s
              (s.ctx.withGroup grp.num fun x =>
                { x with list := x.list.map fun e => if e.id = id then { e with divisor := divisor } else e }) .done)
          ∧ (divisor = 0 → Refuses (.dividerSetDivisor id divisor) s .invalidValue))
    ∧ (s.ctx.divider? id = none →
        Refuses (.dividerDetach id) s .invalidValue ∧ ∀ divisor : Word, Refuses (.dividerSetDivisor id divisor) s .invalidValue))
  ∧ (∀ (s : State) (g : GroupNo) (grp : Group) (k : BitVec 64) (rest : List Frame),
    s.ctl = .pass g [] k :: rest → s.ctx.group? g = some grp →
    let ended := { s with ctl := rest, ctx := s.ctx.withGroup g fun x => { x with inPass := false } }
    let drained := grp.queue.foldl (State.applyDeferred g) ended
    step s = .next { drained with ctx := drained.ctx.withGroup g fun x => { x with queue := [] } }
    ∧ drained.interps = s.interps ∧ drained.out = s.out ∧ drained.ctl = rest ∧ drained.cfg = s.cfg)
  ∧ (∀ (s : State) (g : GroupNo) (id : DividerId) (divisor tag : Word),
    (∀ x ∈ s.ctx.allGroups, x.inPass = false) →
    (State.applyDeferred g s (.detach id)).ctx = (cmdDividerDetach id s).ctx
    ∧ (State.applyDeferred g s (.setDivisor id divisor)).ctx = (cmdDividerSetDivisor id divisor s).ctx
    ∧ { (State.applyDeferred g s (.attach s.ctx.nextDivider divisor tag)).ctx with nextDivider := 0 } =
        { (cmdDividerAttach g divisor tag s).ctx with nextDivider := 0 }
    ∧ (State.applyDeferred g s (.detach id)).out = s.out
    ∧ (State.applyDeferred g s (.setDivisor id divisor)).out = s.out
    ∧ (State.applyDeferred g s (.attach id divisor tag)).out = s.out)
  ∧ ∀ (s : State) (g : GroupNo) (id : DividerId) (divisor tag : Word),
    (∀ grp, s.ctx.group? g = some grp → divisor ≠ 0 → ¬CapReached s.cfg.capDividers grp.list.length →
      s.env.allocs.head? ≠ some false →
      State.applyDeferred g s (.attach id divisor tag) =
        { s with
            ctx := s.ctx.withGroup g fun x => { x with list := x.list ++ [⟨id, divisor, .ext tag⟩] }
            env := { s.env with allocs := s.env.allocs.tail } })
    ∧ ((s.ctx.group? g = none ∨ divisor = 0 ∨ ∃ grp, s.ctx.group? g = some grp ∧ CapReached s.cfg.capDividers grp.list.length) →
        State.applyDeferred g s (.attach id divisor tag) = s)

/-! ## Host commands (47_clock_divider.md R255 to R268; 60_exceptions.md R278) -/

/-- R11, R238, R290, in the form of the model's input tapes (log 8, 9): between commands a step runs the next command of the host, whole, and does nothing where none has
arrived; commands the environment posted are run one after the other, whole, and then what was running goes on. And R255, R256: a command the Context's state does not allow, or that is not in the list of R256 inside a rendering call, is refused with InvalidValue and changes
nothing else. -/
def Obligations.CommandGate : Prop :=
  (∀ s : State, s.ctl = [] →
    (∀ c later, s.env.host = c :: later → step s = .next (runCommand c { s with env := { s.env with host := later } }))
    ∧ (s.env.host = [] → step s = .next s))
  ∧ (∀ (s : State) (rest : List Frame),
    (∀ c later, s.ctl = .post (c :: later) :: rest → step s = .next (runCommand c { s with ctl := .post later :: rest }))
    ∧ (s.ctl = .post [] :: rest → step s = .next { s with ctl := rest }))
  ∧ ∀ (c : Command) (s : State),
    ((s.ctx.state ≠ .running ∧ ∀ n r p, c ≠ .init n r p) ∨ (s.ctx.state ≠ .uninitialized ∧ ∃ n r p, c = .init n r p)
      ∨ (s.ctx.flags.ingen = true ∧ (∀ g d t, c ≠ .dividerAttach g d t) ∧ (∀ d, c ≠ .dividerDetach d)
          ∧ (∀ d v, c ≠ .dividerSetDivisor d v) ∧ (∀ a b, c ≠ .getAttr a b) ∧ (∀ a b v, c ≠ .setAttr a b v)
          ∧ ∀ t, c ≠ .trackStatus t)) →
    runCommand c s = { s with out := s.out ++ [.reply (.error .invalidValue)] }

/-- R278, R279: a command that ends with an error code has changed no state of the Context, of any interpreter or of any port, and presented nothing but its answer. -/
def Obligations.RefusalsChangeNothing : Prop :=
  ∀ (c : Command) (s : State) (e : ErrCode),
    (runCommand c s).out = s.out ++ [.reply (.error e)] →
    (runCommand c s).ctx = s.ctx ∧ (runCommand c s).interps = s.interps ∧ (runCommand c s).ctl = s.ctl
    ∧ (runCommand c s).cfg = s.cfg

/-- R257, R279: Init checks its arguments and, where the allocation, asked for after them (log 7, 21), succeeds, leaves the values of 10_state.md R49's column "after Init". The values before
Init, which nothing here reads, are the model's (log 3). -/
def Obligations.InitValues : Prop :=
  ∀ (nchan rate : Int) (period : FixedTime) (s : State),
    s.ctx.state = .uninitialized → s.ctx.flags.ingen = false →
    let ok := 1 ≤ nchan ∧ nchan ≤ s.cfg.maxChannels ∧ s.cfg.minRate ≤ rate ∧ rate ≤ s.cfg.maxRate ∧ ftIsPositive period = true
    (ok → ∃ x, Allocates (.init nchan rate period) s False x .done
      ∧ x.state = .running ∧ x.nchan = nchan ∧ (x.rate : Int) = rate ∧ x.now = 0
      ∧ x.master.period = period ∧ x.master.tickCount = 0 ∧ x.master.next = ⟨0, 0⟩
      ∧ x.master.groups = [⟨0, [], [], false⟩, ⟨1, [], [], false⟩]
      ∧ x.clocks = [] ∧ x.tracks = [] ∧ x.units = [] ∧ x.flags = ⟨false, false⟩)
    ∧ (¬ok → Refuses (.init nchan rate period) s .invalidValue)

/-- R301, R303: Reset zeroes every clock and port, empties every queue, resets every attached interpreter and the time, keeps everything else, and presents nothing but
its answer. -/
def Obligations.ResetSequence : Prop :=
  ∀ s : State,
    s.ctx.state = .running → s.ctx.flags.ingen = false →
    let u := runCommand .reset s
    let quiet := fun g : Group => { g with queue := [], inPass := false }
    let zeroed := fun c : Clock => { c with tickCount := 0, next := ⟨0, 0⟩, groups := c.groups.map quiet }
    u.ctx =
      { s.ctx with
          master := zeroed s.ctx.master
          clocks := s.ctx.clocks.map zeroed
          tracks := s.ctx.tracks.map fun p => { p with waitc := 0, err := .ok }
          now := 0
          flags := { s.ctx.flags with clkrst := false } }
    ∧ (∀ t, (∃ p ∈ s.ctx.tracks, p.track = t) →
        let i := u.interp t
        i.bind = (s.interp t).bind ∧ i.pc = 0 ∧ i.sp = 0 ∧ (∀ w ∈ i.stack, w = 0)
        ∧ i.stepc = 0 ∧ i.atkc = 0 ∧ i.relc = 0 ∧ i.mutc = 0 ∧ i.arpc = 0 ∧ i.dur = 0 ∧ i.lastw = 0
        ∧ i.tflags.word = 0 ∧ i.status.word = 0
        ∧ (∀ w ∈ i.arp, w = 0) ∧ i.arplen = 0 ∧ i.arpidx = 0 ∧ i.arpspeed = 0 ∧ i.basenote = 0)
    ∧ (∀ t, (∀ p ∈ s.ctx.tracks, p.track ≠ t) → u.interp t = s.interp t)
    ∧ u.out = s.out ++ [.reply .done] ∧ u.env = s.env ∧ u.ctl = s.ctl

/-- R304: two Resets in a row leave the Context and every interpreter as one does. -/
def Obligations.ResetIdempotent : Prop :=
  ∀ s : State,
    s.ctx.state = .running → s.ctx.flags.ingen = false →
    (runCommand .reset (runCommand .reset s)).ctx = (runCommand .reset s).ctx
    ∧ ∀ t, (runCommand .reset (runCommand .reset s)).interp t = (runCommand .reset s).interp t

/-- R259 to R261, R265, R72, R278, R279: the commands that bind, attach, detach, reset and report tracks, attach and detach clocks and units, and Dispose, in the
state Running outside a rendering call: what each changes and answers, and when it is refused. TrackBind resets the interpreter and gives it the program,
word for word, and the tables; TrackAttach, TrackDetach and Dispose touch no interpreter. The model's choices in it: the allocation (log 7), that
CAP_CLOCKS counts the auxiliary clocks (log 33), the order of the checks (log 21), the numbers of groups (log 16) and divider identifiers (log 17), the refusal of a program of 2^32 words
(log 19), ERR of a track without a port (log 20), and the clock numbers of ClockDetach (log 26). -/
def Obligations.BindAndAttach : Prop :=
  ∀ s : State,
    s.ctx.state = .running → s.ctx.flags.ingen = false →
    (∀ (t : Track) (program itab wtab : List Word),
      (s.ctx.port? t = none → program.length < 2 ^ 32 →
        let u := runCommand (.trackBind t program itab wtab) s
        (∀ k w, program[k]? = some w → (u.interp t).bind.pm.readWord k = w)
        ∧ (u.interp t).bind.proglen.toNat = program.length ∧ (u.interp t).bind.itab = itab ∧ (u.interp t).bind.wtab = wtab
        ∧ u.interp t = Interp.fresh s.cfg (u.interp t).bind
        ∧ (∀ v, v ≠ t → u.interp v = s.interp v)
        ∧ { u with interps := s.interps } = { s with out := s.out ++ [.reply .done] })
      ∧ (s.ctx.port? t ≠ none ∨ 2 ^ 32 ≤ program.length → Refuses (.trackBind t program itab wtab) s .invalidValue))
    ∧ (∀ (t : Track) (g : GroupNo) (divisor : Word),
      (∀ grp, s.bound t = true → s.ctx.port? t = none → s.ctx.group? g = some grp → divisor ≠ 0 →
        Allocates (.trackAttach t g divisor) s
          (CapReached s.cfg.capTracks s.ctx.tracks.length ∨ CapReached s.cfg.capDividers grp.list.length)
          { s.ctx.withGroup g fun x => { x with list := x.list ++ [⟨s.ctx.nextDivider, divisor, .track t⟩] } with
              tracks := s.ctx.tracks ++ [⟨t, s.ctx.nextDivider, 0, .ok⟩]
              nextDivider := s.ctx.nextDivider + 1 }
          (.divider s.ctx.nextDivider))
      ∧ (s.bound t = false ∨ s.ctx.port? t ≠ none ∨ s.ctx.group? g = none ∨ divisor = 0 →
          Refuses (.trackAttach t g divisor) s .invalidValue))
    ∧ (∀ t : Track,
      (s.ctx.Linked → ∀ p, s.ctx.port? t = some p →
        ∃ g d, s.ctx.divider? p.divider = some (g, d) ∧ Answers (.trackDetach t) s
          { s.ctx.withGroup g.num fun x => { x with list := x.list.filter fun e => e.id != p.divider } with
              tracks := s.ctx.tracks.filter fun q => q.track != t } .done)
      ∧ (s.ctx.port? t = none → Refuses (.trackDetach t) s .invalidValue))
    ∧ (∀ t : Track,
      (s.bound t = true →
        let u := runCommand (.trackReset t) s
        u.interp t = Interp.fresh s.cfg (s.interp t).bind ∧ (∀ v, v ≠ t → u.interp v = s.interp v)
        ∧ { u with interps := s.interps } =
            { s with
                ctx := { s.ctx with tracks := s.ctx.tracks.map fun p => if p.track = t then { p with waitc := 0, err := .ok } else p }
                out := s.out ++ [.reply .done] }
        ∧ Answers (.trackStatus t) s s.ctx
            (.status (s.interp t).status.done (s.interp t).status.fault ((s.ctx.port? t).map (·.err)) (s.interp t).pc))
      ∧ (s.bound t = false → Refuses (.trackReset t) s .invalidValue ∧ Refuses (.trackStatus t) s .invalidValue))
    ∧ (∀ period : FixedTime,
      (ftIsPositive period = true →
        Allocates (.clockAttach period) s (CapReached s.cfg.capClocks s.ctx.clocks.length)
          { s.ctx with
              clocks := s.ctx.clocks ++ [⟨period, 0, ⟨s.ctx.now, 0⟩, [⟨s.ctx.nextGroup, [], [], false⟩]⟩]
              nextGroup := s.ctx.nextGroup + 1 }
          (.group s.ctx.nextGroup))
      ∧ (ftIsPositive period = false → Refuses (.clockAttach period) s .invalidValue))
    ∧ (∀ i : Nat,
      (s.ctx.Linked → ∀ c, s.ctx.clocks[i]? = some c →
        let free := fun p : Port => ∀ g ∈ c.groups, ∀ d ∈ g.list, d.target ≠ .track p.track
        Answers (.clockDetach (i + 1)) s
          { s.ctx with clocks := s.ctx.clocks.eraseIdx i, tracks := s.ctx.tracks.filter fun p => decide (free p) } .done)
      ∧ (s.ctx.clocks[i]? = none → Refuses (.clockDetach (i + 1)) s .invalidValue))
    ∧ Refuses (.clockDetach 0) s .invalidValue
    ∧ (∀ u : UnitId,
      (u ∉ s.ctx.units → Answers (.unitAttach u) s { s.ctx with units := s.ctx.units ++ [u] } .done
        ∧ Refuses (.unitDetach u) s .invalidValue)
      ∧ (u ∈ s.ctx.units → Answers (.unitDetach u) s { s.ctx with units := s.ctx.units.filter fun v => v != u } .done
        ∧ Refuses (.unitAttach u) s .invalidValue))
    ∧ Answers .dispose s
        { s.ctx with
            state := .disposed
            master := { s.ctx.master with groups := s.ctx.master.groups.map fun g => { g with list := [] } }
            clocks := []
            tracks := []
            units := [] } .done

/-- R266, R267, R278, R280: the rendering commands: Generate answers the frames it was asked for, and refuses a negative number; GenerateToTime, refused where its
capacity is below 1, generates chunks of at most its capacity until the floor of its
end time, then answers the total; a chunk not acknowledged ends it with InvalidReturnValue and nothing undone. The answer is
read from the model's input tape, any answer where that is empty (log 10); at the callback the environment may post commands (log 9). -/
def Obligations.RenderingCommands : Prop :=
  (∀ (s : State) (n : Nat), s.ctx.state = .running → s.ctx.flags.ingen = false →
    let u := runCommand (.generate n) s
    u = { s with ctl := .core n 0 .head :: .generate n :: s.ctl, ctx := { s.ctx with flags := { s.ctx.flags with ingen := true } } })
  ∧ (∀ (s : State) (n : Int), s.ctx.state = .running → s.ctx.flags.ingen = false → n < 0 → Refuses (.generate n) s .invalidValue)
  ∧ (∀ (s : State) (endTime : FixedTime) (cap : Int), s.ctx.state = .running → s.ctx.flags.ingen = false →
      (1 ≤ cap → runCommand (.generateToTime endTime cap) s =
        { s with
            ctl := .toTime (ftFloor endTime) cap.toNat 0 :: s.ctl
            ctx := { s.ctx with flags := { s.ctx.flags with ingen := true } } })
      ∧ (cap < 1 → Refuses (.generateToTime endTime cap) s .invalidValue))
  ∧ (∀ (s : State) (n : Nat) (rest : List Frame), s.ctl = .generate n :: rest →
      step s = .next { s with
        ctl := rest, ctx := { s.ctx with flags := { s.ctx.flags with ingen := false } }, out := s.out ++ [.reply (.frames n)] })
  ∧ (∀ (s : State) (e : Int) (cap total : Nat) (rest : List Frame), s.ctl = .toTime e cap total :: rest →
      (s.ctx.now.toInt < e →
        ∃ m : Nat, (m : Int) = min (cap : Int) (e - s.ctx.now.toInt)
          ∧ step s = .next { s with ctl := .core m 0 .head :: .callback e cap total m :: rest })
      ∧ (e ≤ s.ctx.now.toInt →
          step s = .next { s with
            ctl := rest, ctx := { s.ctx with flags := { s.ctx.flags with ingen := false } }, out := s.out ++ [.reply (.frames total)] }))
  ∧ (∀ (s : State) (e : Int) (cap total m : Nat) (rest : List Frame),
      s.ctl = .callback e cap total m :: rest →
      let posted := fun u : State =>
        match s.env.posts with
        | [] => u
        | cmds :: later => { u with env := { u.env with posts := later }, ctl := .post cmds :: u.ctl }
      let answered := fun (ok : Bool) (env : Env) =>
        { s with
            ctl := (if ok then .toTime e cap (total + m) else .unacknowledged) :: rest
            env := env
            out := s.out ++ [.writeCallback m] }
      (∀ ok more, s.env.acks = ok :: more → step s = .next (posted (answered ok { s.env with acks := more })))
      ∧ (s.env.acks = [] →
          ∃ ok, step s = .next (posted (answered ok { s.env with ackCount := s.env.ackCount + 1 }))))
  ∧ ∀ (s : State) (rest : List Frame), s.ctl = .unacknowledged :: rest →
      step s = .next { s with
        ctl := rest, ctx := { s.ctx with flags := { s.ctx.flags with ingen := false } }
        out := s.out ++ [.reply (.error .invalidReturnValue)] }

/-- R268, R226, R264: what GetAttr answers and SetAttr writes; the read-only and the unknown attributes are refused with InvalidAttribute, an index that names nothing and a
value out of range with InvalidValue. SetAttr of a period writes the clock's period and nothing else; of a divisor it is DividerSetDivisor. That a value of
the other kind is refused is the model's reading (log 23). -/
def Obligations.Attributes : Prop :=
  ∀ (s : State) (id index : Nat),
    s.ctx.state = .running →
    let clocks := s.ctx.master :: s.ctx.clocks
    let answers := fun v : AttrValue => Answers (.getAttr id index) s s.ctx (.attr v)
    (id = 1 → answers (.time ⟨s.ctx.now, 0⟩))
    ∧ (∀ c, clocks[index]? = some c → (id = 2 → answers (.time c.period)) ∧ (id = 6 → answers (.num c.tickCount.toNat)))
    ∧ (∀ g d, s.ctx.divider? index = some (g, d) → id = 3 → answers (.num d.divisor.toNat))
    ∧ (id = 4 → answers (.num s.ctx.nchan)) ∧ (id = 5 → answers (.num s.ctx.rate))
    ∧ (id = 0 ∨ 6 < id → Refuses (.getAttr id index) s .invalidAttribute)
    ∧ ((id = 2 ∨ id = 6) ∧ clocks.length ≤ index ∨ id = 3 ∧ s.ctx.divider? index = none →
        Refuses (.getAttr id index) s .invalidValue)
    ∧ (∀ v, id ≠ 2 → id ≠ 3 → Refuses (.setAttr id index v) s .invalidAttribute)
    ∧ (∀ p : FixedTime, id = 2 →
        (index < clocks.length → ftIsPositive p = true →
          ∃ x, Answers (.setAttr id index (.time p)) s x .done
            ∧ x.master :: x.clocks = clocks.modify index (fun c => { c with period := p })
            ∧ { x with master := s.ctx.master, clocks := s.ctx.clocks } = s.ctx)
        ∧ (clocks.length ≤ index ∨ ftIsPositive p = false → Refuses (.setAttr id index (.time p)) s .invalidValue))
    ∧ (∀ v : Nat, id = 3 →
        (v < 2 ^ 32 →
          runCommand (.setAttr id index (.num v)) s = runCommand (.dividerSetDivisor index (BitVec.ofNat 32 v)) s)
        ∧ (2 ^ 32 ≤ v ∨ v = 0 ∧ (∀ g d, s.ctx.divider? index = some (g, d) → g.inPass = false) ∨ s.ctx.divider? index = none →
            Refuses (.setAttr id index (.num v)) s .invalidValue))
    ∧ (∀ (n : Nat) (p : FixedTime),
        (id = 2 → Refuses (.setAttr id index (.num n)) s .invalidValue)
        ∧ (id = 3 → Refuses (.setAttr id index (.time p)) s .invalidValue))

/-! ## Register images and codes -/

/-- R26, R27, R45, R50, R121, R270: the bits of TFLAGS, STATUS and CTXFLAGS, every other bit 0, the result of an invocation on a bus, and the codes of the sink events and
the error codes. -/
def Obligations.RegisterImages : Prop :=
  (∀ (f : TFlags) (j : Nat), f.word.getLsbD j =
    ([f.hasStep, f.hasAttack, f.hasRelease, f.hasMute, f.hasArpeggio, false, false, false, f.intrAttack, f.intrRelease,
      f.intrMute].getD j false))
  ∧ (∀ x : Status, x.word.getLsbD 0 = x.done
      ∧ x.word.extractLsb' 1 2 = (match x.fault with | none => 0 | some .stackOverflow => 1 | some .unknownOpcode => 2)
      ∧ x.word.extractLsb' 3 29 = 0)
  ∧ (∀ (f : CtxFlags) (j : Nat), f.word.getLsbD j = [f.clkrst, f.ingen].getD j false)
  ∧ [SinkKind.attack, .release, .mute, .arpnote, .volume, .panning, .pitch, .dutycycle, .phasewrap, .mastervolume, .instrument,
      .waveformBuiltin, .waveformCustom].map (·.code) = [1, 2, 3, 4, 5, 6, 7, 8, 9, 10, 11, 12, 13]
  ∧ [ErrCode.ok, .allocation, .invalidAttribute, .invalidValue, .invalidReturnValue, .interpreterFault].map (·.code) = [0, 1, 2, 3, 4, 5]
  ∧ ∀ w : Word, (InvResult.ok w).bus = (0, w) ∧ InvResult.done.bus = (1, 0)
      ∧ (InvResult.error .stackOverflow).bus = (2, 1) ∧ (InvResult.error .unknownOpcode).bus = (2, 2)

/-- R99: the words of a program's statements are as many as the statements' sizes say, so that the address of a label, the sum of the sizes before it, is where the
words of the next instruction begin. -/
def Obligations.LabelsAreWordAddresses : Prop :=
  ∀ (before after : List Statement) (name : List Char) (labels : List (List Char × Nat)) (a : Nat) (ws : List Word),
    wordsOf labels (before ++ .define name :: after) = some ws →
    (name, a + (before.map Statement.size).sum) ∈ labelsFrom a (before ++ .define name :: after)
    ∧ ∃ ws₁ ws₂, wordsOf labels before = some ws₁ ∧ wordsOf labels after = some ws₂ ∧ ws = ws₁ ++ ws₂
      ∧ ws₁.length = (before.map Statement.size).sum

/-! ## Invariants -/

/-- 10_state.md R31 (a), (b), (c), (f), R22, R27, R28: every step keeps every interpreter sound, its program image in canonical form. -/
def Obligations.StepKeepsInterpsSound : Prop :=
  ∀ s u : State, s.InterpsSound → step s = .next u → u.InterpsSound

/-- 10_state.md R31 (d), (e), R121: every step keeps an interpreter that is not being invoked at rest, done with LASTW 0 or waiting for the least of its armed counters,
and the running one fit for its phase; in particular Ok(0) is never returned. -/
def Obligations.StepKeepsPhasesFit : Prop :=
  ∀ s u : State, s.PhasesFit → step s = .next u → u.PhasesFit

/-- 10_state.md R41 to R47, 47_clock_divider.md R262: every step keeps the Context sound and its tracks and dividers linked. -/
def Obligations.StepKeepsContextSound : Prop :=
  ∀ s u : State, s.ctx.Sound → s.ctx.Linked → step s = .next u → u.ctx.Sound ∧ u.ctx.Linked

/-- The machine at power-on, whose values are the model's choices (log 3, 4), satisfies the invariants. -/
def Obligations.ResetIsSound : Prop :=
  State.reset.InterpsSound ∧ State.reset.PhasesFit ∧ State.reset.ctx.Sound ∧ State.reset.ctx.Linked
end

