-- ==== Sys2Proof/Laws/State.lean ====
section
/-! SUPPORT. What each update of the machine leaves in each field, one lemma per field and update. -/

namespace Sys2Proof.Machine

/-! ## One event on an output port -/

@[simp] theorem State.emit_cfg (s : State) (e : Event) : (s.emit e).cfg = s.cfg := rfl
@[simp] theorem State.emit_ctx (s : State) (e : Event) : (s.emit e).ctx = s.ctx := rfl
@[simp] theorem State.emit_interps (s : State) (e : Event) : (s.emit e).interps = s.interps := rfl
@[simp] theorem State.emit_ctl (s : State) (e : Event) : (s.emit e).ctl = s.ctl := rfl
@[simp] theorem State.emit_env (s : State) (e : Event) : (s.emit e).env = s.env := rfl
@[simp] theorem State.emit_out (s : State) (e : Event) : (s.emit e).out = s.out ++ [e] := rfl
@[simp] theorem State.emit_cur (s : State) (e : Event) : (s.emit e).cur = s.cur := rfl
@[simp] theorem State.emit_interp (s : State) (e : Event) (u : Track) : (s.emit e).interp u = s.interp u := rfl
@[simp] theorem State.emit_it (s : State) (e : Event) : (s.emit e).it = s.it := rfl

@[simp] theorem State.sink_cfg (s : State) (k : SinkKind) (w : Word) : (s.sink k w).cfg = s.cfg := rfl
@[simp] theorem State.sink_ctx (s : State) (k : SinkKind) (w : Word) : (s.sink k w).ctx = s.ctx := rfl
@[simp] theorem State.sink_interps (s : State) (k : SinkKind) (w : Word) : (s.sink k w).interps = s.interps := rfl
@[simp] theorem State.sink_ctl (s : State) (k : SinkKind) (w : Word) : (s.sink k w).ctl = s.ctl := rfl
@[simp] theorem State.sink_env (s : State) (k : SinkKind) (w : Word) : (s.sink k w).env = s.env := rfl
@[simp] theorem State.sink_out (s : State) (k : SinkKind) (w : Word) :
    (s.sink k w).out = s.out ++ [.sink s.cur k w] := rfl
@[simp] theorem State.sink_cur (s : State) (k : SinkKind) (w : Word) : (s.sink k w).cur = s.cur := rfl
@[simp] theorem State.sink_interp (s : State) (k : SinkKind) (w : Word) (u : Track) :
    (s.sink k w).interp u = s.interp u := rfl
@[simp] theorem State.sink_it (s : State) (k : SinkKind) (w : Word) : (s.sink k w).it = s.it := rfl

/-! ## One interpreter instance written -/

@[simp] theorem State.setInterp_cfg (s : State) (t : Track) (i : Interp) : (s.setInterp t i).cfg = s.cfg := rfl
@[simp] theorem State.setInterp_ctx (s : State) (t : Track) (i : Interp) : (s.setInterp t i).ctx = s.ctx := rfl
@[simp] theorem State.setInterp_ctl (s : State) (t : Track) (i : Interp) : (s.setInterp t i).ctl = s.ctl := rfl
@[simp] theorem State.setInterp_env (s : State) (t : Track) (i : Interp) : (s.setInterp t i).env = s.env := rfl
@[simp] theorem State.setInterp_out (s : State) (t : Track) (i : Interp) : (s.setInterp t i).out = s.out := rfl
@[simp] theorem State.setInterp_cur (s : State) (t : Track) (i : Interp) : (s.setInterp t i).cur = s.cur := rfl

@[simp] theorem State.updIt_cfg (s : State) (f : Interp → Interp) : (s.updIt f).cfg = s.cfg := rfl
@[simp] theorem State.updIt_ctx (s : State) (f : Interp → Interp) : (s.updIt f).ctx = s.ctx := rfl
@[simp] theorem State.updIt_ctl (s : State) (f : Interp → Interp) : (s.updIt f).ctl = s.ctl := rfl
@[simp] theorem State.updIt_env (s : State) (f : Interp → Interp) : (s.updIt f).env = s.env := rfl
@[simp] theorem State.updIt_out (s : State) (f : Interp → Interp) : (s.updIt f).out = s.out := rfl
@[simp] theorem State.updIt_cur (s : State) (f : Interp → Interp) : (s.updIt f).cur = s.cur := rfl

/-! ## The Context changed -/

@[simp] theorem State.updCtx_cfg (s : State) (f : Context → Context) : (s.updCtx f).cfg = s.cfg := rfl
@[simp] theorem State.updCtx_ctx (s : State) (f : Context → Context) : (s.updCtx f).ctx = f s.ctx := rfl
@[simp] theorem State.updCtx_interps (s : State) (f : Context → Context) : (s.updCtx f).interps = s.interps := rfl
@[simp] theorem State.updCtx_ctl (s : State) (f : Context → Context) : (s.updCtx f).ctl = s.ctl := rfl
@[simp] theorem State.updCtx_env (s : State) (f : Context → Context) : (s.updCtx f).env = s.env := rfl
@[simp] theorem State.updCtx_out (s : State) (f : Context → Context) : (s.updCtx f).out = s.out := rfl
@[simp] theorem State.updCtx_cur (s : State) (f : Context → Context) : (s.updCtx f).cur = s.cur := rfl
@[simp] theorem State.updCtx_interp (s : State) (f : Context → Context) (u : Track) :
    (s.updCtx f).interp u = s.interp u := rfl

@[simp] theorem State.setIngen_cfg (s : State) (b : Bool) : (s.setIngen b).cfg = s.cfg := rfl
@[simp] theorem State.setIngen_interps (s : State) (b : Bool) : (s.setIngen b).interps = s.interps := rfl
@[simp] theorem State.setIngen_ctl (s : State) (b : Bool) : (s.setIngen b).ctl = s.ctl := rfl
@[simp] theorem State.setIngen_env (s : State) (b : Bool) : (s.setIngen b).env = s.env := rfl
@[simp] theorem State.setIngen_out (s : State) (b : Bool) : (s.setIngen b).out = s.out := rfl
@[simp] theorem State.setIngen_flags (s : State) (b : Bool) :
    (s.setIngen b).ctx.flags = { s.ctx.flags with ingen := b } := rfl

/-! ## An activation started -/

@[simp] theorem State.push_cfg (s : State) (f : Frame) : (s.push f).cfg = s.cfg := rfl
@[simp] theorem State.push_ctx (s : State) (f : Frame) : (s.push f).ctx = s.ctx := rfl
@[simp] theorem State.push_interps (s : State) (f : Frame) : (s.push f).interps = s.interps := rfl
@[simp] theorem State.push_ctl (s : State) (f : Frame) : (s.push f).ctl = f :: s.ctl := rfl
@[simp] theorem State.push_env (s : State) (f : Frame) : (s.push f).env = s.env := rfl
@[simp] theorem State.push_out (s : State) (f : Frame) : (s.push f).out = s.out := rfl
@[simp] theorem State.push_interp (s : State) (f : Frame) (u : Track) : (s.push f).interp u = s.interp u := rfl

/-! ## The running invocation at another phase -/

@[simp] theorem State.setPhase_cfg (s : State) (p : Phase) : (s.setPhase p).cfg = s.cfg := by
  unfold State.setPhase; split <;> rfl
@[simp] theorem State.setPhase_ctx (s : State) (p : Phase) : (s.setPhase p).ctx = s.ctx := by
  unfold State.setPhase; split <;> rfl
@[simp] theorem State.setPhase_interps (s : State) (p : Phase) : (s.setPhase p).interps = s.interps := by
  unfold State.setPhase; split <;> rfl
@[simp] theorem State.setPhase_env (s : State) (p : Phase) : (s.setPhase p).env = s.env := by
  unfold State.setPhase; split <;> rfl
@[simp] theorem State.setPhase_out (s : State) (p : Phase) : (s.setPhase p).out = s.out := by
  unfold State.setPhase; split <;> rfl
@[simp] theorem State.setPhase_interp (s : State) (p : Phase) (u : Track) : (s.setPhase p).interp u = s.interp u := by
  unfold State.setPhase; split <;> rfl
@[simp] theorem State.setPhase_cur (s : State) (p : Phase) : (s.setPhase p).cur = s.cur := by
  obtain ⟨cfg, ctx, interps, ctl, env, out⟩ := s
  cases ctl with
  | nil => rfl
  | cons f rest => cases f <;> rfl
@[simp] theorem State.setPhase_it (s : State) (p : Phase) : (s.setPhase p).it = s.it := by
  simp [State.it]

/-- The phase written, where an invocation is running. -/
theorem State.setPhase_ctl_of_invoke {s : State} {t : Track} {q : Phase} {rest : List Frame} (p : Phase)
    (h : s.ctl = .invoke t q :: rest) : (s.setPhase p).ctl = .invoke t p :: rest := by
  simp [State.setPhase, h]

/-- The running track, where an invocation is running. -/
theorem State.cur_of_invoke {s : State} {t : Track} {q : Phase} {rest : List Frame}
    (h : s.ctl = .invoke t q :: rest) : s.cur = t := by
  simp [State.cur, h]

end Sys2Proof.Machine
end

