-- ==== Sys2Proof/Laws/Interps.lean ====
section
/-! SUPPORT. Reading an interpreter instance after writing one, and what the shared operations over the running interpreter do. -/

namespace Sys2Proof.Machine

/-- Reading the instance that was written. -/
@[simp] theorem lookupInterp_insert_same (l : List (Track × Interp)) (t : Track) (i : Interp) :
    lookupInterp (insertInterp l t i) t = some i := by
  induction l with
  | nil => simp [insertInterp, lookupInterp]
  | cons p l ih =>
    obtain ⟨u, j⟩ := p
    unfold insertInterp
    split
    · simp [lookupInterp]
    · split
      · simp [lookupInterp]
      · next h => simp [lookupInterp, h, ih]

/-- Reading another instance than the one that was written. -/
theorem lookupInterp_insert_other {t u : Track} (h : u ≠ t) (l : List (Track × Interp)) (i : Interp) :
    lookupInterp (insertInterp l t i) u = lookupInterp l u := by
  induction l with
  | nil => simp [insertInterp, lookupInterp, h]
  | cons p l ih =>
    obtain ⟨v, j⟩ := p
    unfold insertInterp
    split
    · simp [lookupInterp, h]
    · split
      · next hv => subst hv; simp [lookupInterp, h]
      · simp [lookupInterp, ih]

/-- Writing an instance keeps the handles strictly rising. -/
theorem insertInterp_sorted {l : List (Track × Interp)} (t : Track) (i : Interp)
    (h : l.Pairwise fun a b => a.1 < b.1) : (insertInterp l t i).Pairwise fun a b => a.1 < b.1 := by
  induction l with
  | nil => simp [insertInterp]
  | cons p l ih =>
    obtain ⟨u, j⟩ := p
    obtain ⟨h1, h2⟩ := List.pairwise_cons.1 h
    unfold insertInterp
    split
    · next hlt =>
      refine List.pairwise_cons.2 ⟨?_, h⟩
      rintro ⟨v, k⟩ hv
      rcases List.mem_cons.1 hv with hv | hv
      · cases hv; exact hlt
      · exact lt_trans hlt (h1 _ hv)
    · split
      · next he => subst he; exact List.pairwise_cons.2 ⟨h1, h2⟩
      · next hn he =>
        refine List.pairwise_cons.2 ⟨?_, ih h2⟩
        have key : ∀ (l : List (Track × Interp)), (∀ a ∈ l, u < a.1) → u < t →
            ∀ a ∈ insertInterp l t i, u < a.1 := by
          intro l
          induction l with
          | nil => intro _ hut a ha; simp [insertInterp] at ha; subst ha; exact hut
          | cons q l ihl =>
            intro hl hut a ha
            obtain ⟨w, m⟩ := q
            have hw : u < w := hl (w, m) (by simp)
            have hl' : ∀ a ∈ l, u < a.1 := fun a ha => hl a (by simp [ha])
            unfold insertInterp at ha
            split at ha
            · rcases List.mem_cons.1 ha with ha | ha
              · subst ha; exact hut
              · exact hl _ ha
            · split at ha
              · rcases List.mem_cons.1 ha with ha | ha
                · subst ha; exact hut
                · exact hl' _ ha
              · rcases List.mem_cons.1 ha with ha | ha
                · subst ha; exact hw
                · exact ihl hl' hut a ha
        exact key l h1 (lt_of_le_of_ne (not_lt.1 hn) (Ne.symm he))

@[simp] theorem State.setInterp_interp_same (s : State) (t : Track) (i : Interp) :
    (s.setInterp t i).interp t = i := by
  simp [State.setInterp, State.interp]

theorem State.setInterp_interp_other (s : State) {t u : Track} (h : u ≠ t) (i : Interp) :
    (s.setInterp t i).interp u = s.interp u := by
  simp [State.setInterp, State.interp, lookupInterp_insert_other h]

theorem State.setInterp_interp (s : State) (t u : Track) (i : Interp) :
    (s.setInterp t i).interp u = if u = t then i else s.interp u := by
  split
  · next h => subst h; simp
  · next h => exact s.setInterp_interp_other h i

/-- The running interpreter after it is updated. -/
@[simp] theorem State.updIt_it (s : State) (f : Interp → Interp) : (s.updIt f).it = f s.it := by
  unfold State.it; rw [State.updIt_cur]; simp [State.updIt, State.it]

/-- Every other track's interpreter after the running one is updated. -/
theorem State.updIt_interp_other (s : State) {u : Track} (h : u ≠ s.cur) (f : Interp → Interp) :
    (s.updIt f).interp u = s.interp u := s.setInterp_interp_other h _

theorem State.updIt_interp (s : State) (u : Track) (f : Interp → Interp) :
    (s.updIt f).interp u = if u = s.cur then f s.it else s.interp u := s.setInterp_interp _ _ _

/-! ## The operations of the instructions -/

@[simp] theorem State.advance_it (s : State) (n : Nat) :
    (s.advance n).it = { s.it with pc := s.it.pc + BitVec.ofNat 32 n } := by simp [State.advance]
@[simp] theorem State.advance_cfg (s : State) (n : Nat) : (s.advance n).cfg = s.cfg := rfl
@[simp] theorem State.advance_ctx (s : State) (n : Nat) : (s.advance n).ctx = s.ctx := rfl
@[simp] theorem State.advance_ctl (s : State) (n : Nat) : (s.advance n).ctl = s.ctl := rfl
@[simp] theorem State.advance_env (s : State) (n : Nat) : (s.advance n).env = s.env := rfl
@[simp] theorem State.advance_out (s : State) (n : Nat) : (s.advance n).out = s.out := rfl
@[simp] theorem State.advance_cur (s : State) (n : Nat) : (s.advance n).cur = s.cur := rfl

@[simp] theorem State.goto_it (s : State) (a : Word) : (s.goto a).it = { s.it with pc := a } := by simp [State.goto]
@[simp] theorem State.goto_cfg (s : State) (a : Word) : (s.goto a).cfg = s.cfg := rfl
@[simp] theorem State.goto_ctx (s : State) (a : Word) : (s.goto a).ctx = s.ctx := rfl
@[simp] theorem State.goto_ctl (s : State) (a : Word) : (s.goto a).ctl = s.ctl := rfl
@[simp] theorem State.goto_env (s : State) (a : Word) : (s.goto a).env = s.env := rfl
@[simp] theorem State.goto_out (s : State) (a : Word) : (s.goto a).out = s.out := rfl
@[simp] theorem State.goto_cur (s : State) (a : Word) : (s.goto a).cur = s.cur := rfl

@[simp] theorem State.markDone_it (s : State) :
    s.markDone.it = { s.it with status := { s.it.status with done := true } } := by simp [State.markDone]
@[simp] theorem State.markDone_cfg (s : State) : s.markDone.cfg = s.cfg := rfl
@[simp] theorem State.markDone_ctx (s : State) : s.markDone.ctx = s.ctx := rfl
@[simp] theorem State.markDone_ctl (s : State) : s.markDone.ctl = s.ctl := rfl
@[simp] theorem State.markDone_env (s : State) : s.markDone.env = s.env := rfl
@[simp] theorem State.markDone_out (s : State) : s.markDone.out = s.out := rfl
@[simp] theorem State.markDone_cur (s : State) : s.markDone.cur = s.cur := rfl

@[simp] theorem State.doAttack_it (s : State) : s.doAttack.it = s.it.attacked := by simp [State.doAttack]
@[simp] theorem State.doAttack_cfg (s : State) : s.doAttack.cfg = s.cfg := rfl
@[simp] theorem State.doAttack_ctx (s : State) : s.doAttack.ctx = s.ctx := rfl
@[simp] theorem State.doAttack_ctl (s : State) : s.doAttack.ctl = s.ctl := rfl
@[simp] theorem State.doAttack_env (s : State) : s.doAttack.env = s.env := rfl
@[simp] theorem State.doAttack_out (s : State) :
    s.doAttack.out = s.out ++ [.sink s.cur .attack s.it.attackNote] := rfl
@[simp] theorem State.doAttack_cur (s : State) : s.doAttack.cur = s.cur := rfl

/-- What the entry of an interpreter fault writes in the instance (60_exceptions.md R273). -/
@[simp] theorem State.raise_it (s : State) (c : Cause) :
    (s.raise c).it = { s.it with status := { done := true, fault := some c }, lastw := 0 } := by simp [State.raise]
@[simp] theorem State.raise_cfg (s : State) (c : Cause) : (s.raise c).cfg = s.cfg := by simp [State.raise]
@[simp] theorem State.raise_ctx (s : State) (c : Cause) : (s.raise c).ctx = s.ctx := by simp [State.raise]
@[simp] theorem State.raise_env (s : State) (c : Cause) : (s.raise c).env = s.env := by simp [State.raise]
@[simp] theorem State.raise_out (s : State) (c : Cause) : (s.raise c).out = s.out := by simp [State.raise]
@[simp] theorem State.raise_cur (s : State) (c : Cause) : (s.raise c).cur = s.cur := by simp [State.raise]

/-- The invocation in which a fault happens returns Error at once. -/
theorem State.raise_ctl_of_invoke {s : State} {t : Track} {q : Phase} {rest : List Frame} (c : Cause)
    (h : s.ctl = .invoke t q :: rest) : (s.raise c).ctl = .invoke t (.ret (.error c)) :: rest :=
  State.setPhase_ctl_of_invoke _ (by simpa using h)

/-! ## Due resolution (42_timed_envelope.md R155) and the arpeggio cycle (45_arpeggio.md R194) -/

@[simp] theorem State.carryOut_cfg (s : State) (g : Option Gate) : (s.carryOut g).cfg = s.cfg := by
  rcases g with _ | _ | _ | _ <;> rfl
@[simp] theorem State.carryOut_ctx (s : State) (g : Option Gate) : (s.carryOut g).ctx = s.ctx := by
  rcases g with _ | _ | _ | _ <;> rfl
@[simp] theorem State.carryOut_ctl (s : State) (g : Option Gate) : (s.carryOut g).ctl = s.ctl := by
  rcases g with _ | _ | _ | _ <;> rfl
@[simp] theorem State.carryOut_env (s : State) (g : Option Gate) : (s.carryOut g).env = s.env := by
  rcases g with _ | _ | _ | _ <;> rfl
@[simp] theorem State.carryOut_cur (s : State) (g : Option Gate) : (s.carryOut g).cur = s.cur := by
  rcases g with _ | _ | _ | _ <;> rfl

/-- A gate transition changes the interpreter only where it is an attack. -/
theorem State.carryOut_it (s : State) (g : Option Gate) :
    (s.carryOut g).it = if g = some .attack then s.it.attacked else s.it := by
  rcases g with _ | _ | _ | _ <;> simp [State.carryOut]

@[simp] theorem State.resolveDue_cfg (s : State) : s.resolveDue.cfg = s.cfg := by simp [State.resolveDue]
@[simp] theorem State.resolveDue_ctx (s : State) : s.resolveDue.ctx = s.ctx := by simp [State.resolveDue]
@[simp] theorem State.resolveDue_ctl (s : State) : s.resolveDue.ctl = s.ctl := by simp [State.resolveDue]
@[simp] theorem State.resolveDue_env (s : State) : s.resolveDue.env = s.env := by simp [State.resolveDue]
@[simp] theorem State.resolveDue_cur (s : State) : s.resolveDue.cur = s.cur := by simp [State.resolveDue]

/-- What resolving the due events does to the running interpreter, once for every caller. -/
theorem State.resolveDue_it (s : State) :
    s.resolveDue.it =
      (if s.it.markDue.winner = some .attack then s.it.markDue.attacked else s.it.markDue).clearIntr := by
  simp [State.resolveDue, State.carryOut_it]

@[simp] theorem State.arpCycleIfDue_cfg (s : State) : s.arpCycleIfDue.cfg = s.cfg := by
  unfold State.arpCycleIfDue; split <;> rfl
@[simp] theorem State.arpCycleIfDue_ctx (s : State) : s.arpCycleIfDue.ctx = s.ctx := by
  unfold State.arpCycleIfDue; split <;> rfl
@[simp] theorem State.arpCycleIfDue_ctl (s : State) : s.arpCycleIfDue.ctl = s.ctl := by
  unfold State.arpCycleIfDue; split <;> rfl
@[simp] theorem State.arpCycleIfDue_env (s : State) : s.arpCycleIfDue.env = s.env := by
  unfold State.arpCycleIfDue; split <;> rfl
@[simp] theorem State.arpCycleIfDue_cur (s : State) : s.arpCycleIfDue.cur = s.cur := by
  unfold State.arpCycleIfDue; split <;> rfl

/-- What the arpeggio cycle does to the running interpreter. -/
theorem State.arpCycleIfDue_it (s : State) :
    s.arpCycleIfDue.it = if s.it.arpDue then s.it.cycled else s.it := by
  unfold State.arpCycleIfDue; split <;> simp

/-- The cycle timer after it is loaded or disarmed, and nothing else. -/
theorem Interp.rearm_cases (i : Interp) :
    (i.arpActive = true ∧ i.rearm = { i with arpc := i.arpspeed, tflags := { i.tflags with hasArpeggio := true } })
    ∨ (i.arpActive = false ∧ i.rearm = { i with tflags := { i.tflags with hasArpeggio := false } }) := by
  unfold Interp.rearm
  cases h : i.arpActive <;> simp

/-- What an attack writes in the instance: the arpeggio unit and its armed flag only (45_arpeggio.md R195). -/
theorem Interp.attacked_cases (i : Interp) :
    ∃ idx, i.attacked = { i with arpidx := idx, arpc := i.arpspeed, tflags := { i.tflags with hasArpeggio := true } }
        ∧ i.arpActive = true
      ∨ i.attacked = { i with arpidx := idx, tflags := { i.tflags with hasArpeggio := false } } ∧ i.arpActive = false := by
  refine ⟨if 1 ≤ i.arplen then 1 % i.arplen else 0, ?_⟩
  rcases Interp.rearm_cases { i with arpidx := if 1 ≤ i.arplen then 1 % i.arplen else 0 } with ⟨h, e⟩ | ⟨h, e⟩
  · exact .inl ⟨e, h⟩
  · exact .inr ⟨e, h⟩

/-- The note an attack sounds, as a sum of words (45_arpeggio.md R197). -/
theorem Interp.attackNote_eq (i : Interp) :
    i.attackNote = if 1 ≤ i.arplen then i.basenote + i.arp.getD 0 0 else i.basenote := by
  unfold Interp.attackNote noteSum wrap32 s32
  simp [BitVec.ofInt_add]

/-- The note of a cycle, as a sum of words (45_arpeggio.md R197). -/
theorem Interp.cycleNote_eq (i : Interp) : i.cycleNote = i.basenote + i.arp.getD i.arpidx 0 := by
  unfold Interp.cycleNote noteSum wrap32 s32
  simp [BitVec.ofInt_add]

/-- The due events and the cycle move neither the cursor nor the step counter, and end nothing. -/
theorem State.resolved_keeps (s : State) :
    let i := s.resolveDue.arpCycleIfDue.it
    i.pc = s.it.pc ∧ i.stepc = s.it.stepc ∧ i.tflags.hasStep = s.it.tflags.hasStep ∧ i.status = s.it.status
      ∧ i.lastw = s.it.lastw := by
  have hm : s.it.markDue.pc = s.it.pc ∧ s.it.markDue.stepc = s.it.stepc ∧ s.it.markDue.tflags.hasStep = s.it.tflags.hasStep
      ∧ s.it.markDue.status = s.it.status ∧ s.it.markDue.lastw = s.it.lastw := ⟨rfl, rfl, rfl, rfl, rfl⟩
  have ha : ∀ i : Interp, i.attacked.pc = i.pc ∧ i.attacked.stepc = i.stepc ∧ i.attacked.tflags.hasStep = i.tflags.hasStep
      ∧ i.attacked.status = i.status ∧ i.attacked.lastw = i.lastw := by
    intro i
    obtain ⟨_, ⟨h, -⟩ | ⟨h, -⟩⟩ := i.attacked_cases <;> rw [h] <;> exact ⟨rfl, rfl, rfl, rfl, rfl⟩
  dsimp only
  rw [State.arpCycleIfDue_it, State.resolveDue_it]
  split <;> split <;> simp_all [Interp.cycled, Interp.clearIntr]

/-! ## The least of the armed counters (40_interpreter_cycle.md R119) -/

/-- The least of a list is one of its members and no greater than any. -/
theorem leastOf_least {l : List Word} {w : Word} (h : leastOf l = some w) : w ∈ l ∧ ∀ v ∈ l, w ≤ v := by
  induction l generalizing w with
  | nil => cases h
  | cons a l ih =>
    unfold leastOf at h
    split at h
    · next hn =>
      cases h
      cases l with
      | nil => simp
      | cons b l => exfalso; unfold leastOf at hn; split at hn <;> cases hn
    · next v hv =>
      obtain ⟨hm, hl⟩ := ih hv
      cases h
      split
      · next hlt =>
        refine ⟨by simp [hm], fun x hx => ?_⟩
        rcases List.mem_cons.1 hx with rfl | hx
        · exact BitVec.le_of_lt hlt
        · exact hl x hx
      · next hlt =>
        refine ⟨by simp, fun x hx => ?_⟩
        rcases List.mem_cons.1 hx with rfl | hx
        · exact BitVec.le_refl _
        · exact BitVec.le_trans (BitVec.not_lt.1 hlt) (hl x hx)

/-- A list that is not empty has a least member. -/
theorem leastOf_exists {l : List Word} (h : l ≠ []) : ∃ w, leastOf l = some w := by
  cases l with
  | nil => exact absurd rfl h
  | cons a l => unfold leastOf; split <;> exact ⟨_, rfl⟩

/-- A wait of 0 leaves the instance as it is; any other loads and arms the step counter (43_step.md R169). -/
theorem Interp.yield_cases (n : Word) (i : Interp) :
    (n = 0 ∧ i.yield n = i)
    ∨ (n ≠ 0 ∧ i.yield n = { i with stepc := n, tflags := { i.tflags with hasStep := true } }) := by
  unfold Interp.yield
  by_cases h : n = 0
  · exact .inl ⟨h, if_pos h⟩
  · exact .inr ⟨h, if_neg h⟩

end Sys2Proof.Machine
end

