-- ==== Sys2Proof/Laws/Commands.lean ====
section
/-! SUPPORT. What the host commands, the deferred commands and the drain of a queue do to each part of the machine. -/

namespace Sys2Proof.Machine

/-! ## Answers and allocations -/

@[simp] theorem State.reply_cfg (s : State) (r : Reply) : (s.reply r).cfg = s.cfg := rfl
@[simp] theorem State.reply_ctx (s : State) (r : Reply) : (s.reply r).ctx = s.ctx := rfl
@[simp] theorem State.reply_interps (s : State) (r : Reply) : (s.reply r).interps = s.interps := rfl
@[simp] theorem State.reply_ctl (s : State) (r : Reply) : (s.reply r).ctl = s.ctl := rfl
@[simp] theorem State.reply_env (s : State) (r : Reply) : (s.reply r).env = s.env := rfl
@[simp] theorem State.reply_out (s : State) (r : Reply) : (s.reply r).out = s.out ++ [.reply r] := rfl
@[simp] theorem State.reply_interp (s : State) (r : Reply) (t : Track) : (s.reply r).interp t = s.interp t := rfl

@[simp] theorem State.refuse_cfg (s : State) (e : ErrCode) : (s.refuse e).cfg = s.cfg := rfl
@[simp] theorem State.refuse_ctx (s : State) (e : ErrCode) : (s.refuse e).ctx = s.ctx := rfl
@[simp] theorem State.refuse_interps (s : State) (e : ErrCode) : (s.refuse e).interps = s.interps := rfl
@[simp] theorem State.refuse_ctl (s : State) (e : ErrCode) : (s.refuse e).ctl = s.ctl := rfl
@[simp] theorem State.refuse_env (s : State) (e : ErrCode) : (s.refuse e).env = s.env := rfl
@[simp] theorem State.refuse_out (s : State) (e : ErrCode) : (s.refuse e).out = s.out ++ [.reply (.error e)] := rfl
@[simp] theorem State.refuse_interp (s : State) (e : ErrCode) (t : Track) : (s.refuse e).interp t = s.interp t := rfl

/-- An allocation reads one answer of the environment and changes nothing else (60_exceptions.md R279). -/
theorem State.allocate_rest (s : State) (room : Bool) :
    (s.allocate room).2.cfg = s.cfg ∧ (s.allocate room).2.ctx = s.ctx ∧ (s.allocate room).2.interps = s.interps
    ∧ (s.allocate room).2.ctl = s.ctl ∧ (s.allocate room).2.out = s.out := by
  unfold State.allocate
  split
  · split <;> exact ⟨rfl, rfl, rfl, rfl, rfl⟩
  · exact ⟨rfl, rfl, rfl, rfl, rfl⟩

@[simp] theorem State.allocate_cfg (s : State) (room : Bool) : (s.allocate room).2.cfg = s.cfg := (s.allocate_rest room).1
@[simp] theorem State.allocate_ctx (s : State) (room : Bool) : (s.allocate room).2.ctx = s.ctx := (s.allocate_rest room).2.1
@[simp] theorem State.allocate_interps (s : State) (room : Bool) : (s.allocate room).2.interps = s.interps :=
  (s.allocate_rest room).2.2.1
@[simp] theorem State.allocate_ctl (s : State) (room : Bool) : (s.allocate room).2.ctl = s.ctl :=
  (s.allocate_rest room).2.2.2.1
@[simp] theorem State.allocate_out (s : State) (room : Bool) : (s.allocate room).2.out = s.out :=
  (s.allocate_rest room).2.2.2.2

/-- With nothing on the environment's tape and room in the lists an allocation succeeds. -/
theorem State.allocate_room {s : State} (h : s.env.allocs = []) : s.allocate true = (true, s) := by
  simp [State.allocate, h]

/-- An allocation as one answer and a machine that differs in its inputs only. -/
theorem State.allocate_eq (s : State) (room : Bool) : ∃ b e, s.allocate room = (b, { s with env := e }) := by
  unfold State.allocate
  split
  · split
    · exact ⟨_, s.env, rfl⟩
    · exact ⟨_, _, rfl⟩
  · exact ⟨_, s.env, rfl⟩

/-- What an allocation's outcome leaves, given as the equation a case split produces. -/
theorem State.allocate_of {s u : State} {room b : Bool} (h : s.allocate room = (b, u)) :
    u.cfg = s.cfg ∧ u.ctx = s.ctx ∧ u.interps = s.interps ∧ u.ctl = s.ctl ∧ u.out = s.out := by
  have := s.allocate_rest room
  rwa [h] at this

/-! ## Resets (70_reset_and_hazards.md R301, R303) -/

@[simp] theorem State.interpReset_cfg (s : State) (t : Track) : (s.interpReset t).cfg = s.cfg := rfl
@[simp] theorem State.interpReset_ctx (s : State) (t : Track) : (s.interpReset t).ctx = s.ctx := rfl
@[simp] theorem State.interpReset_ctl (s : State) (t : Track) : (s.interpReset t).ctl = s.ctl := rfl
@[simp] theorem State.interpReset_env (s : State) (t : Track) : (s.interpReset t).env = s.env := rfl
@[simp] theorem State.interpReset_out (s : State) (t : Track) : (s.interpReset t).out = s.out := rfl

/-- What interpreter reset of a track leaves in every instance (R301). -/
theorem State.interpReset_interp (s : State) (t u : Track) :
    (s.interpReset t).interp u = if u = t then Interp.fresh s.cfg (s.interp u).bind else s.interp u := by
  unfold State.interpReset
  rw [State.setInterp_interp]
  split
  · next h => rw [h]
  · rfl

/-- The resets of a list of ports touch nothing but the instances. -/
theorem foldl_interpReset_rest (ps : List Port) (s : State) :
    (ps.foldl (fun s p => s.interpReset p.track) s).cfg = s.cfg ∧ (ps.foldl (fun s p => s.interpReset p.track) s).ctx = s.ctx
    ∧ (ps.foldl (fun s p => s.interpReset p.track) s).ctl = s.ctl ∧ (ps.foldl (fun s p => s.interpReset p.track) s).env = s.env
    ∧ (ps.foldl (fun s p => s.interpReset p.track) s).out = s.out := by
  induction ps generalizing s with
  | nil => exact ⟨rfl, rfl, rfl, rfl, rfl⟩
  | cons p ps ih => simpa using ih (s.interpReset p.track)

/-- The resets of a list of ports: every track with a port is reset, every other instance is as before. -/
theorem foldl_interpReset_interp (ps : List Port) (s : State) (t : Track) :
    (ps.foldl (fun s p => s.interpReset p.track) s).interp t =
      if t ∈ ps.map (·.track) then Interp.fresh s.cfg (s.interp t).bind else s.interp t := by
  induction ps generalizing s with
  | nil => simp
  | cons p ps ih =>
    simp only [List.foldl_cons, ih, List.map_cons, List.mem_cons, State.interpReset_cfg, State.interpReset_interp]
    by_cases h : t = p.track
    · simp [h, Interp.fresh]
    · simp [h]

@[simp] theorem State.contextReset_cfg (s : State) : s.contextReset.cfg = s.cfg := (foldl_interpReset_rest _ _).1
@[simp] theorem State.contextReset_ctx (s : State) : s.contextReset.ctx = s.ctx.resetSeq := by
  simp [State.contextReset, (foldl_interpReset_rest _ _).2.1]
@[simp] theorem State.contextReset_ctl (s : State) : s.contextReset.ctl = s.ctl := (foldl_interpReset_rest _ _).2.2.1
@[simp] theorem State.contextReset_env (s : State) : s.contextReset.env = s.env := (foldl_interpReset_rest _ _).2.2.2.1
@[simp] theorem State.contextReset_out (s : State) : s.contextReset.out = s.out := (foldl_interpReset_rest _ _).2.2.2.2

/-- What a Context reset leaves in every instance (R303 step 4). -/
theorem State.contextReset_interp (s : State) (t : Track) :
    s.contextReset.interp t =
      if t ∈ s.ctx.tracks.map (·.track) then Interp.fresh s.cfg (s.interp t).bind else s.interp t :=
  foldl_interpReset_interp _ _ _

/-! ## Deferred commands (47_clock_divider.md R233) -/

/-- A deferred command changes the Context and reads the allocation tape, and nothing else. -/
theorem State.applyDeferred_rest (g : GroupNo) (s : State) (q : Deferred) :
    (State.applyDeferred g s q).cfg = s.cfg ∧ (State.applyDeferred g s q).interps = s.interps
    ∧ (State.applyDeferred g s q).ctl = s.ctl ∧ (State.applyDeferred g s q).out = s.out := by
  unfold State.applyDeferred
  cases q with
  | attach id divisor tag =>
    dsimp only
    split
    · exact ⟨rfl, rfl, rfl, rfl⟩
    · next grp _ =>
      split
      · exact ⟨rfl, rfl, rfl, rfl⟩
      · have h := s.allocate_rest (belowCap s.cfg.capDividers grp.list.length)
        split <;> (next he => rw [he] at h; obtain ⟨h1, -, h3, h4, h5⟩ := h; exact ⟨h1, h3, h4, h5⟩)
  | detach id =>
    dsimp only
    split
    · exact ⟨rfl, rfl, rfl, rfl⟩
    · split <;> exact ⟨rfl, rfl, rfl, rfl⟩
  | setDivisor id divisor =>
    dsimp only
    split
    · exact ⟨rfl, rfl, rfl, rfl⟩
    · split <;> exact ⟨rfl, rfl, rfl, rfl⟩

/-- The drain of a queue changes the Context and reads the allocation tape, and nothing else. -/
theorem State.drainQueue_rest (g : GroupNo) (s : State) :
    (s.drainQueue g).cfg = s.cfg ∧ (s.drainQueue g).interps = s.interps ∧ (s.drainQueue g).ctl = s.ctl
    ∧ (s.drainQueue g).out = s.out := by
  unfold State.drainQueue
  split
  · exact ⟨rfl, rfl, rfl, rfl⟩
  · next grp hg =>
    clear hg
    simp only [State.updCtx_cfg, State.updCtx_interps, State.updCtx_ctl, State.updCtx_out]
    generalize grp.queue = qs
    induction qs generalizing s with
    | nil => exact ⟨rfl, rfl, rfl, rfl⟩
    | cons q qs ih =>
      obtain ⟨h1, h2, h3, h4⟩ := s.applyDeferred_rest g q
      have := ih (State.applyDeferred g s q)
      rwa [h1, h2, h3, h4] at this

/-! ## One host command -/

/-- A command whose checks fail only answers; every other is one of the commands (47_clock_divider.md R255, R256). -/
theorem runCommand_cases (c : Command) (s : State) :
    ((c.allowedIn s.ctx.state = false ∨ (s.ctx.flags.ingen = true ∧ c.allowedInGen = false))
      ∧ runCommand c s = s.refuse .invalidValue)
    ∨ (c.allowedIn s.ctx.state = true ∧ (s.ctx.flags.ingen = true → c.allowedInGen = true)) := by
  unfold runCommand
  cases h1 : c.allowedIn s.ctx.state <;> cases h2 : s.ctx.flags.ingen <;> cases h3 : c.allowedInGen <;> simp

/-- A command that names neither a binding nor a reset leaves every instance as it is; none writes a parameter. -/
theorem runCommand_keeps (c : Command) (s : State) :
    (runCommand c s).cfg = s.cfg
    ∧ ((∀ t p i w, c ≠ .trackBind t p i w) → (∀ t, c ≠ .trackReset t) → c ≠ .reset → (runCommand c s).interps = s.interps) := by
  unfold runCommand
  split
  · exact ⟨rfl, fun _ _ _ => rfl⟩
  · cases c with
    | trackBind t p i w =>
      refine ⟨?_, fun h => absurd rfl (h t p i w)⟩
      simp only [cmdTrackBind]; split <;> rfl
    | trackReset t =>
      refine ⟨?_, fun _ h => absurd rfl (h t)⟩
      simp only [cmdTrackReset]; split <;> rfl
    | reset => exact ⟨by simp [cmdReset], fun _ _ h => absurd rfl h⟩
    | _ =>
      refine (fun h => ⟨h.1, fun _ _ _ => h.2⟩ : _ ∧ _ → _) ?_
      simp only [cmdInit, cmdDispose, cmdTrackAttach, cmdTrackDetach, cmdTrackStatus, cmdClockAttach, cmdClockDetach,
        cmdDividerAttach, cmdDividerDetach, cmdDividerSetDivisor, cmdUnitAttach, cmdUnitDetach, cmdGetAttr, cmdSetAttr,
        cmdGenerate, cmdGenerateToTime, State.attrOr]
      repeat' split
      all_goals first
        | exact ⟨rfl, rfl⟩
        | (have h := State.allocate_of (by assumption); exact ⟨h.1, h.2.2.1⟩)

/-- What a command leaves in every instance: what was there, or the reset values, with the bindings kept but for a TrackBind of the track. -/
theorem runCommand_interp (c : Command) (s : State) (t : Track) :
    (runCommand c s).interp t = s.interp t
    ∨ (runCommand c s).interp t = Interp.fresh s.cfg (s.interp t).bind
    ∨ ∃ p i w, c = .trackBind t p i w ∧ (runCommand c s).interp t = Interp.fresh s.cfg (bindingsOf p i w) := by
  by_cases hb : ∀ u p i w, c ≠ .trackBind u p i w
  · by_cases hr : ∀ u, c ≠ .trackReset u
    · by_cases hx : c = .reset
      · subst hx
        rcases runCommand_cases .reset s with ⟨-, h⟩ | ⟨h1, h2⟩
        · left; rw [h]; rfl
        · have : runCommand .reset s = cmdReset s := by
            unfold runCommand; rw [h1]; cases hi : s.ctx.flags.ingen <;> simp_all
          rw [this, cmdReset, State.reply_interp, State.contextReset_interp]
          split
          · exact .inr (.inl rfl)
          · exact .inl rfl
      · obtain ⟨h1, h2⟩ := runCommand_keeps c s
        left; unfold State.interp; rw [h1, h2 hb hr hx]
    · push Not at hr
      obtain ⟨u, rfl⟩ := hr
      unfold runCommand
      split
      · exact .inl rfl
      · simp only [cmdTrackReset]
        split
        · show (s.interpReset u).interp t = _ ∨ _
          rw [State.interpReset_interp]
          split
          · right; left; show (s.interpReset u).interp t = _; rw [State.interpReset_interp, if_pos (by assumption)]
          · exact .inl rfl
        · exact .inl rfl
  · push Not at hb
    obtain ⟨u, p, i, w, rfl⟩ := hb
    unfold runCommand
    split
    · exact .inl rfl
    · simp only [cmdTrackBind]
      split
      · by_cases h : t = u
        · subst h; right; right; exact ⟨p, i, w, rfl, by simp⟩
        · left; rw [State.reply_interp, State.setInterp_interp_other _ h]
      · exact .inl rfl

/-- A rendering command starts its activation and writes INGEN only; every other leaves the thread of control as it is. -/
theorem runCommand_ctl (c : Command) (s : State) :
    (runCommand c s).ctl = s.ctl
    ∨ (∃ n, (runCommand c s).ctl = .core n 0 .head :: .generate n :: s.ctl)
    ∨ ∃ e cap, (runCommand c s).ctl = .toTime e cap 0 :: s.ctl := by
  unfold runCommand
  split
  · exact .inl rfl
  · cases c with
    | generate n => simp only [cmdGenerate]; split <;> [exact .inr (.inl ⟨_, rfl⟩); exact .inl rfl]
    | generateToTime e cap => simp only [cmdGenerateToTime]; split <;> [exact .inr (.inr ⟨_, _, rfl⟩); exact .inl rfl]
    | _ =>
      left
      simp only [cmdInit, cmdReset, cmdDispose, cmdTrackBind, cmdTrackAttach, cmdTrackDetach, cmdTrackReset, cmdTrackStatus,
        cmdClockAttach, cmdClockDetach, cmdDividerAttach, cmdDividerDetach, cmdDividerSetDivisor, cmdUnitAttach, cmdUnitDetach,
        cmdGetAttr, cmdSetAttr, State.attrOr]
      repeat' split
      all_goals first
        | rfl
        | exact State.contextReset_ctl s
        | (have h := State.allocate_of (by assumption); exact h.2.2.2.1)

end Sys2Proof.Machine
end

