-- ==== Sys2Proof/Laws/FixedTime.lean ====
section
/-! SUPPORT. FixedTime arithmetic through the raw value (46_fixed_time.md R200). -/

namespace Sys2Proof.Machine

/-- A 64-bit result exists exactly where the number is in range, and has its value (R208). -/
theorem int64_eq_some {n : Int} {b : BitVec 64} : int64 n = some b ↔ b.toInt = n := by
  unfold int64
  constructor
  · intro h
    split at h
    · next hr => cases h; rw [BitVec.toInt_ofInt]; apply Int.bmod_eq_of_le <;> omega
    · cases h
  · intro h
    have hb := b.isLt
    have h1 := b.toInt_lt
    have h2 := b.le_toInt
    rw [if_pos (by subst h; constructor <;> simpa using by assumption)]
    rw [← h, BitVec.ofInt_toInt]

/-- The fraction of a raw value. -/
theorem ftRaw_emod (t : FixedTime) : ftRaw t % 2 ^ 20 = t.frac.toNat := by
  unfold ftRaw
  have := t.frac.isLt
  omega

/-- The integer part of a raw value. -/
theorem ftRaw_ediv (t : FixedTime) : ftRaw t / 2 ^ 20 = t.int.toInt := by
  unfold ftRaw
  have := t.frac.isLt
  omega

/-- The raw value determines the FixedTime (R200). -/
theorem ftRaw_injective {t u : FixedTime} (h : ftRaw t = ftRaw u) : t = u := by
  obtain ⟨i, f⟩ := t
  obtain ⟨j, g⟩ := u
  have h1 := ftRaw_ediv ⟨i, f⟩
  have h2 := ftRaw_emod ⟨i, f⟩
  rw [h, ftRaw_ediv] at h1
  rw [h, ftRaw_emod] at h2
  have e1 : i = j := BitVec.eq_of_toInt_eq h1.symm
  have e2 : f = g := BitVec.eq_of_toNat_eq (by exact_mod_cast h2.symm)
  rw [e1, e2]

/-- The lexicographic order is the order of the raw values (R204). -/
theorem ftLt_iff_raw {a b : FixedTime} : ftLt a b = true ↔ ftRaw a < ftRaw b := by
  unfold ftLt ftRaw
  have ha := a.frac.isLt
  have hb := b.frac.isLt
  have e : a.int = b.int ↔ a.int.toInt = b.int.toInt := BitVec.toInt_inj.symm
  simp only [Bool.or_eq_true, Bool.and_eq_true, decide_eq_true_eq, beq_iff_eq, e]
  omega

/-- Where the order does not hold. -/
theorem ftLt_eq_false_iff_raw {a b : FixedTime} : ftLt a b = false ↔ ftRaw b ≤ ftRaw a := by
  rw [← Bool.not_eq_true, ftLt_iff_raw, not_lt]

end Sys2Proof.Machine
end

