-- ==== Sys2Proof/Laws/HostRules.lean ====
section
/-! SUPPORT. The host commands in the terms of Safety.lean: an accepted command is its own meaning, what an allocating command does once its checks pass, and
the Context with one group changed. -/

namespace Sys2Proof.Machine

/-- A command that the Context's state and INGEN allow is not turned away before its own checks (47_clock_divider.md R255, R256). -/
theorem commandGate_open {c : Command} {s : State} (h1 : c.allowedIn s.ctx.state = true)
    (h2 : s.ctx.flags.ingen = false ∨ c.allowedInGen = true) :
    (!c.allowedIn s.ctx.state || (s.ctx.flags.ingen && !c.allowedInGen)) = false := by
  rcases h2 with h2 | h2 <;> simp [h1, h2]

/-- A list is below its capacity exactly where the capacity is not reached. -/
theorem belowCap_eq_false {cap : Option Nat} {n : Nat} : belowCap cap n = false ↔ CapReached cap n := by
  cases cap with
  | none => simp [belowCap, CapReached]
  | some c => simp [belowCap, CapReached]

/-- What a command does that allocates and then either goes on as `go` or answers AllocationError (60_exceptions.md R279). -/
theorem Allocates.of {c : Command} {s : State} {noRoom : Prop} {x : Context} {r : Reply} {room : Bool} {go : State → State}
    (hroom : room = false ↔ noRoom)
    (hrun : runCommand c s =
      match s.allocate room with
      | (true, u) => go u
      | (false, u) => u.refuse .allocation)
    (hgo : ∀ e, go { s with env := e } = { s with ctx := x, env := e, out := s.out ++ [.reply r] }) :
    Allocates c s noRoom x r := by
  have hfull : noRoom → s.allocate room = (false, s) := fun h => by rw [hroom.2 h]; rfl
  have hfree : ¬noRoom → room = true := fun h => by
    cases e : room with
    | true => rfl
    | false => exact absurd (hroom.1 e) h
  refine ⟨fun h => ?_, fun h hd => ?_, fun h hd => ?_⟩
  · unfold Refuses; rw [hrun, hfull h]; rfl
  · obtain ⟨bs, hb⟩ : ∃ bs, s.env.allocs = false :: bs := List.head?_eq_some_iff.1 hd
    have : s.allocate room = (false, { s with env := { s.env with allocs := s.env.allocs.tail } }) := by
      simp [State.allocate, hfree h, hb]
    rw [hrun, this]; rfl
  · have : s.allocate room = (true, { s with env := { s.env with allocs := s.env.allocs.tail } }) := by
      rw [hfree h]
      rcases hb : s.env.allocs with _ | ⟨b, bs⟩
      · rcases s with ⟨_, _, _, _, env, _⟩; cases env; cases hb; rfl
      · cases b
        · simp [hb] at hd
        · simp [State.allocate, hb]
    rw [hrun, this]; exact hgo _

/-- One group changed, in the model's operation. -/
theorem Context.withGroup_eq (c : Context) (g : GroupNo) (f : Group → Group) : c.withGroup g f = c.updGroup g f := rfl

end Sys2Proof.Machine
end

