-- ==== Sys2Proof/Laws/Local.lean ====
section
/-! SUPPORT. Which operations touch only the running interpreter and its sink. -/

namespace Sys2Proof.Machine

/-- From `s` to `t` only the running interpreter is written, its bindings are kept, the running track stays, and only its sink receives events. -/
structure Local (s t : State) : Prop where
  cfg : t.cfg = s.cfg
  ctx : t.ctx = s.ctx
  env : t.env = s.env
  cur : t.cur = s.cur
  bind : t.it.bind = s.it.bind
  others : ∀ u, u ≠ s.cur → t.interp u = s.interp u
  out : ∃ evs, t.out = s.out ++ evs ∧ ∀ e ∈ evs, ∃ k w, e = .sink s.cur k w

theorem Local.refl (s : State) : Local s s :=
  ⟨rfl, rfl, rfl, rfl, rfl, fun _ _ => rfl, [], by simp, by simp⟩

theorem Local.trans {s t u : State} (h : Local s t) (k : Local t u) : Local s u := by
  refine ⟨k.cfg.trans h.cfg, k.ctx.trans h.ctx, k.env.trans h.env, k.cur.trans h.cur, k.bind.trans h.bind, ?_, ?_⟩
  · intro v hv; rw [k.others v (by rw [h.cur]; exact hv), h.others v hv]
  · obtain ⟨e, he, hs⟩ := h.out
    obtain ⟨f, hf, hk⟩ := k.out
    refine ⟨e ++ f, by rw [hf, he, List.append_assoc], ?_⟩
    intro x hx
    rcases List.mem_append.1 hx with hx | hx
    · exact hs x hx
    · rw [← h.cur]; exact hk x hx

/-- Updating the running interpreter without its bindings. -/
theorem Local.updIt (s : State) (f : Interp → Interp) (h : (f s.it).bind = s.it.bind) : Local s (s.updIt f) :=
  ⟨rfl, rfl, rfl, rfl, by simpa using h, fun _ hu => s.updIt_interp_other hu f, [], by simp, by simp⟩

/-- One event on the running track's sink. -/
theorem Local.sink (s : State) (k : SinkKind) (w : Word) : Local s (s.sink k w) :=
  ⟨rfl, rfl, rfl, rfl, rfl, fun _ _ => rfl, [.sink s.cur k w], rfl, by simp⟩

theorem Local.setPhase (s : State) (p : Phase) : Local s (s.setPhase p) :=
  ⟨by simp, by simp, by simp, by simp, by simp, by simp, [], by simp, by simp⟩

theorem Local.advance (s : State) (n : Nat) : Local s (s.advance n) := Local.updIt s _ rfl
theorem Local.goto (s : State) (a : Word) : Local s (s.goto a) := Local.updIt s _ rfl
theorem Local.markDone (s : State) : Local s s.markDone := Local.updIt s _ rfl
theorem Local.raise (s : State) (c : Cause) : Local s (s.raise c) := (Local.updIt s _ rfl).trans (Local.setPhase _ _)

@[simp] theorem Interp.rearm_bind (i : Interp) : i.rearm.bind = i.bind := by
  rcases i.rearm_cases with ⟨-, h⟩ | ⟨-, h⟩ <;> rw [h]
@[simp] theorem Interp.yield_bind (n : Word) (i : Interp) : (i.yield n).bind = i.bind := by
  rcases Interp.yield_cases n i with ⟨-, h⟩ | ⟨-, h⟩ <;> rw [h]
@[simp] theorem Interp.attacked_bind (i : Interp) : i.attacked.bind = i.bind := by simp [Interp.attacked]
@[simp] theorem Interp.loadArp_bind (cfg : Params) (w : Word) (ws : List Word) (i : Interp) :
    (Interp.loadArp cfg w ws i).bind = i.bind := by simp [Interp.loadArp]

theorem Local.doAttack (s : State) : Local s s.doAttack :=
  (Local.updIt s Interp.attacked (by simp)).trans (Local.sink _ _ _)

theorem Local.carryOut (s : State) (g : Option Gate) : Local s (s.carryOut g) := by
  rcases g with _ | _ | _ | _
  · exact Local.refl s
  · exact Local.doAttack s
  · exact Local.sink _ _ _
  · exact Local.sink _ _ _

theorem Local.resolveDue (s : State) : Local s s.resolveDue :=
  ((Local.updIt s Interp.markDue rfl).trans (Local.carryOut _ _)).trans (Local.updIt _ _ rfl)

theorem Local.arpCycleIfDue (s : State) : Local s s.arpCycleIfDue := by
  unfold State.arpCycleIfDue
  split
  · exact (Local.updIt s _ rfl).trans (Local.sink _ _ _)
  · exact Local.refl s

/-- Every instruction is local. -/
theorem exec_local {i : Instr} {s t : State} (h : exec i s = .next t) : Local s t := by
  cases i <;> simp only [exec, execAttack, execRelease, execMute, execArpeggio, execVolume, execPanning, execPitch, execDutycycle,
    execPhasewrap, execMastervolume, setParam, execInstrument, execWaveform, execAttackticks, execReleaseticks, execMuteticks, execStep,
    execStepticks, execCall, execRet, execJump, execGroup, execEndTrack] at h
  case attack note => cases h; exact ((Local.updIt s _ rfl).trans (Local.doAttack _)).trans (Local.advance _ _)
  case arpeggio => cases h; exact (Local.updIt s _ (by simp)).trans (Local.advance _ _)
  case waveform => split at h <;> (cases h; exact (Local.sink _ _ _).trans (Local.advance _ _))
  case attackticks => cases h; exact (Local.updIt s _ rfl).trans (Local.advance _ _)
  case releaseticks => cases h; exact (Local.updIt s _ rfl).trans (Local.advance _ _)
  case muteticks => cases h; exact (Local.updIt s _ rfl).trans (Local.advance _ _)
  case step => cases h; exact (Local.advance _ _).trans (Local.updIt _ _ (by simp))
  case stepticks => cases h; exact ((Local.updIt s _ rfl).trans (Local.advance _ _)).trans (Local.updIt _ _ (by simp))
  case call =>
    split at h <;> cases h
    · exact (Local.updIt s _ rfl).trans (Local.goto _ _)
    · exact Local.raise _ _
  case ret =>
    split at h <;> cases h
    · exact Local.markDone _
    · exact (Local.updIt s _ rfl).trans (Local.goto _ _)
  case jump => cases h; exact Local.goto _ _
  case group => cases h; exact Local.advance _ _
  case endTrack => cases h; exact Local.markDone _
  all_goals (cases h; exact (Local.sink _ _ _).trans (Local.advance _ _))

/-! ## The phases of an invocation (40_interpreter_cycle.md R111) -/

theorem Local.enterStep (s : State) : Local s s.enterStep := by
  unfold State.enterStep
  split
  · exact Local.setPhase _ _
  · exact (Local.updIt s _ rfl).trans (Local.setPhase _ _)

theorem Local.resolveStep (s : State) : Local s s.resolveStep := by
  unfold State.resolveStep
  dsimp only
  refine (Local.resolveDue s).trans ((Local.arpCycleIfDue _).trans ?_)
  split
  · exact Local.setPhase _ _
  · exact (Local.updIt _ _ rfl).trans (Local.setPhase _ _)

theorem State.runStep_local {s t : State} (h : s.runStep = .next t) : Local s t := by
  unfold State.runStep at h
  split at h
  · cases h; exact Local.setPhase _ _
  · split at h
    · exact exec_local h
    · cases h; exact Local.markDone _
    · cases h; exact Local.markDone _
    · cases h; exact Local.raise _ _

theorem State.settleStep_local {s t : State} (h : s.settleStep = .next t) : Local s t := by
  unfold State.settleStep at h
  split at h
  · cases h; exact (Local.updIt s _ rfl).trans (Local.setPhase _ _)
  · split at h
    · cases h
    · cases h
      split
      · exact Local.setPhase _ _
      · exact (Local.updIt s _ rfl).trans (Local.setPhase _ _)

/-- A local change is `Leaves` for the interpreter, events and thread of control it ends with. -/
theorem Local.leaves {s t : State} (h : Local s t) {i : Interp} {evs : List Event} {ctl : List Frame} (hi : t.it = i)
    (ho : t.out = s.out ++ evs) (hc : t.ctl = ctl) : Leaves s t i evs ctl := by
  have hr : t.interp s.cur = i := by rw [← hi, State.it, h.cur]
  refine ⟨hr, ho, hc, h.cfg, h.ctx, h.env, h.others, fun u a => ?_⟩
  by_cases hu : u = s.cur
  · subst hu; rw [hr, ← hi, h.bind]; rfl
  · rw [h.others u hu]

end Sys2Proof.Machine
end

