-- ==== Sys2Proof/Laws/Memory.lean ====
section
/-! SUPPORT. Reading a program image after writing it; every operation keeps the canonical form. -/

namespace Sys2Proof.Machine

theorem Memory.nil_wf : Memory.wf [] := ⟨List.Pairwise.nil, by simp⟩

/-- A byte below every listed address is unlisted. -/
theorem Memory.readByte_below {m : Memory} {a : Nat} (h : ∀ c ∈ m, a < c.1) : m.readByte a = Memory.unlisted := by
  induction m with
  | nil => rfl
  | cons c m ih =>
    have hc := h c (by simp)
    simp only [Memory.readByte, if_neg (Nat.ne_of_lt hc)]
    exact ih fun d hd => h d (by simp [hd])

/-- Every listed address is the written one or was listed before. -/
theorem Memory.mem_writeByte {m : Memory} {a : Nat} {v : Byte} {c : Host.Cell} (h : c ∈ m.writeByte a v) :
    c = (a, v) ∧ v ≠ Memory.unlisted ∨ c ∈ m := by
  induction m with
  | nil => unfold Memory.writeByte at h; split at h <;> simp_all
  | cons d m ih =>
    obtain ⟨b, x⟩ := d
    unfold Memory.writeByte at h
    split at h
    · split at h
      · exact .inr h
      · next hv => rcases List.mem_cons.1 h with h | h
                   · exact .inl ⟨h, hv⟩
                   · exact .inr h
    · split at h
      · split at h
        · exact .inr (List.mem_cons_of_mem _ h)
        · next hv => rcases List.mem_cons.1 h with h | h
                     · exact .inl ⟨h, hv⟩
                     · exact .inr (List.mem_cons_of_mem _ h)
      · rcases List.mem_cons.1 h with h | h
        · exact .inr (by simp [h])
        · rcases ih h with h | h
          · exact .inl h
          · exact .inr (List.mem_cons_of_mem _ h)

/-- A byte write keeps the canonical form. -/
theorem Memory.writeByte_wf {m : Memory} (h : m.wf) (a : Nat) (v : Byte) : (m.writeByte a v).wf := by
  refine ⟨?_, fun c hc => ?_⟩
  · obtain ⟨hs, -⟩ := h
    induction m with
    | nil => unfold Memory.writeByte; split <;> simp
    | cons d m ih =>
      obtain ⟨b, x⟩ := d
      obtain ⟨h1, h2⟩ := List.pairwise_cons.1 hs
      unfold Memory.writeByte
      split
      · next hlt =>
        split
        · exact hs
        · refine List.pairwise_cons.2 ⟨fun c hc => ?_, hs⟩
          rcases List.mem_cons.1 hc with hc | hc
          · subst hc; exact hlt
          · exact lt_trans hlt (h1 c hc)
      · next hlt =>
        split
        · next he =>
          subst he
          split
          · exact h2
          · exact List.pairwise_cons.2 ⟨h1, h2⟩
        · next he =>
          refine List.pairwise_cons.2 ⟨fun c hc => ?_, ih h2⟩
          rcases Memory.mem_writeByte hc with ⟨hc, -⟩ | hc
          · subst hc; exact lt_of_le_of_ne (not_lt.1 hlt) (Ne.symm he)
          · exact h1 c hc
  · rcases Memory.mem_writeByte hc with ⟨rfl, hv⟩ | hc
    · exact hv
    · exact h.2 c hc

/-- Reading the byte that was written. -/
theorem Memory.readByte_writeByte_same {m : Memory} (h : m.wf) (a : Nat) (v : Byte) :
    (m.writeByte a v).readByte a = v := by
  obtain ⟨hs, -⟩ := h
  induction m with
  | nil => unfold Memory.writeByte; split <;> simp_all [Memory.readByte]
  | cons d m ih =>
    obtain ⟨b, x⟩ := d
    obtain ⟨h1, h2⟩ := List.pairwise_cons.1 hs
    unfold Memory.writeByte
    split
    · next hlt =>
      split
      · next hv =>
        rw [hv]
        refine Memory.readByte_below fun c hc => ?_
        rcases List.mem_cons.1 hc with hc | hc
        · subst hc; exact hlt
        · exact lt_trans hlt (h1 c hc)
      · simp [Memory.readByte]
    · split
      · next he =>
        subst he
        split
        · next hv => rw [hv]; exact Memory.readByte_below h1
        · simp [Memory.readByte]
      · next he => simp [Memory.readByte, he, ih h2]

/-- Reading any other byte. -/
theorem Memory.readByte_writeByte_other {a b : Nat} (h : b ≠ a) (m : Memory) (v : Byte) :
    (m.writeByte a v).readByte b = m.readByte b := by
  induction m with
  | nil => unfold Memory.writeByte; split <;> simp [Memory.readByte, h]
  | cons d m ih =>
    obtain ⟨c, x⟩ := d
    unfold Memory.writeByte
    split
    · split <;> simp [Memory.readByte, h]
    · split
      · next he => subst he; split <;> simp [Memory.readByte, h]
      · simp [Memory.readByte, ih]

/-- A word write keeps the canonical form. -/
theorem Memory.writeWord_wf {m : Memory} (h : m.wf) (a : Nat) (w : Word) : (m.writeWord a w).wf :=
  Memory.writeByte_wf (Memory.writeByte_wf (Memory.writeByte_wf (Memory.writeByte_wf h _ _) _ _) _ _) _ _

/-- Writing words keeps the canonical form. -/
theorem Memory.writeWords_wf {m : Memory} (h : m.wf) (a : Nat) (ws : List Word) : (m.writeWords a ws).wf := by
  induction ws generalizing m a with
  | nil => exact h
  | cons w ws ih => exact ih (Memory.writeWord_wf h a w) (a + 1)

/-- A word is the concatenation of its four bytes. -/
theorem word_of_bytes (w : Word) :
    (w.extractLsb' 24 8 ++ w.extractLsb' 16 8 ++ w.extractLsb' 8 8 ++ w.extractLsb' 0 8 : BitVec 32) = w := by
  ext i hi
  rw [← BitVec.getLsbD_eq_getElem (x := w)]
  simp only [BitVec.getElem_append, BitVec.getElem_extractLsb']
  split
  · simp
  · split
    · congr 1; omega
    · split
      · congr 1; omega
      · congr 1; omega

/-- Reading the word that was written. -/
theorem Memory.readWord_writeWord_same {m : Memory} (h : m.wf) (a : Nat) (w : Word) :
    (m.writeWord a w).readWord a = w := by
  have h0 := Memory.writeByte_wf h (4 * a) (w.extractLsb' 0 8)
  have h1 := Memory.writeByte_wf h0 (4 * a + 1) (w.extractLsb' 8 8)
  have h2 := Memory.writeByte_wf h1 (4 * a + 2) (w.extractLsb' 16 8)
  unfold Memory.readWord Memory.writeWord
  rw [Memory.readByte_writeByte_same h2,
    Memory.readByte_writeByte_other (by omega), Memory.readByte_writeByte_same h1,
    Memory.readByte_writeByte_other (by omega), Memory.readByte_writeByte_other (by omega),
    Memory.readByte_writeByte_same h0, Memory.readByte_writeByte_other (by omega),
    Memory.readByte_writeByte_other (by omega), Memory.readByte_writeByte_other (by omega),
    Memory.readByte_writeByte_same h]
  exact word_of_bytes w

/-- Reading any other word. -/
theorem Memory.readWord_writeWord_other {a b : Nat} (h : b ≠ a) (m : Memory) (w : Word) :
    (m.writeWord a w).readWord b = m.readWord b := by
  unfold Memory.readWord Memory.writeWord
  simp only [Memory.readByte_writeByte_other (show 4 * b + 3 ≠ 4 * a + 3 by omega),
    Memory.readByte_writeByte_other (show 4 * b + 3 ≠ 4 * a + 2 by omega),
    Memory.readByte_writeByte_other (show 4 * b + 3 ≠ 4 * a + 1 by omega),
    Memory.readByte_writeByte_other (show 4 * b + 3 ≠ 4 * a by omega),
    Memory.readByte_writeByte_other (show 4 * b + 2 ≠ 4 * a + 3 by omega),
    Memory.readByte_writeByte_other (show 4 * b + 2 ≠ 4 * a + 2 by omega),
    Memory.readByte_writeByte_other (show 4 * b + 2 ≠ 4 * a + 1 by omega),
    Memory.readByte_writeByte_other (show 4 * b + 2 ≠ 4 * a by omega),
    Memory.readByte_writeByte_other (show 4 * b + 1 ≠ 4 * a + 3 by omega),
    Memory.readByte_writeByte_other (show 4 * b + 1 ≠ 4 * a + 2 by omega),
    Memory.readByte_writeByte_other (show 4 * b + 1 ≠ 4 * a + 1 by omega),
    Memory.readByte_writeByte_other (show 4 * b + 1 ≠ 4 * a by omega),
    Memory.readByte_writeByte_other (show 4 * b ≠ 4 * a + 3 by omega),
    Memory.readByte_writeByte_other (show 4 * b ≠ 4 * a + 2 by omega),
    Memory.readByte_writeByte_other (show 4 * b ≠ 4 * a + 1 by omega),
    Memory.readByte_writeByte_other (show 4 * b ≠ 4 * a by omega)]

/-- A word below the words written. -/
theorem Memory.readWord_writeWords_below {a b : Nat} (h : b < a) (m : Memory) (ws : List Word) :
    (m.writeWords a ws).readWord b = m.readWord b := by
  induction ws generalizing m a with
  | nil => rfl
  | cons w ws ih =>
    simp only [Memory.writeWords]
    rw [ih (by omega), Memory.readWord_writeWord_other (by omega)]

/-- The words of an image that was written are read back. -/
theorem Memory.readWords_writeWords {m : Memory} (h : m.wf) (a : Nat) (ws : List Word) :
    (m.writeWords a ws).readWords a ws.length = ws := by
  induction ws generalizing m a with
  | nil => rfl
  | cons w ws ih =>
    simp only [Memory.writeWords, List.length_cons, Memory.readWords]
    rw [ih (Memory.writeWord_wf h a w), Memory.readWord_writeWords_below (by omega),
      Memory.readWord_writeWord_same h]

/-- The words read from an address are the words at the addresses from it on. -/
theorem Memory.readWords_length (m : Memory) (a n : Nat) : (m.readWords a n).length = n := by
  induction n generalizing a with
  | zero => rfl
  | succ n ih => simp [Memory.readWords, ih]

theorem Memory.readWords_getElem? (m : Memory) (a n k : Nat) (h : k < n) :
    (m.readWords a n)[k]? = some (m.readWord (a + k)) := by
  induction n generalizing a k with
  | zero => omega
  | succ n ih =>
    cases k with
    | zero => simp [Memory.readWords]
    | succ k => simp [Memory.readWords, ih (a + 1) k (by omega), Nat.add_assoc, Nat.add_comm 1 k]

end Sys2Proof.Machine
end

