-- ==== Sys2Proof/Laws/PerInstr.lean ====
section
/-! SUPPORT. Statements about each instruction as syntax, one lemma per constructor. -/

namespace Sys2Proof.Laws

/-- The encoding of a well-formed instruction is its opcode word followed by as many words as its operand count says
(30_encoding.md R90, R92). -/
def EncodeLength.Statement (i : Instr) : Prop :=
  i.wf = true → (encode i).length = 1 + i.operandCount ∧ (encode i).head? = some i.code

theorem EncodeLength.attack (note : Word) : EncodeLength.Statement (.attack note) := fun _ => ⟨rfl, rfl⟩
theorem EncodeLength.release : EncodeLength.Statement .release := fun _ => ⟨rfl, rfl⟩
theorem EncodeLength.mute : EncodeLength.Statement .mute := fun _ => ⟨rfl, rfl⟩
theorem EncodeLength.arpeggio (speed : Word) (offsets : List Word) : EncodeLength.Statement (.arpeggio speed offsets) :=
  fun _ => ⟨by simp [encode, Instr.operands, Instr.operandCount]; omega, rfl⟩
theorem EncodeLength.volume (value : Word) : EncodeLength.Statement (.volume value) := fun _ => ⟨rfl, rfl⟩
theorem EncodeLength.panning (value : Word) : EncodeLength.Statement (.panning value) := fun _ => ⟨rfl, rfl⟩
theorem EncodeLength.pitch (value : Word) : EncodeLength.Statement (.pitch value) := fun _ => ⟨rfl, rfl⟩
theorem EncodeLength.dutycycle (value : Word) : EncodeLength.Statement (.dutycycle value) := fun _ => ⟨rfl, rfl⟩
theorem EncodeLength.phasewrap (value : Word) : EncodeLength.Statement (.phasewrap value) := fun _ => ⟨rfl, rfl⟩
theorem EncodeLength.mastervolume (value : Word) : EncodeLength.Statement (.mastervolume value) := fun _ => ⟨rfl, rfl⟩
theorem EncodeLength.instrument (index : Word) : EncodeLength.Statement (.instrument index) := fun _ => ⟨rfl, rfl⟩
theorem EncodeLength.waveform (operand : Word) : EncodeLength.Statement (.waveform operand) := fun _ => ⟨rfl, rfl⟩
theorem EncodeLength.attackticks (ticks : Word) : EncodeLength.Statement (.attackticks ticks) := fun _ => ⟨rfl, rfl⟩
theorem EncodeLength.releaseticks (ticks : Word) : EncodeLength.Statement (.releaseticks ticks) := fun _ => ⟨rfl, rfl⟩
theorem EncodeLength.muteticks (ticks : Word) : EncodeLength.Statement (.muteticks ticks) := fun _ => ⟨rfl, rfl⟩
theorem EncodeLength.step (ticks : Word) : EncodeLength.Statement (.step ticks) := fun _ => ⟨rfl, rfl⟩
theorem EncodeLength.stepticks : EncodeLength.Statement .stepticks := fun _ => ⟨rfl, rfl⟩
theorem EncodeLength.call (address : Word) : EncodeLength.Statement (.call address) := fun _ => ⟨rfl, rfl⟩
theorem EncodeLength.ret : EncodeLength.Statement .ret := fun _ => ⟨rfl, rfl⟩
theorem EncodeLength.jump (address : Word) : EncodeLength.Statement (.jump address) := fun _ => ⟨rfl, rfl⟩
theorem EncodeLength.group (number : Word) : EncodeLength.Statement (.group number) := fun _ => ⟨rfl, rfl⟩
theorem EncodeLength.endTrack : EncodeLength.Statement .endTrack := fun _ => ⟨rfl, rfl⟩

end Sys2Proof.Laws
end

