-- ==== Sys2Proof/Laws/Scheduling.lean ====
section
/-! SUPPORT. The lists of the Context: ports, groups and dividers found after an update. -/

namespace Sys2Proof.Machine

/-! ## Track ports -/

/-- Updating one track's port leaves every other track's. -/
theorem Context.port?_updPort_other {t v : Track} (h : v ≠ t) (c : Context) {f : Port → Port} (hf : ∀ p, (f p).track = p.track) :
    (c.updPort t f).port? v = c.port? v := by
  unfold Context.updPort Context.port?
  dsimp only
  induction c.tracks with
  | nil => rfl
  | cons p ps ih =>
    simp only [List.map_cons, List.find?_cons]
    by_cases hp : p.track = t
    · have : (p.track == v) = false := by simp [hp, Ne.symm h]
      rw [if_pos hp, hf, this]; exact ih
    · rw [if_neg hp, ih]

/-- Updating a track's port. -/
theorem Context.port?_updPort_same (t : Track) (c : Context) {f : Port → Port} (hf : ∀ p, (f p).track = p.track) :
    (c.updPort t f).port? t = (c.port? t).map f := by
  unfold Context.updPort Context.port?
  dsimp only
  induction c.tracks with
  | nil => rfl
  | cons p ps ih =>
    simp only [List.map_cons, List.find?_cons]
    by_cases hp : p.track = t
    · rw [if_pos hp, hf]; simp [hp]
    · have : (p.track == t) = false := by simpa using hp
      rw [if_neg hp, this]; exact ih

/-! ## Groups -/

theorem Context.mem_allGroups {c : Context} {g : Group} : g ∈ c.allGroups ↔ ∃ k ∈ c.clockList, g ∈ k.groups := by
  simp [Context.allGroups]

/-- Changing every group changes the list of all groups one by one. -/
theorem Context.allGroups_mapGroups (c : Context) (f : Group → Group) : (c.mapGroups f).allGroups = c.allGroups.map f := by
  simp only [Context.allGroups, Context.clockList, Context.mapGroups, List.flatMap_cons, List.map_append, Clock.mapGroups, List.flatMap_map,
    List.map_flatMap]

/-- Changing the group of a number changes the groups of that number. -/
theorem Context.allGroups_updGroup (c : Context) (g : GroupNo) (f : Group → Group) :
    (c.updGroup g f).allGroups = c.allGroups.map fun x => if x.num = g then f x else x :=
  c.allGroups_mapGroups _

/-- The group found has the number looked for. -/
theorem Context.group?_num {c : Context} {g : GroupNo} {x : Group} (h : c.group? g = some x) : x.num = g := by
  simpa using List.find?_some h

theorem Context.group?_mem {c : Context} {g : GroupNo} {x : Group} (h : c.group? g = some x) : x ∈ c.allGroups :=
  List.mem_of_find?_eq_some h

/-- The group found after a change of the group of that number. -/
theorem Context.group?_updGroup_same (c : Context) (g : GroupNo) {f : Group → Group} (hf : ∀ x, (f x).num = x.num) :
    (c.updGroup g f).group? g = (c.group? g).map f := by
  unfold Context.group?
  rw [c.allGroups_updGroup]
  induction c.allGroups with
  | nil => rfl
  | cons x xs ih =>
    simp only [List.map_cons, List.find?_cons]
    by_cases h : x.num = g
    · simp [h, hf]
    · have : (x.num == g) = false := by simpa using h
      rw [if_neg h, this]; exact ih

/-- Every other group found after a change of the group of a number. -/
theorem Context.group?_updGroup_other (c : Context) {g h : GroupNo} (hg : h ≠ g) {f : Group → Group} (hf : ∀ x, (f x).num = x.num) :
    (c.updGroup g f).group? h = c.group? h := by
  unfold Context.group?
  rw [c.allGroups_updGroup]
  induction c.allGroups with
  | nil => rfl
  | cons x xs ih =>
    simp only [List.map_cons, List.find?_cons]
    by_cases e : x.num = g
    · have : (x.num == h) = false := by simp [e, Ne.symm hg]
      rw [if_pos e, hf, this]; exact ih
    · rw [if_neg e, ih]

/-- A divider found is in its group's list, and the group is one of the Context's. -/
theorem Context.divider?_mem {c : Context} {id : DividerId} {g : Group} {d : Divider} (h : c.divider? id = some (g, d)) :
    g ∈ c.allGroups ∧ d ∈ g.list ∧ d.id = id := by
  obtain ⟨x, hx, hd⟩ := List.exists_of_findSome?_eq_some h
  obtain ⟨y, hy, he⟩ := Option.map_eq_some_iff.1 hd
  cases he
  exact ⟨hx, List.mem_of_find?_eq_some hy, by simpa using List.find?_some hy⟩

end Sys2Proof.Machine
end

