-- ==== Sys2Proof/Laws/Steps.lean ====
section
/-! SUPPORT. What one step of the sequencer does outside the Context, and where a step can come from. -/

namespace Sys2Proof.Machine

/-- Opening the machine to the environment's posts adds at most one activation and takes one entry of the tape. -/
theorem State.openToPosts_cases (s : State) :
    (s.env.posts = [] ∧ s.openToPosts = s)
    ∨ ∃ cmds more, s.env.posts = cmds :: more
        ∧ s.openToPosts = { s with env := { s.env with posts := more }, ctl := .post cmds :: s.ctl } := by
  unfold State.openToPosts
  split
  · next h => exact .inl ⟨h, rfl⟩
  · next cmds more h => exact .inr ⟨cmds, more, h, rfl⟩

@[simp] theorem State.openToPosts_cfg (s : State) : s.openToPosts.cfg = s.cfg := by unfold State.openToPosts; split <;> rfl
@[simp] theorem State.openToPosts_ctx (s : State) : s.openToPosts.ctx = s.ctx := by unfold State.openToPosts; split <;> rfl
@[simp] theorem State.openToPosts_interps (s : State) : s.openToPosts.interps = s.interps := by
  unfold State.openToPosts; split <;> rfl
@[simp] theorem State.openToPosts_interp (s : State) (t : Track) : s.openToPosts.interp t = s.interp t := by
  simp [State.interp]
@[simp] theorem State.openToPosts_out (s : State) : s.openToPosts.out = s.out := by unfold State.openToPosts; split <;> rfl

/-- One firing of a track's divider: nothing, or the wait written in the track's port, with or without an invocation started (47_clock_divider.md R237). -/
theorem State.trackTick_cases (t : Track) (s : State) :
    s.trackTick t = s
    ∨ ∃ w, s.trackTick t = s.updCtx (fun c => c.updPort t fun p => { p with waitc := w })
        ∨ s.trackTick t = (s.updCtx fun c => c.updPort t fun p => { p with waitc := w }).push (.invoke t .enter) := by
  unfold State.trackTick
  split
  · exact .inl rfl
  · next p _ =>
    split
    · exact .inl rfl
    · dsimp only
      generalize (if p.waitc = 0 then 0 else p.waitc - 1) = w
      refine .inr ⟨w, ?_⟩
      split
      · exact .inr rfl
      · exact .inl rfl

@[simp] theorem State.trackTick_cfg (t : Track) (s : State) : (s.trackTick t).cfg = s.cfg := by
  rcases s.trackTick_cases t with h | ⟨w, h | h⟩ <;> rw [h] <;> rfl
@[simp] theorem State.trackTick_interps (t : Track) (s : State) : (s.trackTick t).interps = s.interps := by
  rcases s.trackTick_cases t with h | ⟨w, h | h⟩ <;> rw [h] <;> rfl
@[simp] theorem State.trackTick_out (t : Track) (s : State) : (s.trackTick t).out = s.out := by
  rcases s.trackTick_cases t with h | ⟨w, h | h⟩ <;> rw [h] <;> rfl

/-- A visit of a divider, and a firing, write no parameter and no instance. -/
theorem State.visit_rest (g : GroupNo) (id : DividerId) (k : BitVec 64) (s : State) :
    (s.visit g id k).cfg = s.cfg ∧ (s.visit g id k).interps = s.interps := by
  unfold State.visit
  split
  · exact ⟨rfl, rfl⟩
  · split
    · unfold State.fire
      split <;> simp
    · exact ⟨rfl, rfl⟩

/-- The end of a pass writes no parameter and no instance. -/
theorem State.endPass_rest (g : GroupNo) (s : State) :
    (s.endPass g).cfg = s.cfg ∧ (s.endPass g).interps = s.interps ∧ (s.endPass g).ctl = s.ctl ∧ (s.endPass g).out = s.out := by
  unfold State.endPass
  exact State.drainQueue_rest g _

/-- Where a step that answers a next state comes from: an invocation is running; or a command of the host or of the environment is run; or no parameter and no
instance is written. -/
theorem step_origin {s u : State} (h : step s = .next u) :
    (∃ t phase rest, s.ctl = .invoke t phase :: rest)
    ∨ (∃ c more, s.ctl = [] ∧ s.env.host = c :: more ∧ u = runCommand c { s with env := { s.env with host := more } })
    ∨ (∃ c more rest, s.ctl = .post (c :: more) :: rest ∧ u = runCommand c { s with ctl := .post more :: rest })
    ∨ ((∀ t phase rest, s.ctl ≠ .invoke t phase :: rest) ∧ u.cfg = s.cfg ∧ u.interps = s.interps) := by
  unfold step at h
  split at h
  · next hc =>
    cases h
    unfold State.idle
    split
    · exact .inr (.inr (.inr ⟨by simp [hc], rfl, rfl⟩))
    · next c more hm => exact .inr (.inl ⟨c, more, hc, hm, rfl⟩)
  · next t phase rest hc => exact .inl ⟨t, phase, rest, hc⟩
  · next cmds rest hc =>
    cases h
    cases cmds with
    | nil => exact .inr (.inr (.inr ⟨by simp [hc], rfl, rfl⟩))
    | cons c more => exact .inr (.inr (.inl ⟨c, more, rest, hc, rfl⟩))
  · next g ids k rest hc =>
    cases h
    refine .inr (.inr (.inr ⟨by simp [hc], ?_⟩))
    unfold State.passStep
    split
    · have := State.endPass_rest g { s with ctl := rest }; exact ⟨this.1, this.2.1⟩
    · exact State.visit_rest g _ k _
  · next gs k rest hc =>
    cases h
    refine .inr (.inr (.inr ⟨by simp [hc], ?_⟩))
    unfold State.groupsStep
    split <;> exact ⟨rfl, rfl⟩
  · next n p stage rest hc =>
    refine .inr (.inr (.inr ⟨by simp [hc], ?_⟩))
    unfold State.coreStep at h
    split at h
    · cases h
      unfold State.coreHead
      dsimp only
      split <;> simp
    · unfold State.coreAdvance at h
      split at h <;> cases h
      exact ⟨rfl, rfl⟩
    · unfold State.coreDue at h
      split at h
      · unfold State.boundary at h
        split at h
        · cases h; exact ⟨rfl, rfl⟩
        · split at h
          · split at h <;> cases h
            exact ⟨rfl, rfl⟩
          · cases h
      · cases h
        split <;> exact ⟨rfl, rfl⟩
  · next n rest hc => cases h; exact .inr (.inr (.inr ⟨by simp [hc], rfl, rfl⟩))
  · next e cap total rest hc =>
    cases h
    refine .inr (.inr (.inr ⟨by simp [hc], ?_⟩))
    unfold State.toTimeStep
    split <;> exact ⟨rfl, rfl⟩
  · next e cap total m rest hc =>
    cases h
    refine .inr (.inr (.inr ⟨by simp [hc], ?_⟩))
    unfold State.callbackStep State.takeAck
    simp only [State.openToPosts_cfg, State.openToPosts_interps]
    split <;> exact ⟨rfl, rfl⟩
  · next rest hc => cases h; exact .inr (.inr (.inr ⟨by simp [hc], rfl, rfl⟩))

end Sys2Proof.Machine
end

