-- ==== Sys2Proof/Tests/Slice0.lean ====
section
/-! SUPPORT. Tests: words and results written out from spec/ (the T and X numbers are those of 95_test_vectors.md), and a witness for the hypotheses of each
statement. -/

namespace Sys2Proof.Tests

open Sys2Proof.Machine

/-! ## Well-formedness: the one check, the count of an ARPEGGIO's offsets (30_encoding.md R94) -/

theorem test_wf_refuses_uncountable_offsets : ∀ offsets : List Word, offsets.length = 2 ^ 32 → Instr.wf (.arpeggio 1 offsets) = false := by
  intro offsets h
  exact decide_eq_false (by rw [h]; exact Nat.lt_irrefl _)
theorem test_wf_refuses_an_ill_formed_term : Instr.wf (.arpeggio 1 (List.replicate (2 ^ 32) 0)) = false :=
  test_wf_refuses_uncountable_offsets _ List.length_replicate
theorem test_wf_accepts_counted_offsets : Instr.wf (.arpeggio 2 [0, 4, 7]) = true := by decide

/-! ## Decoding: one word list for every constructor (30_encoding.md R101; T1 to T27) -/

theorem test_decode_attack : decode [0x00000001, 0x0000003C] = .instr (.attack 60) [] := by decide
theorem test_decode_release : decode [0x00000002] = .instr .release [] := by decide
theorem test_decode_mute : decode [0x00000003] = .instr .mute [] := by decide
theorem test_decode_arpeggio :
    decode [0x00000004, 0x00000002, 0x00000003, 0x00000000, 0x00000004, 0x00000007] = .instr (.arpeggio 2 [0, 4, 7]) [] := by decide
theorem test_decode_arpeggio_empty : decode [0x00000004, 0x00000001, 0x00000000] = .instr (.arpeggio 1 []) [] := by decide
theorem test_decode_volume : decode [0x00000005, 0x000000FF] = .instr (.volume 255) [] := by decide
theorem test_decode_panning : decode [0x00000006, 0xFFFFFFFF] = .instr (.panning (-1)) [] := by decide
theorem test_decode_pitch : decode [0x00000007, 0x00000064] = .instr (.pitch 100) [] := by decide
theorem test_decode_dutycycle : decode [0x00000008, 0x00000004] = .instr (.dutycycle 4) [] := by decide
theorem test_decode_phasewrap : decode [0x00000009, 0x00000020] = .instr (.phasewrap 32) [] := by decide
theorem test_decode_mastervolume : decode [0x0000000A, 0x00008000] = .instr (.mastervolume 0x8000) [] := by decide
theorem test_decode_instrument : decode [0x0000000B, 0x00000001] = .instr (.instrument 1) [] := by decide
theorem test_decode_waveform : decode [0x0000000C, 0x80000000] = .instr (.waveform 0x80000000) [] := by decide
theorem test_decode_attackticks : decode [0x00000010, 0x00000003] = .instr (.attackticks 3) [] := by decide
theorem test_decode_releaseticks : decode [0x00000011, 0x00000006] = .instr (.releaseticks 6) [] := by decide
theorem test_decode_muteticks : decode [0x00000012, 0x00000004] = .instr (.muteticks 4) [] := by decide
theorem test_decode_step : decode [0x00000020, 0x0000113A] = .instr (.step 4410) [] := by decide
theorem test_decode_stepticks : decode [0x00000021] = .instr .stepticks [] := by decide
theorem test_decode_call : decode [0x00000030, 0x00000014] = .instr (.call 20) [] := by decide
theorem test_decode_return : decode [0x00000031] = .instr .ret [] := by decide
theorem test_decode_jump : decode [0x00000032, 0x00000000] = .instr (.jump 0) [] := by decide
theorem test_decode_group : decode [0x00000033, 0x00000003] = .instr (.group 3) [] := by decide
theorem test_decode_end : decode [0x0000003F] = .instr .endTrack [] := by decide

theorem test_decode_whole_word : decode [0x00000101] = .unknownOpcode 0x101 := by decide
theorem test_decode_gaps :
    [0x00000000, 0x0000000D, 0x0000000F, 0x00000013, 0x00000022, 0x00000034, 0x0000003E, 0x00000040, 0xFFFFFFFF].all
      (fun w => decode [w] = .unknownOpcode w) = true := by decide
theorem test_decode_truncated : decode [0x00000004, 0x00000002, 0x00000005, 1, 2] = .truncated 4 := by decide

theorem test_decodeTableWord : decodeTableWord 32 0x20 = some (.step 0) ∧ decodeTableWord 32 0x04 = some (.arpeggio 0 []) := by decide
theorem test_decodeTableWord_operand : decodeTableWord 64 0x0000113A00000020 = some (.step 4410) := by decide

/-! ## A small machine -/

/-- Small parameters: two stack entries, three offsets. -/
def cfg0 : Params where
  stackDepth := 2
  arpMax := 3
  waveCustomBit := 31
  maxChannels := 2
  minRate := 8000
  maxRate := 48000
  capClocks := none
  capDividers := none
  capTracks := none

/-- A running Context: track 0 on divider 1, an external target on divider 2, both of group 1. -/
def ctx0 : Context :=
  { initialContext 1 44100 ⟨183, 0xC0000⟩ with
      master := { period := ⟨183, 0xC0000⟩, groups := [{ num := 0 }, { num := 1, list := [⟨1, 1, .track 0⟩, ⟨2, 4, .ext 9⟩] }] }
      tracks := [{ track := 0, divider := 1 }]
      nextDivider := 3 }

/-- An interpreter right after reset with a program, and the tables of T35 to T40. -/
def prog (words : List Word) : Interp := Interp.fresh cfg0 (bindingsOf words [0x1000, 0x2000] [0x5000])

/-- The machine with a thread of control. -/
def machine (i : Interp) (ctl : List Frame) : State where
  cfg := cfg0
  ctx := ctx0
  interps := [(0, i)]
  ctl := ctl
  env := {}
  out := []

/-- The machine in an invocation of track 0. -/
def at0 (i : Interp) (p : Phase) : State := machine i [.invoke 0 p]

/-- The next state of an outcome. -/
def after : Host.Outcome State Fault Refusal → Option State
  | .next t => some t
  | .fault _ => none
  | .refused _ => none

/-- The sink events of a trace. -/
def sinks (s : State) : List (SinkKind × Word) :=
  s.out.filterMap fun e =>
    match e with
    | .sink _ k w => some (k, w)
    | .render _ _ => none
    | .extFire _ _ => none
    | .writeCallback _ => none
    | .reply _ => none

/-- One instruction executed, and what is looked at in the machine after it. -/
def runs {α : Type} (i : Instr) (p : Interp) (look : State → α) : Option α := (after (exec i (at0 p .run))).map look

/-! ## One instruction -/

/-- T31. -/
theorem test_attack : runs (.attack (-12)) (prog []) (fun t => (t.it.basenote, t.it.pc, t.it.tflags.word, sinks t)) =
    some (-12, 2, 0, [(.attack, 0xFFFFFFF4)]) := by decide
/-- R195: with the offsets of X5 loaded the attack sounds offset 0 and the next cycle takes offset 1. -/
theorem test_attack_arpeggio :
    runs (.attack 60) { prog [] with arp := [7, 4, 0], arplen := 2, arpspeed := 5 }
      (fun t => (t.it.arpidx, t.it.arpc, t.it.tflags.word, sinks t)) = some (1, 5, 0x10, [(.attack, 67)]) := by decide
/-- T32. -/
theorem test_release : runs .release (prog []) (fun t => (t.it.pc, sinks t)) = some (1, [(.release, 0)]) := by decide
/-- T33. -/
theorem test_mute : runs .mute (prog []) (fun t => (t.it.pc, sinks t)) = some (1, [(.mute, 0)]) := by decide
/-- T34, with R134 to R139. -/
theorem test_volume : runs (.volume 255) (prog []) (fun t => (t.it.pc, sinks t)) = some (2, [(.volume, 0xFF)]) := by decide
theorem test_panning : runs (.panning (-1)) (prog []) (fun t => (t.it.pc, sinks t)) = some (2, [(.panning, 0xFFFFFFFF)]) := by decide
theorem test_pitch : runs (.pitch 100) (prog []) (fun t => (t.it.pc, sinks t)) = some (2, [(.pitch, 0x64)]) := by decide
theorem test_dutycycle : runs (.dutycycle 4) (prog []) (fun t => (t.it.pc, sinks t)) = some (2, [(.dutycycle, 4)]) := by decide
theorem test_phasewrap : runs (.phasewrap 32) (prog []) (fun t => (t.it.pc, sinks t)) = some (2, [(.phasewrap, 0x20)]) := by decide
theorem test_mastervolume :
    runs (.mastervolume 0x8000) (prog []) (fun t => (t.it.pc, sinks t)) = some (2, [(.mastervolume, 0x8000)]) := by decide
/-- T35, T36. -/
theorem test_instrument : runs (.instrument 1) (prog []) sinks = some [(.instrument, 0x2000)] := by decide
theorem test_instrument_outside : runs (.instrument 2) (prog []) sinks = some [(.instrument, 0)] := by decide
/-- T39, T41. -/
theorem test_waveform_custom : runs (.waveform 0x80000000) (prog []) sinks = some [(.waveformCustom, 0x5000)] := by decide
theorem test_waveform_builtin : runs (.waveform 0x7FFFFFFF) (prog []) sinks = some [(.waveformBuiltin, 0x7FFFFFFF)] := by decide
/-- T93, with three entries in place of eight. -/
theorem test_arpeggio : runs (.arpeggio 3 [0, 12, -5, 9]) (prog []) (fun t => (t.it.arp, t.it.arplen, t.it.arpc, t.it.pc)) =
    some ([0, 12, -5], 3, 3, 7) := by decide
/-- T91, T94: speed 0 and no offsets. -/
theorem test_arpeggio_inactive :
    runs (.arpeggio 0 [7]) { prog [] with tflags := { hasArpeggio := true } } (fun t => (t.it.arplen, t.it.tflags.word)) = some (1, 0) := by
  decide
/-- T57: DUR wraps. -/
theorem test_attackticks : runs (.attackticks 1) { prog [] with dur := 0xFFFFFFFF } (fun t => (t.it.atkc, t.it.dur, t.it.tflags.word)) =
    some (1, 0, 2) := by decide
/-- T55: re-arming overwrites the counter, and DUR gets both operands. -/
theorem test_releaseticks :
    runs (.releaseticks 5) { prog [] with relc := 3, dur := 5, tflags := { hasRelease := true } }
      (fun t => (t.it.relc, t.it.dur, t.it.tflags.word)) = some (5, 10, 4) := by decide
theorem test_muteticks : runs (.muteticks 4) (prog []) (fun t => (t.it.mutc, t.it.tflags.word, sinks t)) = some (4, 8, []) := by decide
/-- T60, T61. -/
theorem test_step : runs (.step 4410) (prog []) (fun t => (t.it.stepc, t.it.tflags.word, t.it.pc)) = some (4410, 1, 2) := by decide
theorem test_step_zero : runs (.step 0) (prog []) (fun t => (t.it.stepc, t.it.tflags.word, t.it.pc)) = some (0, 0, 2) := by decide
/-- T62, T63. -/
theorem test_stepticks : runs .stepticks { prog [] with dur := 8 } (fun t => (t.it.stepc, t.it.dur, t.it.tflags.word)) = some (8, 0, 1) := by
  decide
theorem test_stepticks_zero : runs .stepticks (prog []) (fun t => (t.it.stepc, t.it.tflags.word, t.it.pc)) = some (0, 0, 1) := by decide
/-- T70, T73. -/
theorem test_call : runs (.call 4) (prog []) (fun t => (t.it.stack, t.it.sp, t.it.pc)) = some ([2, 0], 1, 4) := by decide
theorem test_call_full :
    runs (.call 0) { prog [] with sp := 2, stack := [2, 2] } (fun t => (t.it.sp, t.it.status.word, t.ctl)) =
      some (2, 3, [.invoke 0 (.ret (.error .stackOverflow))]) := by decide
/-- T74, T71. -/
theorem test_return : runs .ret { prog [] with sp := 1, stack := [2, 0], pc := 5 } (fun t => (t.it.sp, t.it.pc)) = some (0, 2) := by decide
theorem test_return_empty : runs .ret (prog []) (fun t => (t.it.status.word, t.it.pc)) = some (1, 0) := by decide
/-- T72. -/
theorem test_jump : runs (.jump 100) (prog []) (fun t => (t.it.pc, t.it.status.word)) = some (100, 0) := by decide
/-- T75. -/
theorem test_group : runs (.group 7) (prog []) (fun t => (t.it.pc, sinks t)) = some (2, []) := by decide
/-- T79. -/
theorem test_end : runs .endTrack (prog []) (fun t => (t.it.status.word, t.it.pc)) = some (1, 0) := by decide

/-! ## One step -/

/-- T100. -/
theorem test_step_unknown : (after (step (at0 (prog [0]) .run))).map (fun t => (t.it.status.word, t.it.pc)) = some (5, 0) := by decide
/-- T103. -/
theorem test_step_truncated : (after (step (at0 (prog [0x20]) .run))).map (fun t => (t.it.status.word, t.it.pc)) = some (1, 0) := by decide
/-- T80. -/
theorem test_step_end_of_stream : (after (step (at0 (prog []) .run))).map (fun t => t.it.status.word) = some 1 := by decide
/-- Invocation 2 of R160: of the three events due the mute alone is emitted, and all three are consumed. -/
theorem test_step_tie :
    (after (step (at0 { prog [] with stepc := 4, tflags := { hasStep := true, hasAttack := true, hasRelease := true, hasMute := true } }
      .resolve))).map (fun t => (t.it.tflags.word, sinks t)) = some (1, [(.mute, 0)]) := by decide
/-- Invocation 2 of X5. -/
theorem test_step_arpeggio :
    (after (step (at0
      { prog [] with
          stepc := 98, arp := [0, 4, 7], arplen := 3, arpidx := 1, arpspeed := 2, basenote := 60
          tflags := { hasStep := true, hasArpeggio := true } } .resolve))).map (fun t => (t.it.arpidx, t.it.arpc, sinks t)) =
      some (2, 2, [(.arpnote, 64)]) := by decide
/-- T50, tick 0: the wait is the least of the armed counters. -/
theorem test_step_wait :
    (after (step (at0 { prog [] with stepc := 8, atkc := 3, tflags := { hasStep := true, hasAttack := true } } .settle))).map
      (fun t => (t.it.lastw, t.ctl)) = some (3, [.invoke 0 (.ret (.ok 3))]) := by decide
/-- T141: the first boundary is at sample 183, 183.75 samples on. -/
theorem test_step_boundary :
    (after (step (machine (prog []) [.core 800 0 .due]))).map (fun t => (t.ctx.master.next, t.ctx.master.tickCount, t.ctl)) =
      some (⟨183, 0xC0000⟩, 1, [.groups [0, 1] 0, .core 800 0 .due]) := by decide

/-- The host reads the machine's first instruction where step fetches it. -/
theorem test_withFetchWord_step : (after (step (State.reset.withFetchWord 32 0x21))).map (fun t => t.it.pc) = some 1 := by decide
theorem test_withFetchWord_arpeggio : (after (step (State.reset.withFetchWord 32 0x04))).map (fun t => t.it.pc) = some 3 := by decide

/-! ## FixedTime (46_fixed_time.md; T110, T112, T115, T118, T122, T127) -/

theorem test_ftAdd_carry : ftAdd ⟨183, 0xC0000⟩ ⟨183, 0xC0000⟩ = some ⟨367, 0x80000⟩ := by decide
theorem test_ftAdd_negative : ftAdd ⟨-1, 0x80000⟩ ⟨0, 0x80000⟩ = some ⟨0, 0⟩ := by decide
theorem test_ftSub_borrow : ftSub ⟨0, 0⟩ ⟨0, 1⟩ = some ⟨-1, 0xFFFFF⟩ := by decide
theorem test_ftCmp : ftCmp ⟨-1, 0xFFFFF⟩ ⟨0, 0⟩ = .lt := by decide
theorem test_ftFloor : ftFloor ⟨-1, 0x80000⟩ = -1 := by decide
theorem test_ftFromSeconds : ftFromSeconds 1 1000 44100 = some ⟨44, 0x19999⟩ := by decide

/-! ## The textual form (30_encoding.md R99; the expected words written out by hand from R101) -/

set_option maxRecDepth 20000 in
theorem test_assemble :
    assemble cfg0 "VOLUME 0x40 ; a comment\nloop:\nATTACK -12\nWAVEFORM custom 1\nARPEGGIO 2, [0, 4]\nJUMP loop\n".toList =
      some [0x05, 0x40, 0x01, 0xFFFFFFF4, 0x0C, 0x80000001, 0x04, 2, 2, 0, 4, 0x32, 2] := by decide
set_option maxRecDepth 20000 in
theorem test_assemble_undefined_label : assemble cfg0 "JUMP nowhere".toList = none := by decide

/-! ## Witnesses: for each statement with hypotheses, states and operands that meet them, one for each clause at its boundary

Each theorem lists the hypotheses of the statement it is named after. -/

/-- Waiting: a yield of 5 with a release due in 2, the wait last returned 2. -/
def waiting : Interp :=
  { prog [0x21] with stepc := 5, relc := 2, lastw := 2, tflags := { hasStep := true, hasRelease := true } }

theorem test_witness_DecodeEncodeRoundTrip : Instr.wf (.arpeggio 0xFFFFFFFF [1, 2]) = true ∧ Instr.wf .endTrack = true := by decide
theorem test_witness_DecodeReadsOnlyEncodings : decode [0x04, 2, 1, 9, 0x3F] = .instr (.arpeggio 2 [9]) [0x3F] := by decide

theorem test_witness_StepRunsDecodedInstruction :
    AtFetch (at0 (prog [0x20, 4410]) .run) 0 [] ∧ decode ((at0 (prog [0x20, 4410]) .run).interp 0).stream = .instr (.step 4410) []
    ∧ Instr.wf (.step 4410) = true := ⟨⟨rfl, rfl, rfl⟩, by decide, rfl⟩

theorem test_witness_StepRunsEncodedInstruction :
    let s := at0 (prog [0x20, 4410]) .run
    AtFetch s 0 [] ∧ Instr.wf (.step 4410) = true
    ∧ (s.interp 0).pc.toNat + (encode (.step 4410)).length ≤ (s.interp 0).bind.proglen.toNat
    ∧ ∀ k w, (encode (.step 4410))[k]? = some w → (s.interp 0).bind.pm.readWord ((s.interp 0).pc.toNat + k) = w := by
  refine ⟨⟨rfl, rfl, rfl⟩, rfl, by decide, fun k w h => ?_⟩
  rcases k with _ | _ | k
  · cases h; decide
  · cases h; decide
  · cases h

/-- An empty program; a STEP without its operand; an ARPEGGIO without its count, and one with two offsets of five. -/
theorem test_witness_ProgramEndsAtFetch :
    (AtFetch (at0 (prog []) .run) 0 [] ∧ (prog []).bind.proglen.toNat ≤ (prog []).pc.toNat)
    ∧ (AtFetch (at0 (prog [0x20]) .run) 0 [] ∧ (prog [0x20]).pc.toNat < (prog [0x20]).bind.proglen.toNat
        ∧ (Instr.step 0).code = (prog [0x20]).bind.pm.readWord 0
        ∧ (prog [0x20]).bind.proglen.toNat < (prog [0x20]).pc.toNat + 1 + (Instr.step 0).operandCount)
    ∧ (AtFetch (at0 (prog [4, 2]) .run) 0 [] ∧ (prog [4, 2]).bind.pm.readWord 0 = 4
        ∧ (prog [4, 2]).bind.proglen.toNat < (prog [4, 2]).pc.toNat + 3)
    ∧ (AtFetch (at0 (prog [4, 2, 5, 1, 2]) .run) 0 [] ∧ (prog [4, 2, 5, 1, 2]).bind.pm.readWord 0 = 4
        ∧ (prog [4, 2, 5, 1, 2]).bind.proglen.toNat
            < (prog [4, 2, 5, 1, 2]).pc.toNat + 3 + ((prog [4, 2, 5, 1, 2]).bind.pm.readWord 2).toNat) := by
  refine ⟨⟨⟨rfl, rfl, rfl⟩, by decide⟩, ⟨⟨rfl, rfl, rfl⟩, by decide, by decide, by decide⟩, ⟨⟨rfl, rfl, rfl⟩, by decide, by decide⟩,
    ⟨⟨rfl, rfl, rfl⟩, by decide, by decide⟩⟩

theorem test_witness_UnknownOpcodeFaults :
    AtFetch (at0 (prog [0x101]) .run) 0 [] ∧ (prog [0x101]).pc.toNat < (prog [0x101]).bind.proglen.toNat
    ∧ (prog [0x101]).bind.pm.readWord (prog [0x101]).pc.toNat ∉ opcodes := ⟨⟨rfl, rfl, rfl⟩, by decide, by decide⟩

theorem test_witness_TableInstructions :
    (0x7FFFFFFF : Word).getLsbD cfg0.waveCustomBit = false ∧ (0x80000001 : Word).getLsbD cfg0.waveCustomBit = true := by decide

theorem test_witness_YieldInstructions :
    (1 : Word) ≠ 0 ∧ (at0 { prog [] with dur := 1 } .run).it.dur ≠ 0 ∧ (at0 (prog []) .run).it.dur = 0 := by decide

theorem test_witness_CallAndReturnInstructions :
    let last := at0 { prog [] with sp := 1, stack := [2, 0] } .run
    last.it.sp < last.cfg.stackDepth ∧ (at0 (prog []) .run).it.sp = 0 ∧ last.it.sp = 0 + 1 ∧ last.it.stack[0]? = some 2 := by decide

theorem test_witness_CallOverflowFaults :
    let s := at0 { prog [] with sp := 2, stack := [2, 5] } .run
    s.ctl = [.invoke 0 .run] ∧ (s.interp 0).sp = s.cfg.stackDepth := by decide

/-- As many calls as the stack holds. -/
theorem test_witness_CallReturnSymmetry :
    let s := at0 (prog []) .run
    ([3, 6] : List Word) ≠ [] ∧ s.it.stack.length = s.cfg.stackDepth ∧ s.it.sp + ([3, 6] : List Word).length ≤ s.cfg.stackDepth := by decide

theorem test_witness_DepthPlusOneFaults :
    let s := at0 { prog [] with sp := 1, stack := [2, 0] } .run
    s.ctl = [.invoke 0 .run] ∧ (s.interp 0).sp + ([6] : List Word).length = s.cfg.stackDepth := by decide

theorem test_witness_TerminalNoOp :
    let s := at0 { prog [] with status := { done := true, fault := some .unknownOpcode } } .enter
    s.ctl = [.invoke 0 .enter] ∧ (s.interp 0).status.done = true := by decide

/-- An ended track's port takes the result Done; and a TrackReset of an ended track. -/
theorem test_witness_DoneOnlyLeftByReset :
    (∃ u, step (at0 { prog [] with status := { done := true } } (.ret .done)) = .next u)
    ∧ ∃ u, step { machine { prog [] with status := { done := true } } [] with env := { host := [.trackReset 0] } } = .next u :=
  ⟨⟨_, rfl⟩, ⟨_, rfl⟩⟩

theorem test_witness_ElapseCountsDown :
    (at0 waiting .enter).ctl = [.invoke 0 .enter] ∧ ((at0 waiting .enter).interp 0).status.done = false ∧ waiting.Resting cfg0 :=
  ⟨rfl, rfl, by decide, fun _ => .inr ⟨rfl, by decide, by decide, by decide⟩⟩

theorem test_witness_ArpeggioCycle :
    let i := { prog [] with arp := [7, 0, 0], arplen := 1, arpspeed := 5, tflags := { hasArpeggio := true } }
    ((at0 i .resolve).it.tflags.hasArpeggio = true ∧ (at0 i .resolve).it.arpc = 0 ∧ 1 ≤ (at0 i .resolve).it.arplen)
    ∧ (at0 (prog []) .resolve).it.tflags.hasArpeggio = false ∧ (at0 { i with arpc := 1 } .resolve).it.arpc ≠ 0 := by decide

theorem test_witness_ResolutionOrder :
    let held := at0 { prog [] with stepc := 1, tflags := { hasStep := true } } .resolve
    let due := at0 { prog [] with tflags := { hasStep := true } } .resolve
    (held.ctl = [.invoke 0 .resolve] ∧ (held.interp 0).tflags.hasStep = true ∧ (held.interp 0).stepc ≠ 0)
    ∧ (due.interp 0).stepc = 0 ∧ ((at0 (prog []) .resolve).interp 0).tflags.hasStep = false := by decide

/-- Run after an END and after a STEP; then an ended program, a wait of 2 and one of 0. -/
theorem test_witness_ReturnedWait :
    let stopped := at0 { prog [] with status := { done := true } } .run
    let yielded := at0 { prog [] with stepc := 1, tflags := { hasStep := true } } .run
    let ended := at0 { prog [] with status := { done := true } } .settle
    let w := at0 waiting .settle
    let z := at0 { waiting with relc := 0 } .settle
    (stopped.ctl = [.invoke 0 .run] ∧ (stopped.interp 0).status.done = true)
    ∧ (yielded.ctl = [.invoke 0 .run] ∧ (yielded.interp 0).status.done = false ∧ (yielded.interp 0).tflags.hasStep = true)
    ∧ (ended.ctl = [.invoke 0 .settle] ∧ (ended.interp 0).status.done = true)
    ∧ ((w.interp 0).status.done = false ∧ (2 : Word) ∈ (w.interp 0).armed ∧ (∀ v ∈ (w.interp 0).armed, (2 : Word) ≤ v))
    ∧ ((z.interp 0).status.done = false ∧ (0 : Word) ∈ (z.interp 0).armed ∧ ∀ v ∈ (z.interp 0).armed, (0 : Word) ≤ v) := by
  have hw : ((at0 waiting .settle).interp 0).armed = [5, 2] := by decide
  have hz : ((at0 { waiting with relc := 0 } .settle).interp 0).armed = [5, 0] := by decide
  exact ⟨⟨rfl, rfl⟩, ⟨rfl, rfl, rfl⟩, ⟨rfl, rfl⟩, ⟨rfl, by rw [hw]; simp, by rw [hw]; simp⟩, ⟨rfl, by rw [hz]; simp, by rw [hz]; simp⟩⟩

/-- The interpreter of these machines is sound. -/
theorem test_waiting_sound : Interp.Sound cfg0 { waiting with relc := 0 } where
  sp := by decide
  stack := by decide
  arp := by decide
  arplen := by decide
  arpidx := by decide
  intr := by decide
  fault := by decide
  arpeggio := by decide
  image := by decide

theorem test_witness_AtMostTwoPasses :
    let s := at0 { waiting with relc := 0 } .settle
    s.ctl = [.invoke 0 .settle] ∧ (s.interp 0).Sound s.cfg ∧ (s.interp 0).status.done = false ∧ (s.interp 0).tflags.hasStep = true
    ∧ (s.interp 0).stepc ≠ 0 ∧ (s.interp 0).nearest = some 0 := ⟨rfl, test_waiting_sound, rfl, rfl, by decide, by decide⟩

/-- The port with the waits 0, 1 and 2, the track ended or not. -/
theorem test_witness_TrackTick :
    let s := fun w : Word => { machine waiting [] with ctx := { ctx0 with tracks := [{ track := 0, divider := 1, waitc := w }] } }
    (s 0).ctx.port? 0 = some { track := 0, divider := 1, waitc := 0 } ∧ ((s 0).interp 0).status.done = false
    ∧ (s 1).ctx.port? 0 = some { track := 0, divider := 1, waitc := 1 } ∧ (1 : Word).toNat ≤ 1
    ∧ (s 2).ctx.port? 0 = some { track := 0, divider := 1, waitc := 2 } ∧ 1 < (2 : Word).toNat
    ∧ ((machine { prog [] with status := { done := true } } []).interp 0).status.done = true := by decide

theorem test_witness_PortTakesResult :
    [InvResult.ok 2, .done, .error .stackOverflow].all (fun r =>
      decide ((at0 waiting (.ret r)).ctl = [.invoke 0 (.ret r)] ∧ (at0 waiting (.ret r)).ctx.port? 0 = some { track := 0, divider := 1 })) =
      true := by decide

theorem test_witness_InvocationIsLocal :
    (at0 (prog [0]) .run).ctl = [.invoke 0 .run] ∧ ∃ u, step (at0 (prog [0]) .run) = .next u := ⟨rfl, _, rfl⟩

/-- A TrackBind by the host of a track that is not attached. -/
theorem test_witness_OnlyTrackBindRebinds :
    let s := { machine (prog []) [] with env := { host := [.trackBind 5 [0x3F] [] []] } }
    ∃ u, step s = .next u ∧ (u.interp 5).bind ≠ (s.interp 5).bind := ⟨_, rfl, by decide⟩

set_option maxRecDepth 20000 in
theorem test_witness_RawIsBijection : ftRaw ⟨-(2 ^ 63), 0⟩ = -(2 ^ 83) ∧ ftRaw ⟨2 ^ 63 - 1, 0xFFFFF⟩ = 2 ^ 83 - 1 := by decide
theorem test_witness_FixedTimeConversions : 1 ≤ 1 ∧ ftFromSeconds 1 1 44100 = some ⟨44100, 0⟩ := by decide
/-- The example of X2, fourth boundary. -/
theorem test_witness_DriftBound :
    nthBoundary ⟨183, 0xC0000⟩ 4 = some ⟨735, 0⟩ ∧ 1 ≤ 240 ∧ ftFromSeconds 1 240 44100 = some ⟨183, 0xC0000⟩ ∧ 4 ≤ 2 ^ 20 := by decide

set_option maxRecDepth 20000 in
/-- A boundary to process; one whose count is at its end; one whose next boundary has no place in 64 bits. -/
theorem test_witness_BoundaryStep :
    let at' := fun c : Clock => { machine (prog []) [.core 800 0 .due] with ctx := { ctx0 with now := 2 ^ 63 - 1, master := c } }
    let c := { ctx0.master with tickCount := 2 ^ 64 - 2 }
    let full := { ctx0.master with tickCount := 2 ^ 64 - 1 }
    let far := { ctx0.master with next := ⟨2 ^ 63 - 1, 0⟩ }
    ((at' c).ctx.pickDue = some 0 ∧ ((at' c).ctx.master :: (at' c).ctx.clocks)[0]? = some c ∧ c.tickCount.toNat + 1 < 2 ^ 64
      ∧ ftAdd c.next c.period = some ⟨183, 0xC0000⟩)
    ∧ ((at' full).ctx.pickDue = some 0 ∧ full.tickCount.toNat + 1 = 2 ^ 64)
    ∧ ((at' far).ctx.pickDue = some 0 ∧ ftAdd far.next far.period = none) := by decide

set_option maxRecDepth 20000 in
/-- A step of 183 frames, the least that is not 0 and a step of 0, with commands posted and none; the last sample the time can reach, and one beyond it. -/
theorem test_witness_IterationAdvances :
    let s := fun (n : BitVec 64) (stage : Stage) => { machine (prog []) [.core 800 0 stage] with ctx := { ctx0 with now := n } }
    let due := { ctx0 with master := { ctx0.master with next := ⟨183, 0xC0000⟩ } }
    ((s 0 .head).env.posts = [] ∧ { s 0 .head with env := { posts := [[.reset]] } }.env.posts = [[.reset]]
      ∧ (s 0 .head).ctl = [.core 800 0 .head] ∧ min (800 - 0) (s 0 .head).ctx.timeToNext = 0
      ∧ min (800 - 0) due.timeToNext = 183 ∧ min (800 - 799) due.timeToNext = 1)
    ∧ (s (2 ^ 63 - 6) (.advance 5)).ctl = [.core 800 0 (.advance 5)]
    ∧ (s (2 ^ 63 - 6) (.advance 5)).ctx.now.toInt + 5 < 2 ^ 63 ∧ 0 ≤ (s (2 ^ 63 - 6) (.advance 5)).ctx.now.toInt
    ∧ 2 ^ 63 ≤ (s (2 ^ 63 - 6) (.advance 6)).ctx.now.toInt + 6 := by decide

/-- No clock is due, with all frames produced and with frames left. -/
theorem test_witness_CoreReturns :
    let s := fun p : Nat =>
      { machine (prog []) [.core 8 p .due] with ctx := { ctx0 with master := { ctx0.master with next := ⟨183, 0xC0000⟩ } } }
    (s 8).ctl = [.core 8 8 .due] ∧ (∀ c ∈ (s 8).ctx.master :: (s 8).ctx.clocks, c.due (s 8).ctx.now = false)
    ∧ step (s 8) = .next { s 8 with ctl := [] } ∧ (s 7).ctl = [.core 8 7 .due]
    ∧ (∀ c ∈ (s 7).ctx.master :: (s 7).ctx.clocks, c.due (s 7).ctx.now = false) :=
  ⟨rfl, by decide, rfl, rfl, by decide⟩

/-- Two external dividers, of divisors 1 and 4. -/
def extGroup : Group := { num := 1, list := [⟨1, 1, .ext 8⟩, ⟨2, 4, .ext 9⟩], inPass := true }

/-- A Context in which a pass over that group runs. -/
def passing : Context := { ctx0 with tracks := [], master := { ctx0.master with groups := [{ num := 0 }, extGroup] } }

/-- The dividers of a snapshot at tick 4: one that is due with the greatest divisor that is, one whose divisor is one more, a track's, and one that is gone; and
the whole pass. -/
theorem test_witness_PassFiresInOrder :
    let s := { machine (prog []) [.pass 1 [1, 2] 4] with ctx := passing }
    (s.ctl = [.pass 1 [1, 2] 4] ∧ extGroup.list.find? (fun e => e.id == 1) = some ⟨1, 1, .ext 8⟩ ∧ (1 : Word).toNat ∣ (4 : BitVec 64).toNat
      ∧ (4 : Word).toNat ∣ (4 : BitVec 64).toNat ∧ ¬(5 : Word).toNat ∣ (4 : BitVec 64).toNat
      ∧ extGroup.list.find? (fun e => e.id == 3) = none
      ∧ (ctx0.group? 1).map (fun x => x.list.find? fun e => e.id == 1) = some (some ⟨1, 1, .track 0⟩))
    ∧ s.ctl = [.pass 1 (extGroup.list.map (·.id)) 4] ∧ s.ctx.group? 1 = some extGroup ∧ (extGroup.list.map (·.id)).Nodup
    ∧ (∀ d ∈ extGroup.list, d.external = true) ∧ extGroup.queue = [] ∧ s.ctx.flags.clkrst = false ∧ s.env.posts = [] := by decide

theorem test_witness_GroupsInOrder :
    (machine (prog []) [.groups [] 4]).ctl = [.groups [] 4] ∧ (machine (prog []) [.groups [0, 1] 4]).ctl = [.groups [0, 1] 4]
    ∧ ctx0.group? 0 = some { num := 0 } := by decide

theorem test_witness_DividerCommandsDeferred :
    passing.state = .running ∧ passing.group? 1 = some extGroup ∧ extGroup.inPass = true
    ∧ passing.divider? 2 = some (extGroup, ⟨2, 4, .ext 9⟩) := by decide

/-- A group with room and a full one; an external divider, a track's, and none; the end of a pass with a queue; and a refused queued command. -/
theorem test_witness_QueuedAsHostCommands :
    let s := machine (prog []) []
    let ending := { s with ctl := [.pass 1 [] 4], ctx := { passing with master := { passing.master with groups := [{ extGroup with queue := [.detach 1] }] } } }
    (s.ctx.state = .running ∧ s.ctx.group? 0 = some { num := 0 } ∧ (1 : Word) ≠ 0 ∧ s.ctx.group? 2 = none
      ∧ (belowCap none 0 = true ∧ belowCap (some 3) 2 = true ∧ belowCap (some 2) 2 = false) ∧ s.env.allocs.head? ≠ some false)
    ∧ (s.ctx.divider? 2 = some (⟨1, [⟨1, 1, .track 0⟩, ⟨2, 4, .ext 9⟩], [], false⟩, ⟨2, 4, .ext 9⟩)
      ∧ s.ctx.divider? 1 = some (⟨1, [⟨1, 1, .track 0⟩, ⟨2, 4, .ext 9⟩], [], false⟩, ⟨1, 1, .track 0⟩) ∧ s.ctx.divider? 3 = none)
    ∧ ending.ctl = [.pass 1 [] 4] ∧ ending.ctx.group? 1 = some { extGroup with queue := [.detach 1] }
    ∧ ∀ x ∈ s.ctx.allGroups, x.inPass = false := by decide

/-- A command of the host, and none; posted commands, and none left; a command before Init, an Init after it, and a TrackBind inside a rendering call. -/
theorem test_witness_CommandGate :
    let s := machine (prog []) []
    (s.ctl = [] ∧ { s with env := { host := [.reset] } }.env.host = [.reset] ∧ s.env.host = [])
    ∧ ({ s with ctl := [.post [.trackStatus 0]] }.ctl = [.post [.trackStatus 0]] ∧ { s with ctl := [.post []] }.ctl = [.post []])
    ∧ State.reset.ctx.state ≠ .running ∧ ctx0.state ≠ .uninitialized ∧ { ctx0 with flags := { ingen := true } }.flags.ingen = true := by decide

theorem test_witness_RefusalsChangeNothing :
    (runCommand (.clockDetach 0) (machine (prog []) [])).out = (machine (prog []) []).out ++ [.reply (.error .invalidValue)] := by decide

/-- The bounds of the arguments, both ends; and an argument beyond one. -/
theorem test_witness_InitValues :
    let s := { State.reset with cfg := cfg0 }
    s.ctx.state = .uninitialized ∧ s.ctx.flags.ingen = false ∧ s.env.allocs.head? ≠ some false
    ∧ ((1 : Int) ≤ 2 ∧ (2 : Int) ≤ s.cfg.maxChannels ∧ (s.cfg.minRate : Int) ≤ 8000 ∧ (8000 : Int) ≤ s.cfg.maxRate
        ∧ ftIsPositive ⟨0, 1⟩ = true)
    ∧ ¬(s.cfg.minRate : Int) ≤ 7999 := by decide

theorem test_witness_ResetSequence :
    let s := machine waiting []
    s.ctx.state = .running ∧ s.ctx.flags.ingen = false ∧ (∃ p ∈ s.ctx.tracks, p.track = 0) ∧ ∀ p ∈ s.ctx.tracks, p.track ≠ 1 := by decide

theorem test_witness_ResetIdempotent : (machine waiting []).ctx.state = .running ∧ (machine waiting []).ctx.flags.ingen = false := by decide

theorem test_witness_RenderingCommands :
    let s := machine (prog []) []
    (s.ctx.state = .running ∧ s.ctx.flags.ingen = false) ∧ ((-1 : Int) < 0 ∧ (1 : Int) ≤ 1 ∧ (0 : Int) < 1)
    ∧ { s with ctl := [.generate 8] }.ctl = [.generate 8]
    ∧ { s with ctl := [.toTime 1 4 0] }.ctl = [.toTime 1 4 0] ∧ s.ctx.now.toInt < 1 ∧ (0 : Int) ≤ s.ctx.now.toInt
    ∧ { s with ctl := [.callback 1 4 0 1], env := { acks := [false] } }.ctl = [.callback 1 4 0 1] ∧ s.env.acks = []
    ∧ { s with ctl := [.unacknowledged] }.ctl = [.unacknowledged] := by decide

/-- The last clock and the first number beyond it; a divider and an identifier that names none; the least period and divisor allowed and the ones below. -/
theorem test_witness_Attributes :
    let c := ctx0
    c.state = .running ∧ (c.master :: c.clocks)[0]? = some c.master ∧ (c.master :: c.clocks).length ≤ 1
    ∧ c.divider? 2 = some (⟨1, [⟨1, 1, .track 0⟩, ⟨2, 4, .ext 9⟩], [], false⟩, ⟨2, 4, .ext 9⟩) ∧ c.divider? 3 = none
    ∧ ftIsPositive ⟨0, 1⟩ = true ∧ ftIsPositive ⟨0, 0⟩ = false ∧ 2 ^ 32 - 1 < 2 ^ 32 ∧ 2 ^ 32 ≤ 2 ^ 32 := by decide

theorem test_witness_LabelsAreWordAddresses :
    wordsOf [(['l'], 2)] ([.plain (.volume 1)] ++ .define ['l'] :: [.jump (.label ['l'])]) = some [5, 1, 0x32, 2] := by decide

/-- The machine whose track 0 waits, about to be invoked. -/
theorem test_witness_StepKeepsInterpsSound : (at0 { waiting with relc := 0 } .enter).InterpsSound
    ∧ ∃ u, step (at0 { waiting with relc := 0 } .enter) = .next u := by
  refine ⟨⟨List.pairwise_singleton _ _, fun p hp => ?_⟩, _, rfl⟩
  rw [List.mem_singleton.1 hp]
  exact test_waiting_sound

theorem test_witness_StepKeepsPhasesFit : (at0 waiting .enter).PhasesFit ∧ ∃ u, step (at0 waiting .enter) = .next u := by
  refine ⟨⟨fun f hf => absurd hf (List.not_mem_nil), test_witness_ElapseCountsDown.2.2, fun u hu => ?_⟩, _, rfl⟩
  have h : (at0 waiting .enter).interp u = Interp.fresh cfg0 {} := by
    show (lookupInterp [(0, waiting)] u).getD _ = _
    rw [lookupInterp, if_neg hu]; rfl
  rw [h]
  exact ⟨fun _ => rfl, fun _ => .inl rfl⟩

theorem test_ctx0_sound : ctx0.Sound where
  masterPeriod := by decide
  periods := by decide
  divisors := by decide
  builtin := by decide
  single := by decide
  numbers := by decide
  numbersBelow := by decide
  queues := by decide
  now := by decide
  clkrst := by decide

theorem test_ctx0_linked : ctx0.Linked where
  ids := by decide
  idsBelow := by decide
  tracks := by decide
  portDivider := by decide
  dividerPort := by
    intro g hg d hd t ht
    refine ⟨{ track := 0, divider := 1 }, List.mem_singleton.2 rfl, ?_⟩
    have key : ∀ g ∈ ctx0.allGroups, ∀ d ∈ g.list, d = ⟨1, 1, .track 0⟩ ∨ d = ⟨2, 4, .ext 9⟩ := by decide
    rcases key g hg d hd with rfl | rfl <;> cases ht
    exact ⟨rfl, rfl⟩

/-- A Context with an auxiliary clock whose one divider drives track 0. -/
def ctxAux : Context :=
  { initialContext 1 44100 ⟨183, 0xC0000⟩ with
      clocks := [{ period := ⟨1, 0⟩, groups := [{ num := 2, list := [⟨1, 1, .track 0⟩] }] }]
      tracks := [{ track := 0, divider := 1 }]
      units := [7]
      nextDivider := 2
      nextGroup := 3 }

theorem test_ctxAux_linked : ctxAux.Linked where
  ids := by decide
  idsBelow := by decide
  tracks := by decide
  portDivider := by decide
  dividerPort := by
    intro g hg d hd t ht
    have key : ∀ g ∈ ctxAux.allGroups, ∀ d ∈ g.list, d = ⟨1, 1, .track 0⟩ := by decide
    cases key g hg d hd
    cases ht
    exact ⟨{ track := 0, divider := 1 }, List.mem_singleton.2 rfl, rfl, rfl⟩

/-- An attached track and a bound one that is not; a track that was never bound; an auxiliary clock and no second one; a unit attached and one that is not; and
what a refusal of TrackAttach needs. -/
theorem test_witness_BindAndAttach :
    let s := { machine (prog []) [] with ctx := ctxAux, interps := [(0, prog []), (1, prog [])] }
    s.ctx.Linked
    ∧ (s.ctx.state = .running ∧ s.ctx.flags.ingen = false)
    ∧ (s.ctx.port? 1 = none ∧ s.ctx.port? 0 = some { track := 0, divider := 1 } ∧ ([0x3F] : List Word).length < 2 ^ 32)
    ∧ (s.bound 1 = true ∧ s.bound 2 = false ∧ s.ctx.group? 0 = some { num := 0 } ∧ s.ctx.group? 3 = none ∧ (1 : Word) ≠ 0
      ∧ belowCap s.cfg.capTracks s.ctx.tracks.length = true ∧ belowCap (some 1) s.ctx.tracks.length = false
      ∧ s.env.allocs.head? ≠ some false)
    ∧ (ftIsPositive ⟨0, 1⟩ = true ∧ ftIsPositive ⟨0, 0⟩ = false)
    ∧ (s.ctx.clocks[0]?.isSome = true ∧ s.ctx.clocks[1]? = none)
    ∧ (7 ∈ s.ctx.units ∧ 8 ∉ s.ctx.units) := ⟨test_ctxAux_linked, by decide⟩

/-- A group pass is about to visit the divider of track 0. -/
theorem test_witness_StepKeepsContextSound :
    (machine waiting [.pass 1 [1, 2] 4]).ctx.Sound ∧ (machine waiting [.pass 1 [1, 2] 4]).ctx.Linked
    ∧ ∃ u, step (machine waiting [.pass 1 [1, 2] 4]) = .next u := ⟨test_ctx0_sound, test_ctx0_linked, _, rfl⟩

end Sys2Proof.Tests
end

section
/-! How the machine steps between commands and while posted commands are left (00_scope.md R11, 47_clock_divider.md R238, 60_exceptions.md R290), and the gate
every command passes first (47_clock_divider.md R255, R256). -/

namespace Sys2Proof.Machine

/-! ## The step between commands and the step of posted commands -/

theorem State.idle_of_host_nil {s : State} (h : s.env.host = []) : s.idle = s := by
  unfold State.idle; rw [h]

theorem State.idle_of_host_cons {s : State} {c : Command} {later : List Command} (h : s.env.host = c :: later) :
    s.idle = runCommand c { s with env := { s.env with host := later } } := by
  unfold State.idle; rw [h]

@[simp] theorem State.processPosts_nil (rest : List Frame) (s : State) :
    s.processPosts [] rest = { s with ctl := rest } := rfl

@[simp] theorem State.processPosts_cons (c : Command) (later : List Command) (rest : List Frame) (s : State) :
    s.processPosts (c :: later) rest = runCommand c { s with ctl := .post later :: rest } := rfl

theorem step_of_ctl_nil {s : State} (h : s.ctl = []) : step s = .next s.idle := by
  unfold step; rw [h]

theorem step_of_ctl_post {s : State} {cmds : List Command} {rest : List Frame} (h : s.ctl = .post cmds :: rest) :
    step s = .next (s.processPosts cmds rest) := by
  unfold step; rw [h]

/-! ## The gate of a command -/

/-- Every command but Init asks for the state Running (R255). -/
theorem Command.allowedIn_of_ne_init {c : Command} (h : ∀ n r p, c ≠ .init n r p) (st : CtxState) :
    c.allowedIn st = (st == .running) := by
  cases c with
  | init n r p => exact absurd rfl (h n r p)
  | _ => rfl

@[simp] theorem Command.allowedIn_init (n r : Int) (p : FixedTime) (st : CtxState) :
    (Command.init n r p).allowedIn st = (st == .uninitialized) := rfl

/-- The list of R256 is complete: a command that is none of its six is not accepted inside a rendering call. -/
theorem Command.allowedInGen_eq_false {c : Command} (hattach : ∀ g d t, c ≠ .dividerAttach g d t)
    (hdetach : ∀ d, c ≠ .dividerDetach d) (hdivisor : ∀ d v, c ≠ .dividerSetDivisor d v) (hget : ∀ a b, c ≠ .getAttr a b)
    (hset : ∀ a b v, c ≠ .setAttr a b v) (hstatus : ∀ t, c ≠ .trackStatus t) : c.allowedInGen = false := by
  cases c with
  | dividerAttach g d t => exact absurd rfl (hattach g d t)
  | dividerDetach d => exact absurd rfl (hdetach d)
  | dividerSetDivisor d v => exact absurd rfl (hdivisor d v)
  | getAttr a b => exact absurd rfl (hget a b)
  | setAttr a b v => exact absurd rfl (hset a b v)
  | trackStatus t => exact absurd rfl (hstatus t)
  | _ => rfl

/-- A command that the Context's state does not allow only answers InvalidValue (R255). -/
theorem runCommand_refused_of_state {c : Command} {s : State} (h : c.allowedIn s.ctx.state = false) :
    runCommand c s = s.refuse .invalidValue := by
  obtain ⟨-, hrefused⟩ | ⟨hallowed, -⟩ := runCommand_cases c s
  · exact hrefused
  · rw [h] at hallowed; cases hallowed

/-- Inside a rendering call a command that is not in the list of R256 only answers InvalidValue. -/
theorem runCommand_refused_of_ingen {c : Command} {s : State} (hgen : s.ctx.flags.ingen = true) (h : c.allowedInGen = false) :
    runCommand c s = s.refuse .invalidValue := by
  obtain ⟨-, hrefused⟩ | ⟨-, hallowed⟩ := runCommand_cases c s
  · exact hrefused
  · rw [h] at hallowed; cases hallowed hgen

/-- Settles O47: the step with nothing running is `idle`, that of posted commands is `processPosts`, and each of the three grounds for turning a command away
closes one of the gate's two checks. -/
theorem commandGate : Obligations.CommandGate := by
  refine ⟨fun s hctl => ⟨fun c later hhost => ?_, fun hhost => ?_⟩,
    fun s rest => ⟨fun c later hctl => ?_, fun hctl => ?_⟩, fun c s hclosed => ?_⟩
  · rw [step_of_ctl_nil hctl, State.idle_of_host_cons hhost]
  · rw [step_of_ctl_nil hctl, State.idle_of_host_nil hhost]
  · rw [step_of_ctl_post hctl, State.processPosts_cons]
  · rw [step_of_ctl_post hctl, State.processPosts_nil]
  · show runCommand c s = s.refuse .invalidValue
    obtain ⟨hstate, hother⟩ | ⟨hstate, n, r, p, rfl⟩ | ⟨hgen, hattach, hdetach, hdivisor, hget, hset, hstatus⟩ := hclosed
    · apply runCommand_refused_of_state
      rw [Command.allowedIn_of_ne_init hother]
      exact beq_eq_false_iff_ne.2 hstate
    · apply runCommand_refused_of_state
      rw [Command.allowedIn_init]
      exact beq_eq_false_iff_ne.2 hstate
    · exact runCommand_refused_of_ingen hgen (Command.allowedInGen_eq_false hattach hdetach hdivisor hget hset hstatus)

end Sys2Proof.Machine
end

section
/-! What one step leaves in the list of interpreters, where an invocation is running: an instruction or a phase writes the running one and no other. -/

namespace Sys2Proof.Machine

/-! ## The running interpreter written, once or more -/

/-- The second write of an interpreter replaces the first. -/
theorem insertInterp_insertInterp (l : List (Track × Interp)) (t : Track) (i j : Interp) :
    insertInterp (insertInterp l t i) t j = insertInterp l t j := by
  induction l with
  | nil => simp [insertInterp]
  | cons p l ih =>
    obtain ⟨u, k⟩ := p
    by_cases hlt : t < u
    · simp [insertInterp, hlt]
    · by_cases heq : t = u
      · simp [insertInterp, heq]
      · simp [insertInterp, hlt, heq, ih]

/-- From `s` to `t` the running interpreter becomes `i`; no parameter and no other entry of the list of interpreters changes. Where nothing is written the list stays as
it is, also for a track that was never bound. -/
structure Writes (s t : State) (i : Interp) : Prop where
  cfg : t.cfg = s.cfg
  cur : t.cur = s.cur
  interps : t.interps = insertInterp s.interps s.cur i ∨ t.interps = s.interps ∧ i = s.it

theorem Writes.refl (s : State) : Writes s s s.it := ⟨rfl, rfl, .inr ⟨rfl, rfl⟩⟩

theorem Writes.it {s t : State} {i : Interp} (h : Writes s t i) : t.it = i := by
  obtain ⟨hcfg, hcur, hwritten | ⟨hsame, rfl⟩⟩ := h
  · simp [State.it, State.interp, hcur, hwritten]
  · simp [State.it, State.interp, hcur, hsame, hcfg]

theorem Writes.interp_other {s t : State} {i : Interp} (h : Writes s t i) {u : Track} (hu : u ≠ s.cur) : t.interp u = s.interp u := by
  obtain ⟨hcfg, -, hwritten | ⟨hsame, -⟩⟩ := h
  · simp [State.interp, hcfg, hwritten, lookupInterp_insert_other hu]
  · simp [State.interp, hcfg, hsame]

theorem Writes.andUpdIt {s t : State} {i : Interp} (h : Writes s t i) (f : Interp → Interp) : Writes s (t.updIt f) (f i) where
  cfg := h.cfg
  cur := h.cur
  interps := by
    have hupd : (t.updIt f).interps = insertInterp t.interps s.cur (f i) := by
      show insertInterp t.interps t.cur (f t.it) = _
      rw [h.cur, h.it]
    left
    obtain hwritten | ⟨hsame, -⟩ := h.interps
    · rw [hupd, hwritten, insertInterp_insertInterp]
    · rw [hupd, hsame]

theorem Writes.updIt (s : State) (f : Interp → Interp) : Writes s (s.updIt f) (f s.it) := (Writes.refl s).andUpdIt f

theorem Writes.sink {s t : State} {i : Interp} (h : Writes s t i) (k : SinkKind) (w : Word) : Writes s (t.sink k w) i :=
  ⟨h.cfg, h.cur, h.interps⟩

theorem Writes.setPhase {s t : State} {i : Interp} (h : Writes s t i) (p : Phase) : Writes s (t.setPhase p) i :=
  ⟨by simp [h.cfg], by simp [h.cur], by simp [h.interps]⟩

/-! ## Instructions -/

/-- The running interpreter after an interpreter fault (60_exceptions.md R273). -/
def Interp.raised (c : Cause) (i : Interp) : Interp := { i with status := { done := true, fault := some c }, lastw := 0 }

/-- The running interpreter after the program has ended without a fault. -/
def Interp.ended (i : Interp) : Interp := { i with status := { i.status with done := true } }

/-- The running interpreter with its cursor at an address. -/
def Interp.goto (address : Word) (i : Interp) : Interp := { i with pc := address }

/-- The running interpreter with its cursor past `n` words. -/
def Interp.advance (n : Nat) (i : Interp) : Interp := { i with pc := i.pc + BitVec.ofNat 32 n }

/-- What an instruction makes of the running interpreter; `exec_next` ties it to `exec`. -/
def Interp.after (cfg : Params) (i : Interp) : Instr → Interp
  | .attack note => (Interp.attacked { i with basenote := note }).advance 2
  | .release | .mute => i.advance 1
  | .arpeggio speed offsets => (i.loadArp cfg speed offsets).advance (3 + offsets.length)
  | .volume _ | .panning _ | .pitch _ | .dutycycle _ | .phasewrap _ | .mastervolume _ | .instrument _ | .waveform _
  | .group _ => i.advance 2
  | .attackticks ticks =>
    (Interp.accumulate ticks { i with atkc := ticks, tflags := { i.tflags with hasAttack := true } }).advance 2
  | .releaseticks ticks =>
    (Interp.accumulate ticks { i with relc := ticks, tflags := { i.tflags with hasRelease := true } }).advance 2
  | .muteticks ticks =>
    (Interp.accumulate ticks { i with mutc := ticks, tflags := { i.tflags with hasMute := true } }).advance 2
  | .step ticks => (i.advance 2).yield ticks
  | .stepticks => (Interp.advance 1 { i with dur := 0 }).yield i.dur
  | .call address => if i.sp < cfg.stackDepth then (i.push (i.pc + 2)).goto address else i.raised .stackOverflow
  | .ret => if i.sp = 0 then i.ended else i.drop.goto i.top
  | .jump address => i.goto address
  | .endTrack => i.ended

theorem Interp.after_call (cfg : Params) (i : Interp) (address : Word) :
    i.after cfg (.call address) = if i.sp < cfg.stackDepth then (i.push (i.pc + 2)).goto address else i.raised .stackOverflow := rfl

theorem Interp.after_ret (cfg : Params) (i : Interp) : i.after cfg .ret = if i.sp = 0 then i.ended else i.drop.goto i.top := rfl

theorem Writes.raise (s : State) (c : Cause) : Writes s (s.raise c) (s.it.raised c) := (Writes.updIt s _).setPhase _

theorem State.raise_ctl (s : State) (c : Cause) : (s.raise c).ctl = (s.setPhase (.ret (.error c))).ctl := by
  unfold State.raise State.setPhase
  rw [State.updIt_ctl]
  split <;> rfl

/-- An event on the sink and the cursor moved past the instruction. -/
theorem Writes.sink_advance (s : State) (k : SinkKind) (w : Word) (n : Nat) :
    Writes s ((s.sink k w).advance n) (s.it.advance n) := (Writes.updIt s (Interp.advance n)).sink k w

/-- An instruction writes the running interpreter only, and its invocation goes on or returns the fault. -/
theorem exec_next {instr : Instr} {s t : State} (h : exec instr s = .next t) :
    Writes s t (s.it.after s.cfg instr)
    ∧ (t.ctl = s.ctl ∨ ∃ c, s.it.after s.cfg instr = s.it.raised c ∧ t.ctl = (s.setPhase (.ret (.error c))).ctl) := by
  cases instr with
  | attack note =>
    cases h
    exact ⟨(((Writes.updIt s _).andUpdIt Interp.attacked).andUpdIt (Interp.advance 2)).sink _ _, .inl rfl⟩
  | arpeggio speed offsets => cases h; exact ⟨(Writes.updIt s _).andUpdIt (Interp.advance _), .inl rfl⟩
  | attackticks | releaseticks | muteticks => cases h; exact ⟨(Writes.updIt s _).andUpdIt (Interp.advance 2), .inl rfl⟩
  | step ticks => cases h; exact ⟨(Writes.updIt s (Interp.advance 2)).andUpdIt _, .inl rfl⟩
  | stepticks => cases h; exact ⟨((Writes.updIt s _).andUpdIt (Interp.advance 1)).andUpdIt _, .inl rfl⟩
  | waveform operand =>
    simp only [exec, execWaveform] at h
    split at h <;> (cases h; exact ⟨Writes.sink_advance s _ _ 2, .inl rfl⟩)
  | call address =>
    simp only [exec, execCall] at h
    rw [Interp.after_call]
    split at h <;> cases h
    · next hroom =>
      rw [if_pos hroom]
      exact ⟨(Writes.updIt s _).andUpdIt (Interp.goto address), .inl rfl⟩
    · next hfull =>
      rw [if_neg hfull]
      exact ⟨Writes.raise s _, .inr ⟨_, rfl, s.raise_ctl _⟩⟩
  | ret =>
    simp only [exec, execRet] at h
    rw [Interp.after_ret]
    split at h <;> cases h
    · next hempty => rw [if_pos hempty]; exact ⟨Writes.updIt s Interp.ended, .inl rfl⟩
    · next hentry => rw [if_neg hentry]; exact ⟨(Writes.updIt s _).andUpdIt (Interp.goto _), .inl rfl⟩
  | jump address => cases h; exact ⟨Writes.updIt s (Interp.goto address), .inl rfl⟩
  | group number => cases h; exact ⟨Writes.updIt s (Interp.advance 2), .inl rfl⟩
  | endTrack => cases h; exact ⟨Writes.updIt s Interp.ended, .inl rfl⟩
  | release | mute => cases h; exact ⟨Writes.sink_advance s _ _ 1, .inl rfl⟩
  | volume | panning | pitch | dutycycle | phasewrap | mastervolume | instrument =>
    cases h; exact ⟨Writes.sink_advance s _ _ 2, .inl rfl⟩

/-! ## The phases of an invocation (40_interpreter_cycle.md R111) -/

/-- The running interpreter after its due events are resolved (42_timed_envelope.md R155). -/
def Interp.dueResolved (i : Interp) : Interp := (if i.markDue.winner = some .attack then i.markDue.attacked else i.markDue).clearIntr

/-- The running interpreter after its due events and the arpeggio cycle (45_arpeggio.md R194). -/
def Interp.resolved (i : Interp) : Interp := if i.dueResolved.arpDue then i.dueResolved.cycled else i.dueResolved

theorem Writes.carryOut {s t : State} {i : Interp} (h : Writes s t i) (g : Option Gate) :
    Writes s (t.carryOut g) (if g = some .attack then i.attacked else i) := by
  rcases g with _ | _ | _ | _
  · exact h
  · exact (h.andUpdIt Interp.attacked).sink _ _
  · exact h.sink _ _
  · exact h.sink _ _

theorem Writes.resolveDue (s : State) : Writes s s.resolveDue s.it.dueResolved := by
  unfold State.resolveDue
  dsimp only
  rw [State.updIt_it]
  exact ((Writes.updIt s Interp.markDue).carryOut _).andUpdIt Interp.clearIntr

theorem Writes.resolved (s : State) : Writes s s.resolveDue.arpCycleIfDue s.it.resolved := by
  have hdue := Writes.resolveDue s
  unfold State.arpCycleIfDue Interp.resolved
  rw [hdue.it]
  split
  · exact (hdue.andUpdIt Interp.cycled).sink _ _
  · exact hdue

/-- One action of an invocation, up to its return, as a transition of the running interpreter and its phase; `step_of_invoke` ties it to the machine's step. -/
inductive Turns (cfg : Params) (i : Interp) : Phase → Interp → Phase → Prop
  | terminal (hdone : i.status.done = true) : Turns cfg i .enter i (.ret .done)
  | enter (hdone : i.status.done = false) : Turns cfg i .enter i.elapse .resolve
  | held (hheld : i.resolved.held = true) : Turns cfg i .resolve i.resolved .settle
  | free (hheld : i.resolved.held = false) :
    Turns cfg i .resolve { i.resolved with tflags := { i.resolved.tflags with hasStep := false } } .run
  | yielded (h : i.status.done = true ∨ i.tflags.hasStep = true) : Turns cfg i .run i .settle
  | instr (hstep : i.tflags.hasStep = false) (instr : Instr) : Turns cfg i .run (i.after cfg instr) .run
  | ended (hstep : i.tflags.hasStep = false) : Turns cfg i .run i.ended .run
  | fault (c : Cause) : Turns cfg i .run (i.raised c) (.ret (.error c))
  | finish (hdone : i.status.done = true) : Turns cfg i .settle { i with lastw := 0 } (.ret .done)
  | again (hdone : i.status.done = false) : Turns cfg i .settle i .resolve
  | wait (hdone : i.status.done = false) (w : Word) (hw : w ≠ 0) (hnearest : i.nearest = some w) :
    Turns cfg i .settle { i with lastw := w } (.ret (.ok w))

/-- What one action of an invocation of track `t` leaves: its interpreter written, and its phase. -/
def TurnsTo (s u : State) (t : Track) (p : Phase) (rest : List Frame) : Prop :=
  ∃ i q, Writes s u i ∧ u.ctl = .invoke t q :: rest ∧ Turns s.cfg s.it p i q

theorem enterStep_turns {s : State} {t : Track} {rest : List Frame} (hctl : s.ctl = .invoke t .enter :: rest) :
    TurnsTo s s.enterStep t .enter rest := by
  unfold State.enterStep
  split
  · next hdone => exact ⟨_, _, (Writes.refl s).setPhase _, State.setPhase_ctl_of_invoke _ hctl, .terminal hdone⟩
  · next hdone =>
    exact ⟨_, _, (Writes.updIt s _).setPhase _, State.setPhase_ctl_of_invoke _ hctl, .enter (by simpa using hdone)⟩

theorem resolveStep_turns {s : State} {t : Track} {rest : List Frame} (hctl : s.ctl = .invoke t .resolve :: rest) :
    TurnsTo s s.resolveStep t .resolve rest := by
  have hresolved := Writes.resolved s
  have hctl' : s.resolveDue.arpCycleIfDue.ctl = .invoke t .resolve :: rest := by simpa using hctl
  unfold State.resolveStep
  dsimp only
  rw [hresolved.it]
  split
  · next hheld => exact ⟨_, _, hresolved.setPhase _, State.setPhase_ctl_of_invoke _ hctl', .held hheld⟩
  · next hheld =>
    exact ⟨_, _, (hresolved.andUpdIt _).setPhase _, State.setPhase_ctl_of_invoke _ hctl', .free (by simpa using hheld)⟩

theorem runStep_turns {s u : State} {t : Track} {rest : List Frame} (hctl : s.ctl = .invoke t .run :: rest)
    (h : s.runStep = .next u) : TurnsTo s u t .run rest := by
  unfold State.runStep at h
  split at h
  · next hover => cases h; exact ⟨_, _, (Writes.refl s).setPhase _, State.setPhase_ctl_of_invoke _ hctl, .yielded (by simpa using hover)⟩
  · next hgoes =>
    have hstep : s.it.tflags.hasStep = false := by
      rw [Bool.or_eq_true, not_or] at hgoes
      simpa using hgoes.2
    split at h
    · obtain ⟨hwrites, hsame | ⟨c, hraised, hfault⟩⟩ := exec_next h
      · exact ⟨_, _, hwrites, hsame.trans hctl, .instr hstep _⟩
      · rw [hraised] at hwrites
        exact ⟨_, _, hwrites, hfault.trans (State.setPhase_ctl_of_invoke _ hctl), .fault c⟩
    · cases h; exact ⟨_, _, Writes.updIt s Interp.ended, hctl, .ended hstep⟩
    · cases h; exact ⟨_, _, Writes.updIt s Interp.ended, hctl, .ended hstep⟩
    · cases h; exact ⟨_, _, Writes.raise s _, State.raise_ctl_of_invoke _ hctl, .fault _⟩

theorem settleStep_turns {s u : State} {t : Track} {rest : List Frame} (hctl : s.ctl = .invoke t .settle :: rest)
    (h : s.settleStep = .next u) : TurnsTo s u t .settle rest := by
  unfold State.settleStep at h
  split at h
  · next hdone => cases h; exact ⟨_, _, (Writes.updIt s _).setPhase _, State.setPhase_ctl_of_invoke _ hctl, .finish hdone⟩
  · next hdone =>
    have hdone : s.it.status.done = false := by simpa using hdone
    split at h
    · cases h
    · next w hnearest =>
      cases h
      split
      · exact ⟨_, _, (Writes.refl s).setPhase _, State.setPhase_ctl_of_invoke _ hctl, .again hdone⟩
      · next hw => exact ⟨_, _, (Writes.updIt s _).setPhase _, State.setPhase_ctl_of_invoke _ hctl, .wait hdone w hw hnearest⟩

/-- One step of an invocation returns its result, or is one of the transitions of `Turns`. -/
theorem step_of_invoke {s u : State} {t : Track} {p : Phase} {rest : List Frame} (hctl : s.ctl = .invoke t p :: rest)
    (h : step s = .next u) : (∃ r, p = .ret r ∧ u = s.returnStep t r rest) ∨ TurnsTo s u t p rest := by
  unfold step at h
  rw [hctl] at h
  cases p with
  | enter => cases h; exact .inr (enterStep_turns hctl)
  | resolve => cases h; exact .inr (resolveStep_turns hctl)
  | run => exact .inr (runStep_turns hctl h)
  | settle => exact .inr (settleStep_turns hctl h)
  | ret r => cases h; exact .inl ⟨r, rfl, rfl⟩

end Sys2Proof.Machine
end

section
/-! Interpreters stay sound (10_state.md R31 a, b, c, f): each operation on an interpreter, then each transition of an invocation, the commands, and the step. -/

namespace Sys2Proof.Machine

/-! ## Soundness through the operations on an interpreter -/

theorem Interp.fresh_sound (cfg : Params) {b : Bindings} (h : b.pm.wf) : (Interp.fresh cfg b).Sound cfg where
  sp := Nat.zero_le _
  stack := List.length_replicate
  arp := List.length_replicate
  arplen := Nat.zero_le _
  arpidx := .inl rfl
  intr := ⟨rfl, rfl, rfl⟩
  fault := fun hfault => absurd rfl hfault
  arpeggio := nofun
  image := h

theorem bindingsOf_wf (program itab wtab : List Word) : (bindingsOf program itab wtab).pm.wf :=
  Memory.writeWords_wf Memory.nil_wf 0 program

section
variable {cfg : Params} {i : Interp}

theorem Interp.arpActive_iff : i.arpActive = true ↔ 1 ≤ i.arplen ∧ i.arpspeed ≠ 0 := by
  simp [Interp.arpActive]

/-- Loading or disarming the cycle timer is what makes the arpeggio flag sound, whatever it was before. -/
theorem Interp.Sound.rearm (sp : i.sp ≤ cfg.stackDepth) (stack : i.stack.length = cfg.stackDepth) (arp : i.arp.length = cfg.arpMax)
    (arplen : i.arplen ≤ cfg.arpMax) (arpidx : i.arplen = 0 ∨ i.arpidx < i.arplen)
    (intr : i.tflags.intrAttack = false ∧ i.tflags.intrRelease = false ∧ i.tflags.intrMute = false)
    (fault : i.status.fault ≠ none → i.status.done = true) (image : i.bind.pm.wf) : i.rearm.Sound cfg := by
  obtain ⟨hactive, heq⟩ | ⟨-, heq⟩ := i.rearm_cases
  · rw [heq]
    exact ⟨sp, stack, arp, arplen, arpidx, intr, fault, fun _ => Interp.arpActive_iff.1 hactive, image⟩
  · rw [heq]
    exact ⟨sp, stack, arp, arplen, arpidx, intr, fault, nofun, image⟩

/-- An attack restarts the arpeggio at its first offset, inside the loaded ones. -/
theorem Interp.Sound.attacked (h : i.Sound cfg) : i.attacked.Sound cfg := by
  refine .rearm h.sp h.stack h.arp h.arplen ?_ h.intr h.fault h.image
  show i.arplen = 0 ∨ (if 1 ≤ i.arplen then 1 % i.arplen else 0) < i.arplen
  split
  · next hloaded => exact .inr (Nat.mod_lt 1 hloaded)
  · next hnone => exact .inl (by omega)

/-- `ARPEGGIO` keeps the buffer's size: what it does not fill is zeros (45_arpeggio.md R196). -/
theorem Interp.Sound.loadArp (h : i.Sound cfg) (speed : Word) (offsets : List Word) : (i.loadArp cfg speed offsets).Sound cfg := by
  refine .rearm h.sp h.stack ?_ (Nat.min_le_right _ _) ?_ h.intr h.fault h.image
  · show (offsets.take (min offsets.length cfg.arpMax) ++ List.replicate (cfg.arpMax - min offsets.length cfg.arpMax) 0).length = _
    rw [List.length_append, List.length_take, List.length_replicate]
    omega
  · exact (Nat.eq_zero_or_pos (min offsets.length cfg.arpMax)).imp_right id

theorem Interp.Sound.cycled (h : i.Sound cfg) (hdue : i.arpDue = true) : i.cycled.Sound cfg := by
  have harmed : i.tflags.hasArpeggio = true := by
    unfold Interp.arpDue at hdue
    exact (Bool.and_eq_true _ _ ▸ hdue).1
  have hloaded : 0 < i.arplen := (h.arpeggio harmed).1
  exact ⟨h.sp, h.stack, h.arp, h.arplen, .inr (Nat.mod_lt _ hloaded), h.intr, h.fault, h.arpeggio, h.image⟩

/-- The IntrFlag bits and the arpeggio unit are apart: an attack may as well come after they are cleared. -/
theorem Interp.clearIntr_attacked (i : Interp) : i.attacked.clearIntr = i.clearIntr.attacked := by
  unfold Interp.attacked Interp.rearm
  rw [apply_ite Interp.clearIntr]
  rfl

/-- The due events are marked in the IntrFlag bits, which are 0 again in the end, and consumed, which touches no part of the arpeggio unit. -/
theorem Interp.Sound.dueResolved (h : i.Sound cfg) : i.dueResolved.Sound cfg := by
  have hmarked : i.markDue.clearIntr.Sound cfg :=
    ⟨h.sp, h.stack, h.arp, h.arplen, h.arpidx, ⟨rfl, rfl, rfl⟩, h.fault, h.arpeggio, h.image⟩
  unfold Interp.dueResolved
  split
  · rw [Interp.clearIntr_attacked]; exact hmarked.attacked
  · exact hmarked

theorem Interp.Sound.resolved (h : i.Sound cfg) : i.resolved.Sound cfg := by
  unfold Interp.resolved
  split
  · next hdue => exact h.dueResolved.cycled hdue
  · exact h.dueResolved

theorem Interp.Sound.goto (h : i.Sound cfg) (a : Word) : (i.goto a).Sound cfg :=
  ⟨h.sp, h.stack, h.arp, h.arplen, h.arpidx, h.intr, h.fault, h.arpeggio, h.image⟩

theorem Interp.Sound.advance (h : i.Sound cfg) (n : Nat) : (i.advance n).Sound cfg := h.goto _

theorem Interp.Sound.push (h : i.Sound cfg) (hroom : i.sp < cfg.stackDepth) (v : Word) : (i.push v).Sound cfg :=
  ⟨hroom, by rw [← h.stack]; exact List.length_set, h.arp, h.arplen, h.arpidx, h.intr, h.fault, h.arpeggio, h.image⟩

theorem Interp.Sound.drop (h : i.Sound cfg) : i.drop.Sound cfg :=
  ⟨(Nat.sub_le _ _).trans h.sp, h.stack, h.arp, h.arplen, h.arpidx, h.intr, h.fault, h.arpeggio, h.image⟩

theorem Interp.Sound.ended (h : i.Sound cfg) : i.ended.Sound cfg :=
  ⟨h.sp, h.stack, h.arp, h.arplen, h.arpidx, h.intr, fun _ => rfl, h.arpeggio, h.image⟩

theorem Interp.Sound.raised (h : i.Sound cfg) (c : Cause) : (i.raised c).Sound cfg :=
  ⟨h.sp, h.stack, h.arp, h.arplen, h.arpidx, h.intr, fun _ => rfl, h.arpeggio, h.image⟩

theorem Interp.Sound.yield (h : i.Sound cfg) (n : Word) : (i.yield n).Sound cfg := by
  obtain ⟨-, heq⟩ | ⟨-, heq⟩ := i.yield_cases n
  · rw [heq]; exact h
  · rw [heq]; exact ⟨h.sp, h.stack, h.arp, h.arplen, h.arpidx, h.intr, h.fault, h.arpeggio, h.image⟩

/-- Every instruction keeps its interpreter sound. -/
theorem Interp.Sound.after (h : i.Sound cfg) (instr : Instr) : (i.after cfg instr).Sound cfg := by
  have hsame : ∀ note dur atkc relc mutc attack release mute, Interp.Sound cfg { i with
      basenote := note, dur := dur, atkc := atkc, relc := relc, mutc := mutc
      tflags := { i.tflags with hasAttack := attack, hasRelease := release, hasMute := mute } } := fun _ _ _ _ _ _ _ _ =>
    ⟨h.sp, h.stack, h.arp, h.arplen, h.arpidx, h.intr, h.fault, h.arpeggio, h.image⟩
  cases instr with
  | attack note => exact (hsame note _ _ _ _ _ _ _).attacked.advance 2
  | arpeggio speed offsets => exact (h.loadArp speed offsets).advance _
  | attackticks ticks => exact (hsame _ _ ticks _ _ true _ _).advance 2
  | releaseticks ticks => exact (hsame _ _ _ ticks _ _ true _).advance 2
  | muteticks ticks => exact (hsame _ _ _ _ ticks _ _ true).advance 2
  | step ticks => exact (h.advance 2).yield ticks
  | stepticks => exact ((hsame _ 0 _ _ _ _ _ _).advance 1).yield _
  | call address =>
    rw [Interp.after_call]
    split
    · next hroom => exact (h.push hroom _).goto address
    · exact h.raised _
  | ret =>
    rw [Interp.after_ret]
    split
    · exact h.ended
    · exact h.drop.goto _
  | jump address => exact h.goto address
  | endTrack => exact h.ended
  | release | mute => exact h.advance 1
  | volume | panning | pitch | dutycycle | phasewrap | mastervolume | instrument | waveform | group => exact h.advance 2

/-- Every transition of an invocation keeps its interpreter sound. -/
theorem Turns.sound {p q : Phase} {j : Interp} (h : Turns cfg i p j q) (hi : i.Sound cfg) : j.Sound cfg := by
  cases h with
  | terminal | yielded | again => exact hi
  | enter => exact ⟨hi.sp, hi.stack, hi.arp, hi.arplen, hi.arpidx, hi.intr, hi.fault, hi.arpeggio, hi.image⟩
  | held => exact hi.resolved
  | free =>
    obtain ⟨sp, stack, arp, arplen, arpidx, intr, fault, arpeggio, image⟩ := hi.resolved
    exact ⟨sp, stack, arp, arplen, arpidx, intr, fault, arpeggio, image⟩
  | instr _ instr => exact hi.after instr
  | ended => exact hi.ended
  | fault c => exact hi.raised c
  | finish | wait => exact ⟨hi.sp, hi.stack, hi.arp, hi.arplen, hi.arpidx, hi.intr, hi.fault, hi.arpeggio, hi.image⟩

end

/-! ## The list of interpreters -/

/-- Every entry of the list after a write is the written one or was there before. -/
theorem mem_insertInterp {l : List (Track × Interp)} {t : Track} {i : Interp} {p : Track × Interp} (h : p ∈ insertInterp l t i) :
    p = (t, i) ∨ p ∈ l := by
  induction l with
  | nil => exact .inl (List.mem_singleton.1 h)
  | cons q l ih =>
    obtain ⟨u, j⟩ := q
    unfold insertInterp at h
    split at h
    · exact List.mem_cons.1 h
    · split at h
      · exact (List.mem_cons.1 h).imp_right (List.mem_cons_of_mem _)
      · obtain rfl | hmem := List.mem_cons.1 h
        · exact .inr List.mem_cons_self
        · exact (ih hmem).imp_right (List.mem_cons_of_mem _)

/-- An interpreter found is an entry of the list. -/
theorem mem_of_lookupInterp {l : List (Track × Interp)} {t : Track} {i : Interp} (h : lookupInterp l t = some i) : (t, i) ∈ l := by
  induction l with
  | nil => cases h
  | cons q l ih =>
    obtain ⟨u, j⟩ := q
    unfold lookupInterp at h
    split at h
    · next heq => cases h; rw [heq]; exact List.mem_cons_self
    · exact List.mem_cons_of_mem _ (ih h)

namespace State.InterpsSound
variable {s u : State}

/-- Every track's interpreter is sound, also that of a track that was never bound. -/
theorem interp (h : s.InterpsSound) (t : Track) : (s.interp t).Sound s.cfg := by
  unfold State.interp
  cases hfound : lookupInterp s.interps t with
  | none => exact Interp.fresh_sound _ Memory.nil_wf
  | some i => exact h.2 _ (mem_of_lookupInterp hfound)

theorem of_same (h : s.InterpsSound) (hcfg : u.cfg = s.cfg) (hinterps : u.interps = s.interps) : u.InterpsSound := by
  unfold State.InterpsSound
  rw [hcfg, hinterps]
  exact h

/-- Writing a sound interpreter keeps all sound and the handles rising. -/
theorem setInterp (h : s.InterpsSound) (t : Track) {i : Interp} (hi : i.Sound s.cfg) : (s.setInterp t i).InterpsSound := by
  obtain ⟨hrising, hsound⟩ := h
  refine ⟨insertInterp_sorted t i hrising, fun p hp => ?_⟩
  obtain rfl | hmem := mem_insertInterp hp
  · exact hi
  · exact hsound p hmem

theorem writes {i : Interp} (h : s.InterpsSound) (hw : Writes s u i) (hi : i.Sound s.cfg) : u.InterpsSound := by
  obtain ⟨hcfg, -, hwritten | ⟨hsame, -⟩⟩ := hw
  · exact (h.setInterp s.cur hi).of_same hcfg hwritten
  · exact h.of_same hcfg hsame

theorem interpReset (h : s.InterpsSound) (t : Track) : (s.interpReset t).InterpsSound :=
  h.setInterp t (Interp.fresh_sound _ (h.interp t).image)

theorem resetPorts (h : s.InterpsSound) (ports : List Port) : (ports.foldl (fun s p => s.interpReset p.track) s).InterpsSound := by
  induction ports generalizing s with
  | nil => exact h
  | cons p ports ih => exact ih (h.interpReset p.track)

theorem contextReset (h : s.InterpsSound) : s.contextReset.InterpsSound := (h.resetPorts s.ctx.tracks).of_same rfl rfl

/-- A command writes reset values only, in a track that it resets or binds. -/
theorem runCommand (h : s.InterpsSound) (c : Command) : (runCommand c s).InterpsSound := by
  have hrefused : (s.refuse .invalidValue).InterpsSound := h.of_same rfl rfl
  obtain ⟨-, hgate⟩ | ⟨hallowed, hopen⟩ := runCommand_cases c s
  · rw [hgate]; exact hrefused
  have hrun : (!c.allowedIn s.ctx.state || (s.ctx.flags.ingen && !c.allowedInGen)) = false :=
    commandGate_open hallowed (by cases hg : s.ctx.flags.ingen <;> simp_all)
  obtain ⟨hcfg, hkeeps⟩ := runCommand_keeps c s
  cases c with
  | reset => unfold Machine.runCommand; rw [hrun]; exact h.contextReset
  | trackReset t =>
    unfold Machine.runCommand; rw [hrun]
    show (cmdTrackReset t s).InterpsSound
    unfold cmdTrackReset
    split
    · exact (h.interpReset t).of_same rfl rfl
    · exact hrefused
  | trackBind t program itab wtab =>
    unfold Machine.runCommand; rw [hrun]
    show (cmdTrackBind t program itab wtab s).InterpsSound
    unfold cmdTrackBind
    split
    · exact (h.setInterp t (Interp.fresh_sound _ (bindingsOf_wf program itab wtab))).of_same rfl rfl
    · exact hrefused
  | _ => exact h.of_same hcfg (hkeeps nofun nofun nofun)

end State.InterpsSound

/-- Settles O57: an invocation makes one of the transitions of `Turns`, each of which keeps its interpreter sound; a command writes reset values; and every other
step writes no interpreter. -/
theorem stepKeepsInterpsSound : Obligations.StepKeepsInterpsSound := by
  intro s u hs hstep
  obtain ⟨t, p, rest, hctl⟩ | ⟨c, more, -, -, rfl⟩ | ⟨c, more, rest, -, rfl⟩ | ⟨-, hcfg, hinterps⟩ := step_origin hstep
  · obtain ⟨r, -, rfl⟩ | ⟨i, q, hwrites, -, hturn⟩ := step_of_invoke hctl hstep
    · exact hs.of_same rfl rfl
    · exact hs.writes hwrites (hturn.sound (hs.interp s.cur))
  · exact State.InterpsSound.runCommand (s := { s with env := { s.env with host := more } }) (hs.of_same rfl rfl) c
  · exact State.InterpsSound.runCommand (s := { s with ctl := .post more :: rest }) (hs.of_same rfl rfl) c
  · exact hs.of_same hcfg hinterps

end Sys2Proof.Machine
end

section
/-! What a step leaves in the interpreters and in the thread of control where no invocation is running; then that idle interpreters rest and the running one fits its
phase (10_state.md R31 d, e), and that only a TrackBind changes bindings (R53, R76, R302). -/

namespace Sys2Proof.Machine

/-! ## The interpreters after a step outside an invocation -/

/-- The next command of the host, or of the environment, that a step from this machine runs. -/
def State.AboutToRun (s : State) (c : Command) : Prop :=
  (s.ctl = [] ∧ ∃ more, s.env.host = c :: more) ∨ ∃ more rest, s.ctl = .post (c :: more) :: rest

/-- A step outside an invocation writes no parameter, and leaves an interpreter as it was, resets it, or runs a TrackBind of its track. -/
theorem step_of_not_invoke {s u : State} (h : step s = .next u) (hctl : ∀ t p rest, s.ctl ≠ .invoke t p :: rest) :
    u.cfg = s.cfg ∧ ∀ t, u.interp t = s.interp t ∨ u.interp t = Interp.fresh s.cfg (s.interp t).bind
      ∨ ∃ program itab wtab, s.AboutToRun (.trackBind t program itab wtab)
          ∧ u.interp t = Interp.fresh s.cfg (bindingsOf program itab wtab) := by
  obtain ⟨t, p, rest, hinvoke⟩ | ⟨c, more, hidle, hhost, rfl⟩ | ⟨c, more, rest, hpost, rfl⟩ | ⟨-, hcfg, hinterps⟩ := step_origin h
  · exact absurd hinvoke (hctl t p rest)
  · refine ⟨(runCommand_keeps c _).1, fun t => ?_⟩
    obtain hkept | hreset | ⟨program, itab, wtab, rfl, hbound⟩ := runCommand_interp c { s with env := { s.env with host := more } } t
    · exact .inl hkept
    · exact .inr (.inl hreset)
    · exact .inr (.inr ⟨program, itab, wtab, .inl ⟨hidle, more, hhost⟩, hbound⟩)
  · refine ⟨(runCommand_keeps c _).1, fun t => ?_⟩
    obtain hkept | hreset | ⟨program, itab, wtab, rfl, hbound⟩ := runCommand_interp c { s with ctl := .post more :: rest } t
    · exact .inl hkept
    · exact .inr (.inl hreset)
    · exact .inr (.inr ⟨program, itab, wtab, .inr ⟨more, rest, hpost⟩, hbound⟩)
  · refine ⟨hcfg, fun t => .inl ?_⟩
    unfold State.interp
    rw [hcfg, hinterps]

/-! ## The bindings -/

/-- A step of an invocation writes no parameter and no interpreter's bindings. -/
theorem step_of_invoke_keeps {s u : State} {t : Track} {p : Phase} {rest : List Frame} (hctl : s.ctl = .invoke t p :: rest)
    (h : step s = .next u) : u.cfg = s.cfg ∧ ∀ v, (u.interp v).bind = (s.interp v).bind := by
  have hlocal : ∀ {v}, Local s v → v.cfg = s.cfg ∧ ∀ w, (v.interp w).bind = (s.interp w).bind := fun {v} hv => by
    refine ⟨hv.cfg, fun w => ?_⟩
    by_cases hw : w = s.cur
    · subst hw
      have hbind := hv.bind
      unfold State.it at hbind
      rwa [hv.cur] at hbind
    · rw [hv.others w hw]
  unfold step at h
  rw [hctl] at h
  cases p with
  | enter => cases h; exact hlocal (Local.enterStep s)
  | resolve => cases h; exact hlocal (Local.resolveStep s)
  | run => exact hlocal (State.runStep_local h)
  | settle => exact hlocal (State.settleStep_local h)
  | ret r => cases h; exact ⟨rfl, fun _ => rfl⟩

/-- Settles O32: an invocation keeps parameters and bindings, and of the other steps only one that runs a TrackBind of the track changes its bindings. -/
theorem onlyTrackBindRebinds : Obligations.OnlyTrackBindRebinds := by
  refine ⟨fun s u hstep => ?_, fun s u t hstep hchanged => ?_⟩
  · by_cases hctl : ∀ t p rest, s.ctl ≠ .invoke t p :: rest
    · exact (step_of_not_invoke hstep hctl).1
    · push Not at hctl
      obtain ⟨t, p, rest, hctl⟩ := hctl
      exact (step_of_invoke_keeps hctl hstep).1
  · by_cases hctl : ∀ t p rest, s.ctl ≠ .invoke t p :: rest
    · obtain hkept | hreset | ⟨program, itab, wtab, hrun, hbound⟩ := (step_of_not_invoke hstep hctl).2 t
      · rw [hkept] at hchanged; exact absurd rfl hchanged
      · rw [hreset] at hchanged; exact absurd rfl hchanged
      · exact ⟨program, itab, wtab, by rw [hbound]; rfl, hrun⟩
    · push Not at hctl
      obtain ⟨v, p, rest, hctl⟩ := hctl
      exact absurd ((step_of_invoke_keeps hctl hstep).2 t) hchanged

/-! ## The thread of control after a step outside an invocation -/

/-- None of the activations is an invocation. -/
def NoInvoke (frames : List Frame) : Prop := ∀ f ∈ frames, f.isInvoke = false

theorem NoInvoke.nil : NoInvoke [] := nofun

theorem NoInvoke.cons {f : Frame} {frames : List Frame} (hf : f.isInvoke = false) (h : NoInvoke frames) : NoInvoke (f :: frames) :=
  List.forall_mem_cons.2 ⟨hf, h⟩

theorem NoInvoke.tail {frames : List Frame} (h : NoInvoke frames) : NoInvoke frames.tail := fun f hf => h f (List.mem_of_mem_tail hf)

theorem NoInvoke.openToPosts {s : State} (h : NoInvoke s.ctl) : NoInvoke s.openToPosts.ctl := by
  obtain ⟨-, heq⟩ | ⟨cmds, more, -, heq⟩ := s.openToPosts_cases
  · rw [heq]; exact h
  · rw [heq]; exact h.cons rfl

theorem NoInvoke.runCommand {s : State} (h : NoInvoke s.ctl) (c : Command) : NoInvoke (runCommand c s).ctl := by
  obtain heq | ⟨n, heq⟩ | ⟨endInt, cap, heq⟩ := runCommand_ctl c s
  · rw [heq]; exact h
  · rw [heq]; exact (h.cons rfl).cons rfl
  · rw [heq]; exact h.cons rfl

/-- No invocation is running, or the innermost activation is one at its entry. -/
def AtMostEntered (frames : List Frame) : Prop := NoInvoke frames ∨ ∃ t rest, frames = .invoke t .enter :: rest ∧ NoInvoke rest

theorem AtMostEntered.trackTick {s : State} (h : NoInvoke s.ctl) (t : Track) : AtMostEntered (s.trackTick t).ctl := by
  obtain heq | ⟨w, heq | heq⟩ := s.trackTick_cases t
  · rw [heq]; exact .inl h
  · rw [heq]; exact .inl h
  · rw [heq]; exact .inr ⟨t, s.ctl, rfl, h⟩

theorem AtMostEntered.visit {s : State} (h : NoInvoke s.ctl) (g : GroupNo) (id : DividerId) (k : BitVec 64) :
    AtMostEntered (s.visit g id k).ctl := by
  unfold State.visit
  split
  · exact .inl h
  · split
    · unfold State.fire
      split
      · exact .trackTick h.openToPosts _
      · exact .inl (NoInvoke.openToPosts (s := s.emit _) h)
    · exact .inl h

theorem NoInvoke.core {s u : State} {n produced : Nat} {stage : Stage} {rest : List Frame} (hctl : NoInvoke s.ctl) (hrest : NoInvoke rest)
    (h : s.coreStep n produced stage rest = .next u) : NoInvoke u.ctl := by
  unfold State.coreStep at h
  split at h
  · cases h
    unfold State.coreHead
    dsimp only
    split
    · exact hrest.cons rfl
    · exact NoInvoke.openToPosts (hrest.cons rfl)
  · unfold State.coreAdvance at h
    split at h <;> cases h
    exact hrest.cons rfl
  · unfold State.coreDue at h
    split at h
    · unfold State.boundary at h
      split at h
      · cases h; exact hctl
      · split at h
        · split at h <;> cases h
          exact hctl.cons rfl
        · cases h
    · cases h
      split
      · exact hrest
      · exact hrest.cons rfl

/-- A step outside an invocation starts at most one. -/
theorem step_atMostEntered {s u : State} (h : step s = .next u) (hctl : NoInvoke s.ctl) : AtMostEntered u.ctl := by
  have hrest : NoInvoke s.ctl.tail := hctl.tail
  unfold step at h
  cases hframes : s.ctl with
  | nil =>
    rw [hframes] at h
    cases h
    unfold State.idle
    split
    · exact .inl hctl
    · next c more _ => exact .inl (NoInvoke.runCommand (s := { s with env := { s.env with host := more } }) hctl c)
  | cons f rest =>
    rw [hframes] at h hrest
    have hrest : NoInvoke rest := hrest
    cases f with
    | invoke t p => exact absurd (hctl (.invoke t p) (by rw [hframes]; exact List.mem_cons_self)) nofun
    | post cmds =>
      cases h
      cases cmds with
      | nil => exact .inl hrest
      | cons c more => exact .inl (NoInvoke.runCommand (s := { s with ctl := .post more :: rest }) (hrest.cons rfl) c)
    | pass g ids k =>
      cases h
      cases ids with
      | nil => exact .inl ((State.endPass_rest g { s with ctl := rest }).2.2.1 ▸ hrest)
      | cons id more => exact .visit (s := { s with ctl := .pass g more k :: rest }) (hrest.cons rfl) g id k
    | groups gs k =>
      cases h
      cases gs with
      | nil => exact .inl hrest
      | cons g more => exact .inl ((hrest.cons rfl).cons rfl)
    | core n produced stage => exact .inl (NoInvoke.core hctl hrest h)
    | generate n => cases h; exact .inl hrest
    | toTime endInt cap total =>
      cases h
      unfold State.toTimeStep
      split
      · exact .inl ((hrest.cons rfl).cons rfl)
      · exact .inl hrest
    | callback endInt cap total m =>
      cases h
      have hnext : ∀ ack : Bool, (if ack then Frame.toTime endInt cap (total + m) else .unacknowledged).isInvoke = false := fun ack => by
        cases ack <;> rfl
      exact .inl (NoInvoke.openToPosts (hrest.cons (hnext _)))
    | unacknowledged => cases h; exact .inl hrest

/-! ## Rest and phases -/

section
variable {cfg : Params} {i j : Interp}

theorem Interp.fresh_resting (cfg : Params) (b : Bindings) : (Interp.fresh cfg b).Resting cfg := ⟨fun _ => rfl, fun _ => .inl rfl⟩

theorem Interp.attacked_hasStep (i : Interp) : i.attacked.tflags.hasStep = i.tflags.hasStep := by
  obtain ⟨_, ⟨heq, -⟩ | ⟨heq, -⟩⟩ := i.attacked_cases
  · rw [heq]
  · rw [heq]

theorem Interp.loadArp_hasStep (cfg : Params) (speed : Word) (offsets : List Word) (i : Interp) :
    (i.loadArp cfg speed offsets).tflags.hasStep = i.tflags.hasStep := by
  unfold Interp.loadArp
  dsimp only
  obtain ⟨-, heq⟩ | ⟨-, heq⟩ := Interp.rearm_cases _
  · rw [heq]
  · rw [heq]

/-- A yield is in progress with a wait that is not 0. -/
def Interp.HeldIfStep (i : Interp) : Prop := i.tflags.hasStep = true → i.stepc ≠ 0

theorem Interp.HeldIfStep.of_clear (h : i.tflags.hasStep = false) : i.HeldIfStep := fun hset => by simp [h] at hset

/-- Only the step instructions yield, and never with a wait of 0 (43_step.md R167). -/
theorem Interp.HeldIfStep.yield (h : i.tflags.hasStep = false) (n : Word) : (i.yield n).HeldIfStep := by
  obtain ⟨-, heq⟩ | ⟨hn, heq⟩ := i.yield_cases n
  · rw [heq]; exact .of_clear h
  · rw [heq]; exact fun _ => hn

theorem Interp.HeldIfStep.after (h : i.tflags.hasStep = false) (cfg : Params) (instr : Instr) : (i.after cfg instr).HeldIfStep := by
  cases instr with
  | step ticks => exact .yield (i := i.advance 2) h ticks
  | stepticks => exact .yield (i := Interp.advance 1 { i with dur := 0 }) h i.dur
  | attack note => exact .of_clear ((Interp.attacked_hasStep _).trans h)
  | arpeggio speed offsets => exact .of_clear ((Interp.loadArp_hasStep cfg speed offsets i).trans h)
  | call address => rw [Interp.after_call]; split <;> exact .of_clear h
  | ret => rw [Interp.after_ret]; split <;> exact .of_clear h
  | _ => exact .of_clear h

/-- Every transition of an invocation leads from an interpreter that fits its phase to one that fits the next phase. -/
theorem Turns.fits {p q : Phase} (h : Turns cfg i p j q) (hi : p.Fits cfg i) : q.Fits cfg j := by
  cases h with
  | terminal hdone => exact ⟨hdone, hi.1 hdone⟩
  | enter hdone => exact hdone
  | held hheld => exact .inr (by simpa [Interp.held] using hheld)
  | free => exact Interp.HeldIfStep.of_clear rfl
  | yielded hover => exact hover.imp_right fun hstep => ⟨hstep, hi hstep⟩
  | instr hstep instr => exact Interp.HeldIfStep.after hstep cfg instr
  | ended hstep => exact Interp.HeldIfStep.of_clear hstep
  | fault c => exact ⟨rfl, rfl, rfl⟩
  | finish hdone => exact ⟨hdone, rfl⟩
  | again hdone => exact hdone
  | wait hdone w hw hnearest =>
    obtain hended | ⟨hstep, hstepc⟩ := hi
    · rw [hended] at hdone; cases hdone
    · exact ⟨hdone, ⟨hstep, hstepc, hw, hnearest⟩, rfl⟩

/-- The interpreter whose invocation returns is at rest. -/
theorem Phase.Fits.resting {r : InvResult} (h : (Phase.ret r).Fits cfg i) : i.Resting cfg := by
  cases r with
  | ok w => exact ⟨fun hdone => by simp [h.1] at hdone, fun _ => .inr h.2.1⟩
  | done => exact ⟨fun _ => h.2, fun hdone => by simp [h.1] at hdone⟩
  | error c => exact ⟨fun _ => h.2.1, fun hdone => by simp [h.1] at hdone⟩

end

theorem State.PhasesFit.of_noInvoke {s : State} (hctl : NoInvoke s.ctl) (h : ∀ t, (s.interp t).Resting s.cfg) : s.PhasesFit := by
  refine ⟨hctl.tail, ?_⟩
  split
  · next t p rest heq => exact absurd (hctl (.invoke t p) (by rw [heq]; exact List.mem_cons_self)) nofun
  · exact h

theorem State.PhasesFit.of_invoke {s : State} {t : Track} {p : Phase} {rest : List Frame} (hctl : s.ctl = .invoke t p :: rest)
    (hrest : NoInvoke rest) (hfits : p.Fits s.cfg (s.interp t)) (h : ∀ u, u ≠ t → (s.interp u).Resting s.cfg) : s.PhasesFit := by
  unfold State.PhasesFit
  rw [hctl]
  exact ⟨hrest, hfits, h⟩

/-- Where no invocation is running, every interpreter rests. -/
theorem State.PhasesFit.idle {s : State} (h : s.PhasesFit) (hctl : ∀ t p rest, s.ctl ≠ .invoke t p :: rest) :
    NoInvoke s.ctl ∧ ∀ t, (s.interp t).Resting s.cfg := by
  obtain ⟨htail, hrest⟩ := h
  cases hframes : s.ctl with
  | nil => rw [hframes] at hrest; exact ⟨.nil, hrest⟩
  | cons f rest =>
    rw [hframes] at htail hrest
    cases f with
    | invoke t p => exact absurd hframes (hctl t p rest)
    | _ => exact ⟨.cons rfl htail, hrest⟩

/-- A step outside an invocation leaves every interpreter at rest. -/
theorem step_keeps_resting {s u : State} (h : step s = .next u) (hctl : ∀ t p rest, s.ctl ≠ .invoke t p :: rest)
    (hs : ∀ t, (s.interp t).Resting s.cfg) (t : Track) : (u.interp t).Resting u.cfg := by
  obtain ⟨hcfg, hinterps⟩ := step_of_not_invoke h hctl
  rw [hcfg]
  obtain hkept | hreset | ⟨program, itab, wtab, -, hbound⟩ := hinterps t
  · rw [hkept]; exact hs t
  · rw [hreset]; exact Interp.fresh_resting _ _
  · rw [hbound]; exact Interp.fresh_resting _ _

/-- Settles O58: an invocation makes one of the transitions of `Turns`, which keep the phase fitting, or returns an interpreter at rest; every other step leaves or
resets the interpreters, and starts at most one invocation, at its entry. -/
theorem stepKeepsPhasesFit : Obligations.StepKeepsPhasesFit := by
  intro s u hs hstep
  by_cases hctl : ∀ t p rest, s.ctl ≠ .invoke t p :: rest
  · obtain ⟨hno, hresting⟩ := hs.idle hctl
    have hresting := step_keeps_resting hstep hctl hresting
    obtain hnone | ⟨t, rest, hentered, hrest⟩ := step_atMostEntered hstep hno
    · exact .of_noInvoke hnone hresting
    · exact .of_invoke hentered hrest (hresting t) fun v _ => hresting v
  · push Not at hctl
    obtain ⟨t, p, rest, hctl⟩ := hctl
    have hcur : s.cur = t := State.cur_of_invoke hctl
    obtain ⟨hrest, hfits⟩ := hs
    rw [hctl] at hrest hfits
    obtain ⟨hfits, hothers⟩ := hfits
    obtain ⟨r, rfl, rfl⟩ | ⟨i, q, hwrites, hctl', hturn⟩ := step_of_invoke hctl hstep
    · refine .of_noInvoke hrest fun v => ?_
      show (s.interp v).Resting s.cfg
      by_cases hv : v = t
      · subst hv; exact hfits.resting
      · exact hothers v hv
    · subst hcur
      refine .of_invoke hctl' hrest ?_ fun v hv => ?_
      · rw [← hwrites.cur, hwrites.cfg]
        show q.Fits s.cfg u.it
        rw [hwrites.it]
        exact hturn.fits hfits
      · rw [hwrites.interp_other hv, hwrites.cfg]
        exact hothers v hv

end Sys2Proof.Machine
end

section
/-! The bits of the flag registers (10_state.md R26, R27, R45) and the codes (R50, 60_exceptions.md R270, 40_interpreter_cycle.md R121). -/

namespace Sys2Proof.Machine

/-- A flag sets its own bit of the register and no other. -/
theorem bitAt_getLsbD (b : Bool) {i : Nat} (hi : i < 32) (j : Nat) : (bitAt b i).getLsbD j = (b && decide (j = i)) := by
  cases b with
  | false => simp [bitAt]
  | true =>
    simp only [bitAt, if_true, BitVec.getLsbD_shiftLeft, Bool.true_and]
    rw [Bool.eq_iff_iff]
    simp
    omega

theorem TFlags.word_getLsbD (f : TFlags) (j : Nat) :
    f.word.getLsbD j = [f.hasStep, f.hasAttack, f.hasRelease, f.hasMute, f.hasArpeggio, false, false, false, f.intrAttack,
      f.intrRelease, f.intrMute].getD j false := by
  have hbits : f.word.getLsbD j = (f.hasStep && decide (j = 0) || f.hasAttack && decide (j = 1) || f.hasRelease && decide (j = 2)
      || f.hasMute && decide (j = 3) || f.hasArpeggio && decide (j = 4) || f.intrAttack && decide (j = 8)
      || f.intrRelease && decide (j = 9) || f.intrMute && decide (j = 10)) := by
    simp [TFlags.word, bitAt_getLsbD]
  rw [hbits]
  by_cases hj : j < 11
  · interval_cases j <;> simp
  · rw [List.getD_eq_default _ _ (Nat.le_of_not_lt hj)]
    simp
    omega

/-- DONE and the fault cause are the only bits of STATUS. -/
theorem Status.word_fields (x : Status) :
    x.word.getLsbD 0 = x.done
    ∧ x.word.extractLsb' 1 2 = BitVec.ofNat 2 (faultCode x.fault)
    ∧ x.word.extractLsb' 3 29 = 0 := by
  obtain ⟨done, fault⟩ := x
  rcases fault with _ | _ | _ <;> cases done <;> decide

theorem CtxFlags.word_getLsbD (f : CtxFlags) (j : Nat) : f.word.getLsbD j = [f.clkrst, f.ingen].getD j false := by
  have hbits : f.word.getLsbD j = (f.clkrst && decide (j = 0) || f.ingen && decide (j = 1)) := by
    simp [CtxFlags.word, bitAt_getLsbD]
  rw [hbits]
  match j with
  | 0 => simp
  | 1 => simp
  | j + 2 => simp

/-- Settles O55: the three registers bit by bit; the codes are the tables of the model read in the order of R50 and R270. -/
theorem registerImages : Obligations.RegisterImages := by
  refine ⟨TFlags.word_getLsbD, fun x => ?_, CtxFlags.word_getLsbD, rfl, rfl, fun _ => ⟨rfl, rfl, rfl, rfl⟩⟩
  obtain ⟨hdone, hfault, hrest⟩ := x.word_fields
  refine ⟨hdone, hfault.trans ?_, hrest⟩
  obtain ⟨_, _ | _ | _⟩ := x
  · rfl
  · rfl
  · rfl

end Sys2Proof.Machine
end

section
/-! The Context as its lists: the identifiers its groups hold, the targets its dividers drive, the tracks its ports belong to; what each operation on the Context
does to them, and that each keeps the Context sound and linked (10_state.md R41 to R47, 47_clock_divider.md R260, R262). -/

namespace Sys2Proof.Machine

/-! ## Identifiers, drives and links -/

/-- The identifiers of the dividers of a group with what each drives. -/
def Group.drives (g : Group) : List (DividerId × Target) := g.list.map fun d => (d.id, d.target)

/-- The identifiers of all dividers with what each drives. -/
def Context.drives (c : Context) : List (DividerId × Target) := c.allGroups.flatMap Group.drives

/-- The dividers that the ports name, with the tracks of the ports. -/
def Context.links (c : Context) : List (DividerId × Target) := c.tracks.map fun p => (p.divider, .track p.track)

/-- Every identifier that a group holds. -/
def Context.ids (c : Context) : List DividerId := c.allGroups.flatMap Group.ids

theorem Context.mem_drives {c : Context} {id : DividerId} {target : Target} :
    (id, target) ∈ c.drives ↔ ∃ g ∈ c.allGroups, ∃ d ∈ g.list, d.id = id ∧ d.target = target := by
  simp [Context.drives, Group.drives]

theorem Context.mem_links {c : Context} {id : DividerId} {t : Track} :
    (id, .track t) ∈ c.links ↔ ∃ p ∈ c.tracks, p.track = t ∧ p.divider = id := by
  simp [Context.links, and_comm]

/-- The dividers that drive tracks are exactly the ones that the ports name. -/
def Context.Matched (c : Context) : Prop := ∀ id t, (id, .track t) ∈ c.drives ↔ (id, .track t) ∈ c.links

/-- Linked, through the three lists (R46, R260, R262). -/
theorem Context.linked_iff {c : Context} :
    c.Linked ↔ c.ids.Nodup ∧ (∀ id ∈ c.ids, id < c.nextDivider) ∧ (c.tracks.map (·.track)).Nodup ∧ c.Matched := by
  constructor
  · rintro ⟨hids, hbelow, htracks, hport, hdivider⟩
    refine ⟨hids, fun id hid => ?_, htracks, fun id t => ?_⟩
    · obtain ⟨g, hg, hmem⟩ := List.mem_flatMap.1 hid
      exact hbelow g hg id hmem
    · rw [Context.mem_drives, Context.mem_links]
      constructor
      · rintro ⟨g, hg, d, hd, rfl, htarget⟩; exact hdivider g hg d hd t htarget
      · rintro ⟨p, hp, rfl, rfl⟩; exact hport p hp
  · rintro ⟨hids, hbelow, htracks, hmatched⟩
    refine ⟨hids, fun g hg id hid => hbelow id (List.mem_flatMap.2 ⟨g, hg, hid⟩), htracks, fun p hp => ?_, fun g hg d hd t ht => ?_⟩
    · exact Context.mem_drives.1 ((hmatched _ _).2 (Context.mem_links.2 ⟨p, hp, rfl, rfl⟩))
    · exact Context.mem_links.1 ((hmatched _ _).1 (Context.mem_drives.2 ⟨g, hg, d, hd, rfl, ht⟩))

theorem nodup_of_subperm {l m : List DividerId} (h : l.Subperm m) (hm : m.Nodup) : l.Nodup := by
  obtain ⟨k, hperm, hsub⟩ := h
  exact hperm.nodup_iff.1 (hsub.nodup hm)

/-- A change that gives out no identifier keeps the Context linked where the drives still match the links. -/
theorem Context.Linked.of_ids {c c' : Context} (h : c.Linked) (hids : c'.ids.Subperm c.ids) (hnext : c.nextDivider ≤ c'.nextDivider)
    (htracks : (c'.tracks.map (·.track)).Nodup) (hmatched : c'.Matched) : c'.Linked := by
  obtain ⟨hnodup, hbelow, -, -⟩ := Context.linked_iff.1 h
  exact Context.linked_iff.2 ⟨nodup_of_subperm hids hnodup, fun id hid => (hbelow id (hids.subset hid)).trans_le hnext, htracks, hmatched⟩

/-- The same for a change that gives out the next identifier. -/
theorem Context.Linked.of_fresh {c c' : Context} (h : c.Linked) (hids : c'.ids.Subperm (c.nextDivider :: c.ids))
    (hnext : c'.nextDivider = c.nextDivider + 1) (htracks : (c'.tracks.map (·.track)).Nodup) (hmatched : c'.Matched) : c'.Linked := by
  obtain ⟨hnodup, hbelow, -, -⟩ := Context.linked_iff.1 h
  have hnew : c.nextDivider ∉ c.ids := fun hmem => Nat.lt_irrefl _ (hbelow _ hmem)
  refine Context.linked_iff.2 ⟨nodup_of_subperm hids (List.nodup_cons.2 ⟨hnew, hnodup⟩), fun id hid => ?_, htracks, hmatched⟩
  rw [hnext]
  obtain rfl | hold := List.mem_cons.1 (hids.subset hid)
  · exact Nat.lt_succ_self _
  · exact (hbelow id hold).trans (Nat.lt_succ_self _)

/-- A divider drives one target only. -/
theorem Context.Linked.drives_unique {c : Context} (h : c.Linked) {id : DividerId} {x y : Target} (hx : (id, x) ∈ c.drives)
    (hy : (id, y) ∈ c.drives) : x = y := by
  have hsub : (c.drives.map Prod.fst).Sublist c.ids := by
    unfold Context.drives Context.ids
    rw [List.map_flatMap]
    refine List.Sublist.flatMap_right _ fun g _ => ?_
    unfold Group.drives Group.ids
    rw [List.map_map]
    exact List.sublist_append_left _ _
  have hnodup : (c.drives.map Prod.fst).Nodup := hsub.nodup (Context.linked_iff.1 h).1
  exact congrArg Prod.snd (List.inj_on_of_nodup_map hnodup hx hy rfl)

/-! ## The lists after the groups are changed -/

theorem Context.mem_drives_mapGroups {c : Context} {f : Group → Group} {p : DividerId × Target} :
    p ∈ (c.mapGroups f).drives ↔ ∃ x ∈ c.allGroups, p ∈ (f x).drives := by
  simp [Context.drives, Context.allGroups_mapGroups]

theorem Context.drives_mapGroups_of_same {c : Context} {f : Group → Group} (hf : ∀ x ∈ c.allGroups, (f x).drives = x.drives) :
    (c.mapGroups f).drives = c.drives := by
  unfold Context.drives
  rw [Context.allGroups_mapGroups, List.flatMap_map]
  exact List.flatMap_congr hf

theorem Context.ids_mapGroups {c : Context} {f : Group → Group} (hf : ∀ x ∈ c.allGroups, (f x).ids.Subperm x.ids) :
    (c.mapGroups f).ids.Subperm c.ids := by
  unfold Context.ids
  rw [Context.allGroups_mapGroups, List.flatMap_map]
  revert hf
  generalize c.allGroups = l
  intro hf
  induction l with
  | nil => exact .refl _
  | cons x l ih =>
    obtain ⟨hx, hl⟩ := List.forall_mem_cons.1 hf
    exact hx.append (ih hl)

/-- Where group numbers are distinct, a change of the group of a number that adds one identifier adds it once. -/
theorem Context.ids_updGroup_cons {c : Context} (hnumbers : (c.allGroups.map (·.num)).Nodup) {g : GroupNo} {f : Group → Group}
    {id : DividerId} (hf : ∀ x, (f x).ids.Perm (id :: x.ids)) : (c.updGroup g f).ids.Subperm (id :: c.ids) := by
  unfold Context.ids
  rw [Context.allGroups_updGroup]
  revert hnumbers
  generalize c.allGroups = l
  intro hnumbers
  induction l with
  | nil => exact List.nil_subperm
  | cons x l ih =>
    obtain ⟨hx, hl⟩ := List.nodup_cons.1 hnumbers
    rw [List.map_cons, List.flatMap_cons, List.flatMap_cons]
    by_cases hnum : x.num = g
    · have hrest : (l.map fun y => if y.num = g then f y else y) = l := by
        refine (List.map_congr_left fun y hy => if_neg fun heq => hx ?_).trans (List.map_id l)
        exact List.mem_map.2 ⟨y, hy, heq.trans hnum.symm⟩
      rw [if_pos hnum, hrest]
      exact ((hf x).append_right _).subperm
    · rw [if_neg hnum]
      exact ((List.subperm_append_left x.ids).2 (ih hl)).trans List.perm_middle.subperm

/-! ## Soundness after the groups are changed -/

/-- From `x` to `y` the group keeps its number, nonzero divisors, and an empty queue outside passes. -/
structure Group.KeepsSound (x y : Group) : Prop where
  num : y.num = x.num
  divisors : (∀ d ∈ x.list, d.divisor ≠ 0) → ∀ d ∈ y.list, d.divisor ≠ 0
  queue : (x.inPass = false → x.queue = []) → y.inPass = false → y.queue = []

theorem Group.KeepsSound.refl (x : Group) : x.KeepsSound x := ⟨rfl, id, id⟩

/-- Changing the group of a number only asks something of that group. -/
theorem Group.KeepsSound.ite {x : Group} {g : GroupNo} {f : Group → Group} (h : x.num = g → x.KeepsSound (f x)) :
    x.KeepsSound (if x.num = g then f x else x) := by
  split
  · next hnum => exact h hnum
  · exact .refl x

/-- Moreover it gives out no identifier, and the same dividers drive tracks. -/
structure Group.Keeps (x y : Group) : Prop extends Group.KeepsSound x y where
  ids : y.ids.Subperm x.ids
  drives : ∀ i t, (i, .track t) ∈ y.drives ↔ (i, .track t) ∈ x.drives

theorem Group.Keeps.refl (x : Group) : x.Keeps x := ⟨.refl x, .refl _, fun _ _ => Iff.rfl⟩

theorem Context.Sound.mapGroups {c : Context} (h : c.Sound) {f : Group → Group} (hf : ∀ x ∈ c.allGroups, x.KeepsSound (f x)) :
    (c.mapGroups f).Sound where
  masterPeriod := h.masterPeriod
  periods := List.forall_mem_map.2 h.periods
  divisors := by
    rw [c.allGroups_mapGroups]
    exact List.forall_mem_map.2 fun x hx => (hf x hx).divisors (h.divisors x hx)
  builtin := by
    rw [← h.builtin]
    show (c.master.groups.map f).map (·.num) = _
    rw [List.map_map]
    exact List.map_congr_left fun x hx => (hf x (Context.mem_allGroups.2 ⟨c.master, List.mem_cons_self, hx⟩)).num
  single := List.forall_mem_map.2 fun k hk => List.length_map _ |>.trans (h.single k hk)
  numbers := by
    rw [c.allGroups_mapGroups, List.map_map]
    show (c.allGroups.map fun x => (f x).num).Nodup
    rw [List.map_congr_left fun x hx => (hf x hx).num]
    exact h.numbers
  numbersBelow := by
    rw [c.allGroups_mapGroups]
    exact List.forall_mem_map.2 fun x hx => (hf x hx).num ▸ h.numbersBelow x hx
  queues := by
    rw [c.allGroups_mapGroups]
    exact List.forall_mem_map.2 fun x hx => (hf x hx).queue (h.queues x hx)
  now := h.now
  clkrst := h.clkrst

/-- Soundness speaks of the clocks, the group numbers given out, `now` and CLKRST only, and of the state where it is Running. -/
theorem Context.Sound.of_same {c c' : Context} (h : c.Sound) (hstate : c'.state = .running → c.state = .running)
    (hmaster : c'.master = c.master) (hclocks : c'.clocks = c.clocks) (hgroup : c'.nextGroup = c.nextGroup) (hnow : c'.now = c.now)
    (hclkrst : c'.flags.clkrst = c.flags.clkrst) : c'.Sound := by
  have hall : c'.allGroups = c.allGroups := by simp [Context.allGroups, Context.clockList, hmaster, hclocks]
  obtain ⟨masterPeriod, periods, divisors, builtin, single, numbers, numbersBelow, queues, now, clkrst⟩ := h
  rw [← hmaster] at masterPeriod builtin
  rw [← hclocks] at periods single
  rw [← hall] at divisors numbers numbersBelow queues
  rw [← hgroup] at numbersBelow
  exact ⟨masterPeriod ∘ hstate, periods, divisors, builtin, single, numbers, numbersBelow, queues, hnow ▸ now, hclkrst.trans clkrst⟩

/-- A number names one group only. -/
theorem Context.Sound.group_unique {c : Context} (h : c.Sound) {x y : Group} (hx : x ∈ c.allGroups) (hy : y ∈ c.allGroups)
    (hnum : x.num = y.num) : x = y := List.inj_on_of_nodup_map h.numbers hx hy hnum

/-! ## The operations on one group -/

@[simp] theorem Group.append_num (d : Divider) (x : Group) : (x.append d).num = x.num := rfl
@[simp] theorem Group.remove_num (id : DividerId) (x : Group) : (x.remove id).num = x.num := rfl
@[simp] theorem Group.setDivisor_num (id : DividerId) (divisor : Word) (x : Group) : (x.setDivisor id divisor).num = x.num := rfl

theorem Group.ids_append (d : Divider) (x : Group) : (x.append d).ids.Perm (d.id :: x.ids) := by
  unfold Group.append Group.ids
  rw [List.map_append, List.append_assoc]
  exact List.perm_middle

theorem Group.drives_append (d : Divider) (x : Group) : (x.append d).drives = x.drives ++ [(d.id, d.target)] := List.map_append

theorem Group.KeepsSound.append (x : Group) {d : Divider} (hd : d.divisor ≠ 0) : x.KeepsSound (x.append d) :=
  ⟨rfl, fun h => List.forall_mem_append.2 ⟨h, List.forall_mem_singleton.2 hd⟩, id⟩

theorem Group.ids_remove (id : DividerId) (x : Group) : (x.remove id).ids.Subperm x.ids :=
  (((List.filter_sublist).map _).append (List.Sublist.refl _)).subperm

theorem Group.mem_drives_remove {id i : DividerId} {x : Group} {target : Target} :
    (i, target) ∈ (x.remove id).drives ↔ (i, target) ∈ x.drives ∧ i ≠ id := by
  simp only [Group.drives, Group.remove, List.mem_map, List.mem_filter, bne_iff_ne, Prod.mk.injEq]
  constructor
  · rintro ⟨d, ⟨hd, hne⟩, rfl, rfl⟩; exact ⟨⟨d, hd, rfl, rfl⟩, hne⟩
  · rintro ⟨⟨d, hd, rfl, rfl⟩, hne⟩; exact ⟨d, ⟨hd, hne⟩, rfl, rfl⟩

theorem Group.KeepsSound.remove (id : DividerId) (x : Group) : x.KeepsSound (x.remove id) :=
  ⟨rfl, fun h d hd => h d (List.mem_filter.1 hd).1, fun h => h⟩

theorem Group.drives_setDivisor (id : DividerId) (divisor : Word) (x : Group) : (x.setDivisor id divisor).drives = x.drives := by
  unfold Group.setDivisor Group.drives
  rw [List.map_map]
  refine List.map_congr_left fun d _ => ?_
  rw [Function.comp_apply]
  split <;> rfl

theorem Group.ids_setDivisor (id : DividerId) (divisor : Word) (x : Group) : (x.setDivisor id divisor).ids = x.ids := by
  have hids : (x.setDivisor id divisor).list.map (·.id) = x.list.map (·.id) := by
    simpa [Group.drives, Function.comp_def] using congrArg (List.map Prod.fst) (Group.drives_setDivisor id divisor x)
  unfold Group.ids
  rw [hids]
  rfl

theorem Group.KeepsSound.setDivisor (id : DividerId) {divisor : Word} (hd : divisor ≠ 0) (x : Group) :
    x.KeepsSound (x.setDivisor id divisor) := by
  refine ⟨rfl, fun h => List.forall_mem_map.2 fun d hmem => ?_, fun h => h⟩
  split
  · exact hd
  · exact h d hmem

/-- A queue is appended to while the pass runs. -/
theorem Group.KeepsSound.post {x : Group} (hpass : x.inPass = true) (q : Deferred) : x.KeepsSound (x.post q) :=
  ⟨rfl, id, fun _ hidle => by rw [show x.inPass = false from hidle] at hpass; cases hpass⟩

theorem Group.ids_post_attach (id : DividerId) (divisor tag : Word) (x : Group) :
    (x.post (.attach id divisor tag)).ids.Perm (id :: x.ids) := by
  unfold Group.post Group.ids
  rw [List.filterMap_append, ← List.append_assoc]
  exact List.perm_append_singleton _ _

theorem Group.ids_post_detach (id : DividerId) (x : Group) : (x.post (.detach id)).ids = x.ids := by simp [Group.post, Group.ids]

theorem Group.ids_post_setDivisor (id : DividerId) (divisor : Word) (x : Group) : (x.post (.setDivisor id divisor)).ids = x.ids := by
  simp [Group.post, Group.ids]

/-! ## Operations that keep the Context sound and linked -/

@[simp] theorem Clock.zeroed_groups (k : Clock) : k.zeroed.groups = k.groups := rfl
@[simp] theorem Clock.zeroed_period (k : Clock) : k.zeroed.period = k.period := rfl

/-- The Context is sound, its tracks and dividers linked. -/
structure Context.Intact (c : Context) : Prop where
  sound : c.Sound
  linked : c.Linked

namespace Context.Intact
variable {c : Context}

theorem tracks_nodup (h : c.Intact) : (c.tracks.map (·.track)).Nodup := h.linked.tracks

theorem matched (h : c.Intact) : c.Matched := (Context.linked_iff.1 h.linked).2.2.2

/-- Only the clocks, the tracks and what has been given out matter. -/
theorem of_same {c' : Context} (h : c.Intact) (hstate : c'.state = .running → c.state = .running) (hmaster : c'.master = c.master)
    (hclocks : c'.clocks = c.clocks) (hgroup : c'.nextGroup = c.nextGroup) (hnow : c'.now = c.now)
    (hclkrst : c'.flags.clkrst = c.flags.clkrst) (htracks : c'.tracks = c.tracks) (hdivider : c'.nextDivider = c.nextDivider) :
    c'.Intact := by
  have hall : c'.allGroups = c.allGroups := by simp [Context.allGroups, Context.clockList, hmaster, hclocks]
  refine ⟨h.sound.of_same hstate hmaster hclocks hgroup hnow hclkrst, h.linked.of_ids ?_ hdivider.ge ?_ ?_⟩
  · simp [Context.ids, hall, List.Subperm.refl]
  · rw [htracks]; exact h.tracks_nodup
  · simpa [Context.Matched, Context.drives, Context.links, hall, htracks] using h.matched

/-- Writing waits and errors of ports. -/
theorem mapPorts (h : c.Intact) {f : Port → Port} (htrack : ∀ p, (f p).track = p.track) (hdivider : ∀ p, (f p).divider = p.divider) :
    ({ c with tracks := c.tracks.map f } : Context).Intact := by
  refine ⟨h.sound.of_same id rfl rfl rfl rfl rfl, h.linked.of_ids (.refl _) le_rfl ?_ ?_⟩
  · simpa [Function.comp_def, htrack] using h.tracks_nodup
  · have hlinks : ({ c with tracks := c.tracks.map f } : Context).links = c.links := by
      simp [Context.links, Function.comp_def, htrack, hdivider]
    unfold Context.Matched
    rw [hlinks]
    exact h.matched

theorem updPort (h : c.Intact) (t : Track) {f : Port → Port} (htrack : ∀ p, (f p).track = p.track)
    (hdivider : ∀ p, (f p).divider = p.divider) : (c.updPort t f).Intact := by
  refine h.mapPorts (fun p => ?_) fun p => ?_
  · split <;> simp [htrack]
  · split <;> simp [hdivider]

/-- Changing groups so that no identifier is given out and the same dividers drive tracks. -/
theorem mapGroups (h : c.Intact) {f : Group → Group} (hf : ∀ x ∈ c.allGroups, x.Keeps (f x)) : (c.mapGroups f).Intact := by
  refine ⟨h.sound.mapGroups fun x hx => (hf x hx).toKeepsSound,
    h.linked.of_ids (Context.ids_mapGroups fun x hx => (hf x hx).ids) le_rfl h.tracks_nodup fun i t => ?_⟩
  refine Iff.trans ?_ (h.matched i t)
  rw [Context.mem_drives_mapGroups, Context.drives, List.mem_flatMap]
  exact exists_congr fun x => and_congr_right fun hx => (hf x hx).drives i t

/-- The same for the group of a number. -/
theorem updGroup (h : c.Intact) {g : GroupNo} {f : Group → Group} (hf : ∀ x ∈ c.allGroups, x.num = g → x.Keeps (f x)) :
    (c.updGroup g f).Intact :=
  h.mapGroups fun x hx => by
    split
    · next hnum => exact hf x hx hnum
    · exact .refl x

/-- Posting a detach or a new divisor to the queue of a running pass. -/
theorem post (h : c.Intact) {grp : Group} (hgrp : grp ∈ c.allGroups) (hpass : grp.inPass = true) {q : Deferred}
    (hids : ∀ x : Group, (x.post q).ids = x.ids) : (c.updGroup grp.num (Group.post q)).Intact := by
  refine h.updGroup fun x hx hnum => ?_
  obtain rfl := h.sound.group_unique hx hgrp hnum
  exact ⟨.post hpass q, hids x ▸ .refl _, fun _ _ => Iff.rfl⟩

theorem setDivisor (h : c.Intact) (g : GroupNo) (id : DividerId) {divisor : Word} (hd : divisor ≠ 0) :
    (c.updGroup g (Group.setDivisor id divisor)).Intact :=
  h.updGroup fun x _ _ => ⟨.setDivisor id hd x, Group.ids_setDivisor id divisor x ▸ .refl _, fun i t => by rw [Group.drives_setDivisor]⟩

/-- Removing an external divider: no divider of a track has its identifier. -/
theorem removeExternal (h : c.Intact) (g : GroupNo) {id : DividerId} {tag : Word} (hext : (id, .ext tag) ∈ c.drives) :
    (c.updGroup g (Group.remove id)).Intact := by
  refine h.updGroup fun x hx _ => ⟨.remove id x, Group.ids_remove id x, fun i t => ?_⟩
  refine Group.mem_drives_remove.trans (and_iff_left_of_imp fun hmem => ?_)
  rintro rfl
  exact nomatch h.linked.drives_unique hext (List.mem_flatMap.2 ⟨x, hx, hmem⟩)

/-! ### Tracks detached -/

theorem detachTrack (h : c.Intact) (t : Track) : (c.detachTrack t).Intact := by
  unfold Context.detachTrack
  split
  · exact h
  · next p hport =>
    have hp : p ∈ c.tracks := List.mem_of_find?_eq_some hport
    have htrack : p.track = t := by simpa using List.find?_some hport
    have hdriven : (p.divider, .track t) ∈ c.drives := (h.matched _ _).2 (Context.mem_links.2 ⟨p, hp, htrack, rfl⟩)
    refine ⟨(h.sound.mapGroups fun x _ => .remove p.divider x).of_same id rfl rfl rfl rfl rfl,
      h.linked.of_ids (Context.ids_mapGroups fun x _ => Group.ids_remove p.divider x) le_rfl ?_ fun i v => ?_⟩
    · exact (List.filter_sublist.map _).nodup h.tracks_nodup
    · show (i, Target.track v) ∈ (c.mapGroups (Group.remove p.divider)).drives ↔ _
      rw [Context.mem_drives_mapGroups, Context.mem_links]
      simp only [Group.mem_drives_remove, List.mem_filter, bne_iff_ne]
      constructor
      · rintro ⟨x, hx, hmem, hne⟩
        obtain ⟨q, hq, rfl, rfl⟩ := Context.mem_links.1 ((h.matched i v).1 (List.mem_flatMap.2 ⟨x, hx, hmem⟩))
        refine ⟨q, ⟨hq, fun heq => hne ?_⟩, rfl, rfl⟩
        rw [List.inj_on_of_nodup_map h.tracks_nodup hq hp (heq.trans htrack.symm)]
      · rintro ⟨q, ⟨hq, hne⟩, rfl, rfl⟩
        have hmem := (h.matched _ _).2 (Context.mem_links.2 ⟨q, hq, rfl, rfl⟩)
        obtain ⟨x, hx, hdrives⟩ := List.mem_flatMap.1 hmem
        refine ⟨x, hx, hdrives, fun heq => hne ?_⟩
        rw [heq] at hmem
        exact Target.track.inj (h.linked.drives_unique hmem hdriven)

theorem detachTracks (h : c.Intact) (ts : List Track) : (ts.foldl Context.detachTrack c).Intact := by
  induction ts generalizing c with
  | nil => exact h
  | cons t ts ih => exact ih (h.detachTrack t)

/-- Auxiliary clocks dropped whose dividers drive no track. -/
theorem dropClocks (h : c.Intact) {clocks : List Clock} (hsub : clocks.Sublist c.clocks)
    (hdrives : ∀ id t, (id, .track t) ∈ c.drives → (id, .track t) ∈ ({ c with clocks := clocks } : Context).drives) :
    ({ c with clocks := clocks } : Context).Intact := by
  have hall : ({ c with clocks := clocks } : Context).allGroups.Sublist c.allGroups := (hsub.cons_cons c.master).flatMap _
  refine ⟨⟨h.sound.masterPeriod, fun k hk => h.sound.periods k (hsub.subset hk), fun x hx => h.sound.divisors x (hall.subset hx),
      h.sound.builtin, fun k hk => h.sound.single k (hsub.subset hk), (hall.map _).nodup h.sound.numbers,
      fun x hx => h.sound.numbersBelow x (hall.subset hx), fun x hx => h.sound.queues x (hall.subset hx), h.sound.now, h.sound.clkrst⟩,
    h.linked.of_ids (hall.flatMap _).subperm le_rfl h.tracks_nodup fun id t => ?_⟩
  exact ⟨fun hmem => (h.matched id t).1 ((hall.flatMap _).subset hmem), fun hmem => hdrives id t ((h.matched id t).2 hmem)⟩

end Context.Intact

/-- Detaching a track removes its port. -/
theorem Context.detachTrack_tracks (c : Context) (t : Track) : (c.detachTrack t).tracks = c.tracks.filter fun p => p.track != t := by
  unfold Context.detachTrack
  split
  · next hnone =>
    refine (List.filter_eq_self.2 fun p hp => ?_).symm
    simpa using List.find?_eq_none.1 hnone p hp
  · rfl

theorem Context.mem_detachTracks {c : Context} {ts : List Track} {p : Port} :
    p ∈ (ts.foldl Context.detachTrack c).tracks ↔ p ∈ c.tracks ∧ p.track ∉ ts := by
  induction ts generalizing c with
  | nil => simp
  | cons t ts ih =>
    rw [List.foldl_cons, ih, Context.detachTrack_tracks, List.mem_filter, List.mem_cons, not_or, and_assoc, bne_iff_ne]

/-- The tracks that the dividers of a clock drive. -/
theorem Clock.mem_drivenTracks {k : Clock} {t : Track} : t ∈ k.drivenTracks ↔ ∃ id, (id, .track t) ∈ k.groups.flatMap Group.drives := by
  simp only [Clock.drivenTracks, Group.drives, List.mem_filterMap, List.mem_flatMap, List.mem_map]
  constructor
  · rintro ⟨d, ⟨g, hg, hd⟩, htarget⟩
    refine ⟨d.id, g, hg, d, hd, ?_⟩
    split at htarget
    · next heq => cases htarget; rw [heq]
    · cases htarget
  · rintro ⟨id, g, hg, d, hd, heq⟩
    refine ⟨d, ⟨g, hg, hd⟩, ?_⟩
    rw [show d.target = .track t from (Prod.ext_iff.1 heq).2]

/-- Detaching tracks leaves the clocks where they are, and drives no track anew. -/
theorem Context.detachTrack_clock {c : Context} {t : Track} {j : Nat} {k' : Clock} (h : (c.detachTrack t).clocks[j]? = some k') :
    ∃ k, c.clocks[j]? = some k ∧ ∀ v ∈ k'.drivenTracks, v ∈ k.drivenTracks := by
  unfold Context.detachTrack at h
  split at h
  · exact ⟨k', h, fun _ hv => hv⟩
  · next p _ =>
    rw [show ({ c.mapGroups (Group.remove p.divider) with tracks := _ } : Context).clocks = c.clocks.map _ from rfl,
      List.getElem?_map] at h
    obtain ⟨k, hk, rfl⟩ := Option.map_eq_some_iff.1 h
    refine ⟨k, hk, fun v hv => ?_⟩
    obtain ⟨id, hid⟩ := Clock.mem_drivenTracks.1 hv
    obtain ⟨g', hg', hdrives⟩ := List.mem_flatMap.1 hid
    obtain ⟨g, hg, rfl⟩ := List.mem_map.1 hg'
    exact Clock.mem_drivenTracks.2 ⟨id, List.mem_flatMap.2 ⟨g, hg, (Group.mem_drives_remove.1 hdrives).1⟩⟩

theorem Context.detachTracks_clock {c : Context} {ts : List Track} {j : Nat} {k' : Clock}
    (h : (ts.foldl Context.detachTrack c).clocks[j]? = some k') :
    ∃ k, c.clocks[j]? = some k ∧ ∀ v ∈ k'.drivenTracks, v ∈ k.drivenTracks := by
  induction ts generalizing c with
  | nil => exact ⟨k', h, fun _ hv => hv⟩
  | cons t ts ih =>
    obtain ⟨m, hm, hmk⟩ := ih h
    obtain ⟨k, hk, hkm⟩ := Context.detachTrack_clock hm
    exact ⟨k, hk, fun v hv => hkm v (hmk v hv)⟩

/-- A new auxiliary clock with its one group, which takes the next number. -/
def Context.withClock (c : Context) (period next : FixedTime) : Context :=
  { c with clocks := c.clocks ++ [{ period := period, next := next, groups := [{ num := c.nextGroup }] }], nextGroup := c.nextGroup + 1 }

theorem Context.allGroups_withClock (c : Context) (period next : FixedTime) :
    (c.withClock period next).allGroups = c.allGroups ++ [{ num := c.nextGroup }] := by
  simp [Context.withClock, Context.allGroups, Context.clockList]

namespace Context.Intact
variable {c : Context}

/-- Where no port is left no divider drives a track. -/
theorem no_drives (h : c.Intact) {t : Track} (hports : ∀ p ∈ c.tracks, p.track ≠ t) (id : DividerId) : (id, .track t) ∉ c.drives := by
  intro hmem
  obtain ⟨p, hp, htrack, -⟩ := Context.mem_links.1 ((h.matched id t).1 hmem)
  exact hports p hp htrack

/-- Detaching a clock: the tracks its dividers drive are detached before, so that the dividers that go with it drive none. -/
theorem detachClock (h : c.Intact) {j : Nat} {k : Clock} (hk : c.clocks[j]? = some k) :
    ({ k.drivenTracks.foldl Context.detachTrack c with
        clocks := (k.drivenTracks.foldl Context.detachTrack c).clocks.eraseIdx j } : Context).Intact := by
  have hdetached := h.detachTracks k.drivenTracks
  refine hdetached.dropClocks (List.eraseIdx_sublist _ j) fun id t hmem => ?_
  obtain ⟨x, hx, hdrives⟩ := List.mem_flatMap.1 hmem
  obtain ⟨m, hm, hxm⟩ := Context.mem_allGroups.1 hx
  refine List.mem_flatMap.2 ⟨x, Context.mem_allGroups.2 ⟨m, ?_, hxm⟩, hdrives⟩
  obtain rfl | hm := List.mem_cons.1 hm
  · exact List.mem_cons_self
  · refine List.mem_cons_of_mem _ (List.mem_eraseIdx_iff_getElem?.2 ?_)
    obtain ⟨i, hi⟩ := List.mem_iff_getElem?.1 hm
    refine ⟨i, ?_, hi⟩
    rintro rfl
    obtain ⟨k', hk', hdriven⟩ := Context.detachTracks_clock hi
    obtain rfl := Option.some.inj (hk'.symm.trans hk)
    have ht : t ∈ k'.drivenTracks := hdriven t (Clock.mem_drivenTracks.2 ⟨id, List.mem_flatMap.2 ⟨x, hxm, hdrives⟩⟩)
    exact hdetached.no_drives (fun p hp heq => (Context.mem_detachTracks.1 hp).2 (heq ▸ ht)) id hmem

/-- Everything detached (R259). -/
theorem dispose (h : c.Intact) :
    ({ (c.tracks.foldl (fun c p => c.detachTrack p.track) c).mapGroups (fun g => { g with list := [] }) with
        units := [], clocks := [], state := .disposed } : Context).Intact := by
  rw [← List.foldl_map (f := Port.track) (g := Context.detachTrack)]
  have hdetached := h.detachTracks (c.tracks.map Port.track)
  have hnone : ∀ id t, (id, .track t) ∉ ((c.tracks.map Port.track).foldl Context.detachTrack c).drives := fun id t =>
    hdetached.no_drives (fun p hp _ => by
      obtain ⟨hmem, hleft⟩ := Context.mem_detachTracks.1 hp
      exact hleft (List.mem_map_of_mem hmem)) id
  have hcleared := hdetached.mapGroups (f := fun g => { g with list := [] }) fun x hx =>
    ⟨⟨rfl, nofun, id⟩, (List.sublist_append_right _ _).subperm,
      fun i t => iff_of_false List.not_mem_nil fun hmem => hnone i t (List.mem_flatMap.2 ⟨x, hx, hmem⟩)⟩
  refine (hcleared.dropClocks (List.nil_sublist _) fun i t hmem => ?_).of_same nofun rfl rfl rfl rfl rfl rfl rfl
  obtain ⟨x, -, hx⟩ := Context.mem_drives_mapGroups.1 hmem
  exact nomatch hx

/-! ### Dividers attached -/

theorem mem_drives_append {g : GroupNo} (hg : ∃ x ∈ c.allGroups, x.num = g) (d : Divider) (p : DividerId × Target) :
    p ∈ (c.updGroup g (Group.append d)).drives ↔ p ∈ c.drives ∨ p = (d.id, d.target) := by
  unfold Context.updGroup
  rw [Context.mem_drives_mapGroups]
  constructor
  · rintro ⟨x, hx, hmem⟩
    split at hmem
    · rw [Group.drives_append, List.mem_append, List.mem_singleton] at hmem
      exact hmem.imp_left fun hold => List.mem_flatMap.2 ⟨x, hx, hold⟩
    · exact .inl (List.mem_flatMap.2 ⟨x, hx, hmem⟩)
  · rintro (hold | hnew)
    · obtain ⟨x, hx, hmem⟩ := List.mem_flatMap.1 hold
      refine ⟨x, hx, ?_⟩
      split
      · rw [Group.drives_append]; exact List.mem_append_left _ hmem
      · exact hmem
    · obtain ⟨x, hx, hnum⟩ := hg
      refine ⟨x, hx, ?_⟩
      rw [if_pos hnum, Group.drives_append, hnew]
      exact List.mem_append_right _ (List.mem_singleton_self _)

/-- A new track's divider takes the next identifier, and the track's port names it (R260). -/
theorem attachTrack (h : c.Intact) {g : GroupNo} (hg : ∃ x ∈ c.allGroups, x.num = g) {t : Track} (hport : c.port? t = none)
    {divisor : Word} (hd : divisor ≠ 0) :
    ({ c.updGroup g (Group.append { id := c.nextDivider, divisor := divisor, target := .track t }) with
        tracks := c.tracks ++ [{ track := t, divider := c.nextDivider }]
        nextDivider := c.nextDivider + 1 } : Context).Intact := by
  refine ⟨(h.sound.mapGroups fun x _ => .ite fun _ => .append x hd).of_same id rfl rfl rfl rfl rfl,
    h.linked.of_fresh (Context.ids_updGroup_cons h.sound.numbers (Group.ids_append _)) rfl ?_ fun i v => ?_⟩
  · have hnew : ∀ p ∈ c.tracks, p.track ≠ t := fun p hp => by simpa using List.find?_eq_none.1 hport p hp
    rw [List.map_append]
    refine List.nodup_append.2 ⟨h.tracks_nodup, List.nodup_singleton _, fun a ha b hb heq => ?_⟩
    obtain ⟨p, hp, rfl⟩ := List.mem_map.1 ha
    exact hnew p hp (heq.trans (List.mem_singleton.1 hb))
  · refine (mem_drives_append hg _ _).trans ((or_congr_left (h.matched i v)).trans ?_)
    simp only [Context.links, List.map_append, List.mem_append, List.map_cons, List.map_nil, List.mem_singleton]

theorem attachExternal (h : c.Intact) {g : GroupNo} (hg : ∃ x ∈ c.allGroups, x.num = g) {divisor : Word} (hd : divisor ≠ 0)
    (tag : Word) :
    ({ c.updGroup g (Group.append { id := c.nextDivider, divisor := divisor, target := .ext tag }) with
        nextDivider := c.nextDivider + 1 } : Context).Intact := by
  refine ⟨(h.sound.mapGroups fun x _ => .ite fun _ => .append x hd).of_same id rfl rfl rfl rfl rfl,
    h.linked.of_fresh (Context.ids_updGroup_cons h.sound.numbers (Group.ids_append _)) rfl h.tracks_nodup fun i v => ?_⟩
  refine (mem_drives_append hg _ (i, Target.track v)).trans ((or_iff_left fun heq => ?_).trans (h.matched i v))
  exact nomatch (Prod.ext_iff.1 heq).2

/-- An attach posted to the queue of a running pass already has its identifier (R238). -/
theorem postAttach (h : c.Intact) {grp : Group} (hgrp : grp ∈ c.allGroups) (hpass : grp.inPass = true) (divisor tag : Word) :
    ({ c.updGroup grp.num (Group.post (.attach c.nextDivider divisor tag)) with nextDivider := c.nextDivider + 1 } : Context).Intact := by
  have hsound : ∀ x ∈ c.allGroups, x.num = grp.num → x.KeepsSound (x.post (.attach c.nextDivider divisor tag)) := fun x hx hnum => by
    obtain rfl := h.sound.group_unique hx hgrp hnum
    exact .post hpass _
  have hdrives : (c.updGroup grp.num (Group.post (.attach c.nextDivider divisor tag))).drives = c.drives :=
    Context.drives_mapGroups_of_same fun x _ => by split <;> rfl
  refine ⟨(h.sound.mapGroups fun x hx => .ite (hsound x hx)).of_same id rfl rfl rfl rfl rfl,
    h.linked.of_fresh (Context.ids_updGroup_cons h.sound.numbers (Group.ids_post_attach _ _ _)) rfl h.tracks_nodup fun i v => ?_⟩
  show (i, Target.track v) ∈ (c.updGroup grp.num (Group.post (.attach c.nextDivider divisor tag))).drives ↔ _
  rw [hdrives]
  exact h.matched i v

/-! ### Clocks -/

/-- Clocks replaced by others with the same groups and positive periods. -/
theorem replaceClocks (h : c.Intact) {master : Clock} {clocks : List Clock} (hmaster : master.groups = c.master.groups)
    (hperiod : ftIsPositive c.master.period = true → ftIsPositive master.period = true)
    (hclocks : clocks.map (·.groups) = c.clocks.map (·.groups)) (hperiods : ∀ k ∈ clocks, ftIsPositive k.period = true) :
    ({ c with master := master, clocks := clocks } : Context).Intact := by
  have hall : ({ c with master := master, clocks := clocks } : Context).allGroups = c.allGroups := by
    simp only [Context.allGroups, Context.clockList, List.flatMap_def, List.map_cons, hmaster, hclocks]
  have hsingle : ∀ gs ∈ clocks.map (·.groups), gs.length = 1 := by
    rw [hclocks]; exact List.forall_mem_map.2 h.sound.single
  obtain ⟨⟨masterPeriod, periods, divisors, builtin, single, numbers, numbersBelow, queues, now, clkrst⟩, hlinked⟩ := h
  rw [← hall] at divisors numbers numbersBelow queues
  refine ⟨⟨hperiod ∘ masterPeriod, hperiods, divisors, hmaster ▸ builtin, List.forall_mem_map.1 hsingle, numbers, numbersBelow, queues, now,
    clkrst⟩, ?_⟩
  obtain ⟨hids, hbelow, htracks, hport, hdivider⟩ := hlinked
  rw [← hall] at hids hbelow hport hdivider
  exact ⟨hids, hbelow, htracks, hport, hdivider⟩

theorem updClock (h : c.Intact) (i : Nat) {f : Clock → Clock} (hgroups : ∀ k, (f k).groups = k.groups)
    (hperiod : ∀ k : Clock, ftIsPositive k.period = true → ftIsPositive (f k).period = true) : (c.updClock i f).Intact := by
  cases i with
  | zero => exact h.replaceClocks (hgroups _) (hperiod _) rfl h.sound.periods
  | succ j =>
    refine h.replaceClocks (clocks := c.clocks.modify j f) rfl id ?_ fun k hk => ?_
    · refine List.ext_getElem? fun n => ?_
      rw [List.getElem?_map, List.getElem?_modify, List.getElem?_map, Option.map_eq_map, Option.map_map]
      refine congrArg (fun g => Option.map g c.clocks[n]?) (funext fun k => ?_)
      rw [Function.comp_apply]
      split
      · exact hgroups k
      · rfl
    · obtain ⟨n, hn⟩ := List.mem_iff_getElem?.1 hk
      rw [List.getElem?_modify] at hn
      obtain ⟨m, hm, rfl⟩ := Option.map_eq_some_iff.1 hn
      have hpositive := h.sound.periods m (List.mem_of_getElem? hm)
      split
      · exact hperiod m hpositive
      · exact hpositive

/-- A new clock's group number has not been given out before (R43, R265). -/
theorem attachClock (h : c.Intact) {period : FixedTime} (hperiod : ftIsPositive period = true) (next : FixedTime) :
    (c.withClock period next).Intact := by
  have hall := c.allGroups_withClock period next
  have hids : (c.withClock period next).ids = c.ids := by unfold Context.ids; rw [hall]; simp [Group.ids]
  have hdrives : (c.withClock period next).drives = c.drives := by unfold Context.drives; rw [hall]; simp [Group.drives]
  obtain ⟨⟨masterPeriod, periods, divisors, builtin, single, numbers, numbersBelow, queues, now, clkrst⟩, hlinked⟩ := h
  constructor
  · refine ⟨masterPeriod, List.forall_mem_append.2 ⟨periods, List.forall_mem_singleton.2 hperiod⟩, ?_, builtin,
      List.forall_mem_append.2 ⟨single, List.forall_mem_singleton.2 rfl⟩, ?_, ?_, ?_, now, clkrst⟩
    · rw [hall]
      exact List.forall_mem_append.2 ⟨divisors, List.forall_mem_singleton.2 nofun⟩
    · rw [hall, List.map_append]
      refine List.nodup_append.2 ⟨numbers, List.nodup_singleton _, fun a ha b hb heq => ?_⟩
      obtain ⟨x, hx, rfl⟩ := List.mem_map.1 ha
      exact (numbersBelow x hx).ne (heq.trans (List.mem_singleton.1 hb))
    · rw [hall]
      exact List.forall_mem_append.2 ⟨fun x hx => (numbersBelow x hx).trans (Nat.lt_succ_self _),
        List.forall_mem_singleton.2 (Nat.lt_succ_self _)⟩
    · rw [hall]
      exact List.forall_mem_append.2 ⟨queues, List.forall_mem_singleton.2 fun _ => rfl⟩
  · refine hlinked.of_ids (hids ▸ .refl _) le_rfl hlinked.tracks fun i v => ?_
    rw [hdrives]
    exact (Context.linked_iff.1 hlinked).2.2.2 i v

theorem setNow (h : c.Intact) {now : BitVec 64} (hnow : 0 ≤ now.toInt) : ({ c with now := now } : Context).Intact := by
  obtain ⟨⟨masterPeriod, periods, divisors, builtin, single, numbers, numbersBelow, queues, -, clkrst⟩,
    ⟨hids, hbelow, htracks, hport, hdivider⟩⟩ := h
  exact ⟨⟨masterPeriod, periods, divisors, builtin, single, numbers, numbersBelow, queues, hnow, clkrst⟩,
    ⟨hids, hbelow, htracks, hport, hdivider⟩⟩

/-! ### Init and Reset -/

theorem initial (nchan rate : Nat) {period : FixedTime} (h : ftIsPositive period = true) : (initialContext nchan rate period).Intact := by
  have hall : (initialContext nchan rate period).allGroups = builtinGroups := rfl
  refine ⟨⟨fun _ => h, nofun, ?_, rfl, nofun, ?_, ?_, ?_, le_rfl, rfl⟩, Context.linked_iff.2 ⟨?_, ?_, List.nodup_nil, ?_⟩⟩
  · rw [hall]; decide
  · rw [hall]; decide
  · rw [hall]; show ∀ g ∈ builtinGroups, g.num < 2; decide
  · rw [hall]; decide
  · unfold Context.ids; rw [hall]; decide
  · unfold Context.ids; rw [hall]; exact nofun
  · unfold Context.Matched Context.drives; rw [hall]; exact fun _ _ => ⟨nofun, nofun⟩

theorem resetSeq (h : c.Intact) (hrunning : c.state = .running) : c.resetSeq.Intact := by
  have hquiet : (c.mapGroups Group.quiet).Intact := h.mapGroups fun x _ =>
    ⟨⟨rfl, id, fun _ _ => rfl⟩, ((List.Sublist.refl _).append (List.nil_sublist _)).subperm, fun _ _ => Iff.rfl⟩
  have hzeroed := hquiet.replaceClocks (master := (c.mapGroups Group.quiet).master.zeroed)
    (clocks := (c.mapGroups Group.quiet).clocks.map Clock.zeroed) (Clock.zeroed_groups _) (fun hperiod => by rwa [Clock.zeroed_period])
    (by simp [Function.comp_def]) (List.forall_mem_map.2 fun k hk => by rw [Clock.zeroed_period]; exact hquiet.sound.periods k hk)
  have hcleared := hzeroed.mapPorts (f := Port.cleared) (fun _ => rfl) fun _ => rfl
  have hclocks : c.clocks.map (fun k => (k.mapGroups Group.quiet).zeroed) = (c.clocks.map (Clock.mapGroups Group.quiet)).map Clock.zeroed := by
    rw [List.map_map]; rfl
  exact (hcleared.setNow (now := 0) le_rfl).of_same (fun _ => hrunning) rfl hclocks rfl rfl h.sound.clkrst.symm rfl rfl

end Context.Intact

/-! ## The drain of a queue (47_clock_divider.md R233) -/

theorem Context.mapGroups_mapGroups (c : Context) (f k : Group → Group) : (c.mapGroups k).mapGroups f = c.mapGroups (f ∘ k) := by
  simp [Context.mapGroups, Clock.mapGroups, Function.comp_def]

theorem num_ite {k : Group → Group} (hk : ∀ x, (k x).num = x.num) (n : GroupNo) (x : Group) : (if x.num = n then k x else x).num = x.num := by
  split
  · exact hk x
  · rfl

/-- Changes of the groups of two numbers commute where they commute on a group. -/
theorem Context.updGroup_comm (c : Context) (g n : GroupNo) {f k : Group → Group} (hf : ∀ x, (f x).num = x.num) (hk : ∀ x, (k x).num = x.num)
    (hcomm : ∀ x, f (k x) = k (f x)) : (c.updGroup n k).updGroup g f = (c.updGroup g f).updGroup n k := by
  unfold Context.updGroup
  rw [Context.mapGroups_mapGroups, Context.mapGroups_mapGroups]
  refine congrArg c.mapGroups (funext fun x => ?_)
  simp only [Function.comp_apply, num_ite hf, num_ite hk]
  split_ifs
  · exact hcomm x
  · rfl
  · rfl
  · rfl

/-- Two changes of the same group are one. -/
theorem Context.updGroup_updGroup (c : Context) (g : GroupNo) {f k : Group → Group} (hk : ∀ x, (k x).num = x.num) :
    (c.updGroup g k).updGroup g f = c.updGroup g (f ∘ k) := by
  unfold Context.updGroup
  rw [Context.mapGroups_mapGroups]
  refine congrArg c.mapGroups (funext fun x => ?_)
  simp only [Function.comp_apply, num_ite hk]
  split_ifs
  · rfl
  · rfl

theorem Context.updGroup_congr {c : Context} {g : GroupNo} {f k : Group → Group} (h : ∀ x ∈ c.allGroups, x.num = g → f x = k x) :
    c.updGroup g f = c.updGroup g k := by
  have hgroups : ∀ m ∈ c.clockList, (m.mapGroups fun x => if x.num = g then f x else x) = m.mapGroups fun x => if x.num = g then k x else x :=
    fun m hm => congrArg (fun gs => { m with groups := gs }) <| List.map_congr_left fun x hx => by
      split
      · next hnum => exact h x (Context.mem_allGroups.2 ⟨m, hm, hx⟩) hnum
      · rfl
  unfold Context.updGroup Context.mapGroups
  rw [hgroups c.master List.mem_cons_self, List.map_congr_left fun m hm => hgroups m (List.mem_cons_of_mem _ hm)]

/-- What a lookup of a divider says of what the dividers drive. -/
theorem Context.drives_of_divider? {c : Context} {id : DividerId} {g : Group} {d : Divider} (h : c.divider? id = some (g, d)) :
    (id, d.target) ∈ c.drives := by
  obtain ⟨hg, hd, hid⟩ := Context.divider?_mem h
  exact Context.mem_drives.2 ⟨g, hg, d, hd, hid, rfl⟩

theorem Divider.external_iff {d : Divider} : d.external = true ↔ ∃ tag, d.target = .ext tag := by
  unfold Divider.external
  cases d.target <;> simp

/-- A group in the middle of its drain, as if its pass still ran and only these commands were left. -/
def Group.pending (qs : List Deferred) (x : Group) : Group := { x with queue := qs, inPass := true }

@[simp] theorem Group.pending_num (qs : List Deferred) (x : Group) : (x.pending qs).num = x.num := rfl

/-- What a deferred command does to the Context: nothing, or what the host command of its name does to a group (R233). -/
theorem State.applyDeferred_ctx (g : GroupNo) (s : State) (q : Deferred) :
    (State.applyDeferred g s q).ctx = s.ctx
    ∨ (∃ id divisor tag, q = .attach id divisor tag ∧ divisor ≠ 0
        ∧ (State.applyDeferred g s q).ctx = s.ctx.updGroup g (Group.append { id := id, divisor := divisor, target := .ext tag }))
    ∨ (∃ n id tag, (id, Target.ext tag) ∈ s.ctx.drives ∧ (State.applyDeferred g s q).ctx = s.ctx.updGroup n (Group.remove id))
    ∨ ∃ n id divisor, divisor ≠ 0 ∧ (State.applyDeferred g s q).ctx = s.ctx.updGroup n (Group.setDivisor id divisor) := by
  cases q with
  | attach id divisor tag =>
    simp only [State.applyDeferred]
    split
    · exact .inl rfl
    · split
      · exact .inl rfl
      · next hd =>
        split
        · next halloc => exact .inr (.inl ⟨id, divisor, tag, rfl, hd, by rw [State.updCtx_ctx, (State.allocate_of halloc).2.1]⟩)
        · next halloc => exact .inl (State.allocate_of halloc).2.1
  | detach id =>
    simp only [State.applyDeferred]
    split
    · exact .inl rfl
    · next grp d hfound =>
      split
      · next hext =>
        obtain ⟨tag, htag⟩ := Divider.external_iff.1 hext
        exact .inr (.inr (.inl ⟨grp.num, id, tag, htag ▸ Context.drives_of_divider? hfound, rfl⟩))
      · exact .inl rfl
  | setDivisor id divisor =>
    simp only [State.applyDeferred]
    split
    · exact .inl rfl
    · next grp d _ =>
      split
      · exact .inl rfl
      · next hd => exact .inr (.inr (.inr ⟨grp.num, id, divisor, hd, rfl⟩))

theorem Context.drives_pending (c : Context) (g : GroupNo) (qs : List Deferred) : (c.updGroup g (Group.pending qs)).drives = c.drives :=
  Context.drives_mapGroups_of_same fun x _ => by split <;> rfl

namespace Context.Intact
variable {c : Context}

/-- A group being drained holds the queue that is left, its pass still running. -/
theorem pending_queue {g : GroupNo} {qs : List Deferred} {x : Group} (hx : x ∈ (c.updGroup g (Group.pending qs)).allGroups)
    (hnum : x.num = g) : x.queue = qs ∧ x.inPass = true := by
  rw [Context.allGroups_updGroup] at hx
  obtain ⟨y, -, rfl⟩ := List.mem_map.1 hx
  rw [num_ite (Group.pending_num qs)] at hnum
  rw [if_pos hnum]
  exact ⟨rfl, rfl⟩

/-- Dropping the first command of a queue that is being drained. -/
theorem pending_tail {g : GroupNo} {q : Deferred} {qs : List Deferred} (h : (c.updGroup g (Group.pending (q :: qs))).Intact) :
    (c.updGroup g (Group.pending qs)).Intact := by
  have hshort := h.updGroup (g := g) (f := Group.pending qs) fun x hx hnum => by
    refine ⟨⟨rfl, id, nofun⟩, ?_, fun _ _ => Iff.rfl⟩
    unfold Group.ids
    rw [(pending_queue hx hnum).1]
    exact ((List.Sublist.refl _).append ((List.sublist_cons_self q qs).filterMap _)).subperm
  rwa [Context.updGroup_updGroup c g (Group.pending_num _)] at hshort

/-- A deferred attach turns the identifier in the queue into a divider's. -/
theorem pending_attach {g : GroupNo} {id : DividerId} {divisor tag : Word} (hd : divisor ≠ 0) {qs : List Deferred}
    (h : (c.updGroup g (Group.pending (.attach id divisor tag :: qs))).Intact) :
    ((c.updGroup g (Group.append { id := id, divisor := divisor, target := .ext tag })).updGroup g (Group.pending qs)).Intact := by
  have hmoved := h.updGroup (g := g) (f := Group.pending qs ∘ Group.append { id := id, divisor := divisor, target := .ext tag })
    fun x hx hnum => by
      have hids : ((x.append { id := id, divisor := divisor, target := .ext tag }).pending qs).ids = x.ids := by
        simp [Group.ids, Group.pending, Group.append, (pending_queue hx hnum).1]
      refine ⟨⟨rfl, (Group.KeepsSound.append x hd).divisors, nofun⟩, hids ▸ .refl _, fun i t => ?_⟩
      · show _ ∈ (x.append _).drives ↔ _
        rw [Group.drives_append, List.mem_append, or_iff_left]
        exact fun hnew => nomatch (Prod.ext_iff.1 (List.mem_singleton.1 hnew)).2
  rw [Context.updGroup_updGroup c g (Group.pending_num _)] at hmoved
  rw [Context.updGroup_updGroup c g (Group.append_num _)]
  exact hmoved

/-- Running the first command of a queue that is being drained. -/
theorem applyDeferred {s : State} {g : GroupNo} {q : Deferred} {qs : List Deferred}
    (h : (s.ctx.updGroup g (Group.pending (q :: qs))).Intact) :
    ((State.applyDeferred g s q).ctx.updGroup g (Group.pending qs)).Intact := by
  obtain heq | ⟨id, divisor, tag, rfl, hd, heq⟩ | ⟨n, id, tag, hext, heq⟩ | ⟨n, id, divisor, hd, heq⟩ := s.applyDeferred_ctx g q
  · rw [heq]; exact h.pending_tail
  · rw [heq]; exact h.pending_attach hd
  · rw [heq, Context.updGroup_comm _ _ _ (Group.pending_num qs) (Group.remove_num id) fun _ => rfl]
    exact h.pending_tail.removeExternal n (by rw [Context.drives_pending]; exact hext)
  · rw [heq, Context.updGroup_comm _ _ _ (Group.pending_num qs) (Group.setDivisor_num id divisor) fun _ => rfl]
    exact h.pending_tail.setDivisor n id hd

theorem applyQueue {s : State} {g : GroupNo} {qs : List Deferred} (h : (s.ctx.updGroup g (Group.pending qs)).Intact) :
    ((qs.foldl (State.applyDeferred g) s).ctx.updGroup g (Group.pending [])).Intact := by
  induction qs generalizing s with
  | nil => exact h
  | cons q qs ih => exact ih h.applyDeferred

end Context.Intact

/-- No pass over the group of a number is running. -/
def Context.Idle (c : Context) (g : GroupNo) : Prop := ∀ x ∈ c.allGroups, x.num = g → x.inPass = false

theorem Context.Idle.updGroup {c : Context} {g : GroupNo} (h : c.Idle g) (n : GroupNo) {k : Group → Group} (hnum : ∀ x, (k x).num = x.num)
    (hpass : ∀ x, (k x).inPass = x.inPass) : (c.updGroup n k).Idle g := by
  unfold Context.Idle
  rw [Context.allGroups_updGroup]
  refine List.forall_mem_map.2 fun x hx hg => ?_
  rw [num_ite hnum] at hg
  split
  · exact (hpass x).trans (h x hx hg)
  · exact h x hx hg

theorem Context.Idle.applyQueue {s : State} {g : GroupNo} (h : s.ctx.Idle g) (qs : List Deferred) :
    (qs.foldl (State.applyDeferred g) s).ctx.Idle g := by
  induction qs generalizing s with
  | nil => exact h
  | cons q qs ih =>
    refine ih ?_
    obtain heq | ⟨id, divisor, tag, -, -, heq⟩ | ⟨n, id, tag, -, heq⟩ | ⟨n, id, divisor, -, heq⟩ := s.applyDeferred_ctx g q
    · rw [heq]; exact h
    · rw [heq]; exact h.updGroup g (Group.append_num _) fun _ => rfl
    · rw [heq]; exact h.updGroup n (Group.remove_num id) fun _ => rfl
    · rw [heq]; exact h.updGroup n (Group.setDivisor_num id divisor) fun _ => rfl

namespace Context.Intact
variable {c : Context}

/-- A drained group has no pass running. -/
theorem drained {g : GroupNo} (h : (c.updGroup g (Group.pending [])).Intact) (hidle : c.Idle g) :
    (c.updGroup g fun x => { x with queue := [] }).Intact := by
  have hstopped := h.updGroup (g := g) (f := fun x => { x with inPass := false }) fun x hx hnum =>
    ⟨⟨rfl, id, fun _ _ => (pending_queue hx hnum).1⟩, .refl _, fun _ _ => Iff.rfl⟩
  rw [Context.updGroup_updGroup c g (Group.pending_num _)] at hstopped
  rwa [Context.updGroup_congr fun x hx hnum => ?_]
  rw [Function.comp_apply, ← hidle x hx hnum]
  rfl

/-- The end of a pass: between clearing `inPass` and the last command of the queue the group counts as still in its pass. -/
theorem endPass {s : State} (h : s.ctx.Intact) (g : GroupNo) : (s.endPass g).ctx.Intact := by
  have hfound := s.ctx.group?_updGroup_same g (f := fun x => { x with inPass := false }) fun _ => rfl
  unfold State.endPass State.drainQueue
  rw [State.updCtx_ctx, hfound]
  cases hgroup : s.ctx.group? g with
  | none =>
    refine h.updGroup fun x hx hnum => absurd hnum ?_
    simpa using List.find?_eq_none.1 hgroup x hx
  | some grp =>
    have hgrp : grp ∈ s.ctx.allGroups := Context.group?_mem hgroup
    refine drained (applyQueue ?_) (Context.Idle.applyQueue ?_ grp.queue)
    · rw [State.updCtx_ctx, Context.updGroup_updGroup s.ctx g (k := fun x => { x with inPass := false }) fun _ => rfl]
      refine h.updGroup fun x hx hnum => ?_
      obtain rfl := h.sound.group_unique hx hgrp (hnum.trans (Context.group?_num hgroup).symm)
      exact ⟨⟨rfl, id, nofun⟩, .refl _, fun _ _ => Iff.rfl⟩
    · rw [State.updCtx_ctx]
      unfold Context.Idle
      rw [Context.allGroups_updGroup]
      refine List.forall_mem_map.2 fun x _ hnum => ?_
      rw [num_ite (k := fun x => { x with inPass := false }) fun _ => rfl] at hnum
      rw [if_pos hnum]

end Context.Intact

/-! ## The host commands -/

/-- A running command whose allocation is answered goes on from a machine with the same Context. -/
theorem State.ctx_of_allocate {s u : State} {room b : Bool} (h : s.allocate room = (b, u)) : u.ctx = s.ctx := (State.allocate_of h).2.1

namespace Context.Intact
variable {s : State}

theorem cmdInit (h : s.ctx.Intact) (nchan rate : Int) (period : FixedTime) : (cmdInit nchan rate period s).ctx.Intact := by
  unfold Machine.cmdInit
  split
  · next hargs =>
    obtain ⟨-, -, -, -, hperiod⟩ := hargs
    split
    · exact initial _ _ hperiod
    · next halloc => exact State.ctx_of_allocate halloc ▸ h
  · exact h

theorem cmdTrackAttach (h : s.ctx.Intact) (t : Track) (g : GroupNo) (divisor : Word) : (cmdTrackAttach t g divisor s).ctx.Intact := by
  unfold Machine.cmdTrackAttach
  split
  · exact h
  · next grp hgroup =>
    split
    · next hargs =>
      obtain ⟨-, hport, hd⟩ := hargs
      split
      · next u halloc =>
        show Context.Intact { u.ctx.updGroup g _ with tracks := _, nextDivider := _ }
        rw [State.ctx_of_allocate halloc]
        exact h.attachTrack ⟨grp, Context.group?_mem hgroup, Context.group?_num hgroup⟩ (Option.isNone_iff_eq_none.1 hport) hd
      · next halloc => exact State.ctx_of_allocate halloc ▸ h
    · exact h

theorem cmdClockAttach (h : s.ctx.Intact) (period : FixedTime) : (cmdClockAttach period s).ctx.Intact := by
  unfold Machine.cmdClockAttach
  split
  · next hperiod =>
    split
    · next u halloc =>
      rw [← State.ctx_of_allocate halloc] at h
      exact h.attachClock hperiod _
    · next halloc => exact State.ctx_of_allocate halloc ▸ h
  · exact h

theorem cmdClockDetach (h : s.ctx.Intact) (i : Nat) : (cmdClockDetach i s).ctx.Intact := by
  unfold Machine.cmdClockDetach
  split
  · exact h
  · split
    · exact h
    · next k hk => exact h.detachClock hk

theorem cmdDividerAttach (h : s.ctx.Intact) (g : GroupNo) (divisor tag : Word) : (cmdDividerAttach g divisor tag s).ctx.Intact := by
  unfold Machine.cmdDividerAttach
  split
  · exact h
  · next grp hgroup =>
    have hgrp : grp ∈ s.ctx.allGroups := Context.group?_mem hgroup
    obtain rfl := Context.group?_num hgroup
    dsimp only
    split
    · next hpass => exact h.postAttach hgrp hpass divisor tag
    · split
      · exact h
      · next hd =>
        split
        · next u halloc =>
          rw [← State.ctx_of_allocate halloc] at h hgrp ⊢
          exact h.attachExternal ⟨grp, hgrp, rfl⟩ hd tag
        · next halloc => exact State.ctx_of_allocate halloc ▸ h

theorem cmdDividerDetach (h : s.ctx.Intact) (id : DividerId) : (cmdDividerDetach id s).ctx.Intact := by
  unfold Machine.cmdDividerDetach
  split
  · exact h
  · next grp d hfound =>
    split
    · next hpass => exact h.post (Context.divider?_mem hfound).1 hpass (Group.ids_post_detach id)
    · split
      · next hext =>
        obtain ⟨tag, htag⟩ := Divider.external_iff.1 hext
        exact h.removeExternal grp.num (tag := tag) (htag ▸ Context.drives_of_divider? hfound)
      · exact h

theorem cmdDividerSetDivisor (h : s.ctx.Intact) (id : DividerId) (divisor : Word) : (cmdDividerSetDivisor id divisor s).ctx.Intact := by
  unfold Machine.cmdDividerSetDivisor
  split
  · exact h
  · next grp d hfound =>
    split
    · next hpass => exact h.post (Context.divider?_mem hfound).1 hpass (Group.ids_post_setDivisor id divisor)
    · split
      · exact h
      · next hd => exact h.setDivisor grp.num id hd

theorem cmdSetAttr (h : s.ctx.Intact) (id index : Nat) (value : AttrValue) : (cmdSetAttr id index value s).ctx.Intact := by
  unfold Machine.cmdSetAttr
  split
  · split
    · next period =>
      split
      · next hargs => exact h.updClock index (f := fun k => { k with period := period }) (fun _ => rfl) fun _ _ => hargs.2
      · exact h
    · exact h
  · split
    · split
      · exact h.cmdDividerSetDivisor _ _
      · exact h
    · exact h
  · exact h

theorem cmdGetAttr (h : s.ctx.Intact) (id index : Nat) : (cmdGetAttr id index s).ctx.Intact := by
  have hattr : ∀ v, (s.attrOr v).ctx.Intact := fun v => by cases v <;> exact h
  unfold Machine.cmdGetAttr
  split
  · exact h
  · exact hattr _
  · exact hattr _
  · exact h
  · exact h
  · exact hattr _
  · exact h

theorem setIngen (h : s.ctx.Intact) (b : Bool) : (s.setIngen b).ctx.Intact := h.of_same id rfl rfl rfl rfl rfl rfl rfl

/-- Every command keeps the Context sound and linked. -/
theorem runCommand (h : s.ctx.Intact) (c : Command) : (runCommand c s).ctx.Intact := by
  unfold Machine.runCommand
  split
  · exact h
  · next hgate =>
    cases c with
    | init nchan rate period => exact h.cmdInit nchan rate period
    | reset =>
      rw [Bool.or_eq_true, not_or] at hgate
      have hrunning : s.ctx.state = .running := by simpa [Command.allowedIn] using hgate.1
      show s.contextReset.ctx.Intact
      rw [State.contextReset_ctx]
      exact h.resetSeq hrunning
    | dispose => exact h.dispose
    | trackBind t program itab wtab => simp only [cmdTrackBind]; split <;> exact h
    | trackAttach t g divisor => exact h.cmdTrackAttach t g divisor
    | trackDetach t =>
      simp only [cmdTrackDetach]
      split
      · exact h.detachTrack t
      · exact h
    | trackReset t =>
      simp only [cmdTrackReset]
      split
      · exact h.updPort t (fun _ => rfl) fun _ => rfl
      · exact h
    | trackStatus t => simp only [cmdTrackStatus]; split <;> exact h
    | clockAttach period => exact h.cmdClockAttach period
    | clockDetach i => exact h.cmdClockDetach i
    | dividerAttach g divisor tag => exact h.cmdDividerAttach g divisor tag
    | dividerDetach id => exact h.cmdDividerDetach id
    | dividerSetDivisor id divisor => exact h.cmdDividerSetDivisor id divisor
    | unitAttach u =>
      simp only [cmdUnitAttach]
      split
      · exact h
      · exact h.of_same id rfl rfl rfl rfl rfl rfl rfl
    | unitDetach u =>
      simp only [cmdUnitDetach]
      split
      · exact h.of_same id rfl rfl rfl rfl rfl rfl rfl
      · exact h
    | generate n =>
      simp only [cmdGenerate]
      split
      · exact h.setIngen true
      · exact h
    | generateToTime endTime cap =>
      simp only [cmdGenerateToTime]
      split
      · exact h.setIngen true
      · exact h
    | getAttr id index => exact h.cmdGetAttr id index
    | setAttr id index value => exact h.cmdSetAttr id index value

/-! ## The steps of the sequencer -/

theorem trackTick (h : s.ctx.Intact) (t : Track) : (s.trackTick t).ctx.Intact := by
  obtain heq | ⟨w, heq | heq⟩ := s.trackTick_cases t
  · rw [heq]; exact h
  · rw [heq]; exact h.updPort t (fun _ => rfl) fun _ => rfl
  · rw [heq]; exact h.updPort t (fun _ => rfl) fun _ => rfl

theorem visit (h : s.ctx.Intact) (g : GroupNo) (id : DividerId) (k : BitVec 64) : (s.visit g id k).ctx.Intact := by
  unfold State.visit
  split
  · exact h
  · split
    · unfold State.fire
      split
      · exact trackTick (by rw [State.openToPosts_ctx]; exact h) _
      · rw [State.openToPosts_ctx]; exact h
    · exact h

theorem beginPass (h : s.ctx.Intact) (g : GroupNo) (k : BitVec 64) : (s.beginPass g k).ctx.Intact :=
  h.updGroup fun _ _ _ => ⟨⟨rfl, id, nofun⟩, .refl _, fun _ _ => Iff.rfl⟩

theorem coreStep {u : State} (h : s.ctx.Intact) {n produced : Nat} {stage : Stage} {rest : List Frame}
    (hstep : s.coreStep n produced stage rest = .next u) : u.ctx.Intact := by
  unfold State.coreStep at hstep
  split at hstep
  · cases hstep
    unfold State.coreHead
    dsimp only
    split
    · exact h
    · rw [State.openToPosts_ctx]; exact h
  · next step =>
    unfold State.coreAdvance at hstep
    split at hstep
    · cases hstep
    · next now hnow =>
      cases hstep
      refine h.setNow ?_
      rw [int64_eq_some.1 hnow]
      exact Int.add_nonneg h.sound.now (Int.natCast_nonneg step)
  · unfold State.coreDue at hstep
    split at hstep
    · next i _ =>
      unfold State.boundary at hstep
      split at hstep
      · cases hstep; exact h
      · split at hstep
        · split at hstep
          · next boundary _ =>
            cases hstep
            exact h.updClock i (f := fun c => { c with tickCount := c.tickCount + 1, next := boundary }) (fun _ => rfl) fun _ hperiod => hperiod
          · cases hstep
        · cases hstep
    · cases hstep
      split <;> exact h

/-- An invocation writes its track's port only. -/
theorem invokeStep {u : State} (h : s.ctx.Intact) {t : Track} {phase : Phase} {rest : List Frame}
    (hstep : s.invokeStep t phase rest = .next u) : u.ctx.Intact := by
  cases phase with
  | enter => cases hstep; exact (Local.enterStep s).ctx ▸ h
  | resolve => cases hstep; exact (Local.resolveStep s).ctx ▸ h
  | run => exact (State.runStep_local hstep).ctx ▸ h
  | settle => exact (State.settleStep_local hstep).ctx ▸ h
  | ret r =>
    cases hstep
    exact h.updPort t (fun _ => by cases r <;> rfl) fun _ => by cases r <;> rfl

/-- Every step keeps the Context sound and linked. -/
theorem step {u : State} (h : s.ctx.Intact) (hstep : step s = .next u) : u.ctx.Intact := by
  unfold Machine.step at hstep
  split at hstep
  · cases hstep
    unfold State.idle
    split
    · exact h
    · next c more _ => exact runCommand (s := { s with env := { s.env with host := more } }) h c
  · exact h.invokeStep hstep
  · next cmds rest _ =>
    cases hstep
    cases cmds with
    | nil => exact h
    | cons c more => exact runCommand (s := { s with ctl := .post more :: rest }) h c
  · next g ids k rest _ =>
    cases hstep
    cases ids with
    | nil => exact endPass (s := { s with ctl := rest }) h g
    | cons id more => exact visit (s := { s with ctl := .pass g more k :: rest }) h g id k
  · next gs k rest _ =>
    cases hstep
    cases gs with
    | nil => exact h
    | cons g more => exact beginPass (s := { s with ctl := .groups more k :: rest }) h g k
  · exact h.coreStep hstep
  · next n rest _ => cases hstep; exact setIngen (s := { s with ctl := rest }) h false
  · next endInt cap total rest _ =>
    cases hstep
    unfold State.toTimeStep
    split
    · exact h
    · exact setIngen (s := { s with ctl := rest }) h false
  · next endInt cap total m rest _ =>
    cases hstep
    unfold State.callbackStep State.takeAck
    rw [State.openToPosts_ctx]
    split <;> exact h
  · next rest _ => cases hstep; exact setIngen (s := { s with ctl := rest }) h false

end Context.Intact

/-- Settles O59: what a step does to the Context is one of the operations above, each of which keeps it sound and its tracks and dividers linked. -/
theorem stepKeepsContextSound : Obligations.StepKeepsContextSound := by
  intro s u hsound hlinked hstep
  obtain ⟨hsound', hlinked'⟩ := Context.Intact.step ⟨hsound, hlinked⟩ hstep
  exact ⟨hsound', hlinked'⟩

end Sys2Proof.Machine
end

section
/-! The encoding (30_encoding.md R90 to R101): what the operand words of each format make, that the decoder and the encoder read the same opcode map, and the
words of an assembled program. -/

namespace Sys2Proof

/-- The operand words that stand behind an opcode word of a format, and the instruction they make (R90, R92, R94). -/
inductive Form.Makes : Form → Instr → List Word → Prop
  | f0 (i : Instr) : Makes (.f0 i) i []
  | f1 (mk : Word → Instr) (op : Word) : Makes (.f1 mk) (mk op) [op]
  | fa (mk : Word → List Word → Instr) (speed : Word) (offsets : List Word) (hlen : offsets.length < 2 ^ 32) :
      Makes (.fa mk) (mk speed offsets) (speed :: BitVec.ofNat 32 offsets.length :: offsets)

/-- Every format makes some instruction. -/
theorem Form.exists_makes : ∀ f : Form, ∃ i ops, f.Makes i ops
  | .f0 i => ⟨_, _, .f0 i⟩
  | .f1 mk => ⟨_, _, .f1 mk 0⟩
  | .fa mk => ⟨_, _, .fa mk 0 [] (by decide)⟩

/-! ## The opcode map (R101) -/

/-- The decoder's opcode map and the encoder's opcode and operand words are one table: operand words make an instruction behind an opcode word exactly where they
are the instruction's own, and it is well formed. -/
theorem formOf_makes_iff {w : Word} {i : Instr} {ops : List Word} :
    (∃ f, formOf w = some f ∧ f.Makes i ops) ↔ i.wf = true ∧ w = i.code ∧ ops = i.operands := by
  constructor
  · rintro ⟨f, hf, hmakes⟩
    unfold formOf at hf
    split at hf <;> cases hf
    all_goals
      next hw =>
      cases hmakes
      exact ⟨by simp only [Instr.wf, decide_eq_true_eq, *], BitVec.eq_of_toNat_eq hw, rfl⟩
  · rintro ⟨hwf, rfl, rfl⟩
    cases i with
    | release | mute | stepticks | ret | endTrack => exact ⟨_, rfl, .f0 _⟩
    | arpeggio speed offsets => exact ⟨_, rfl, .fa _ speed offsets (of_decide_eq_true hwf)⟩
    | _ op => exact ⟨_, rfl, .f1 _ op⟩

theorem Instr.code_mem_opcodes (i : Instr) : i.code ∈ Machine.opcodes := by
  cases i <;> simp [Instr.code, Machine.opcodes]

/-- The words without a row in the opcode map are those outside the 22 codes (R97). -/
theorem formOf_eq_none_iff {w : Word} : formOf w = none ↔ w ∉ Machine.opcodes := by
  constructor
  · intro hnone hmem
    have hrows : (Machine.opcodes.all fun c => (formOf c).isSome) = true := rfl
    simpa [hnone] using List.all_eq_true.1 hrows w hmem
  · intro hnot
    cases hf : formOf w with
    | none => rfl
    | some f =>
      obtain ⟨i, ops, hmakes⟩ := f.exists_makes
      obtain ⟨-, rfl, -⟩ := formOf_makes_iff.1 ⟨f, hf, hmakes⟩
      exact absurd i.code_mem_opcodes hnot

/-! ## The decoder (R96) -/

/-- Decoding answers an instruction exactly where its operand words stand behind the opcode word, and leaves the words after them. -/
theorem decode_cons_eq_instr_iff {w : Word} {tail rest : List Word} {i : Instr} :
    decode (w :: tail) = .instr i rest ↔ ∃ f ops, formOf w = some f ∧ f.Makes i ops ∧ tail = ops ++ rest := by
  constructor
  · intro h
    simp only [decode] at h
    split at h
    · cases h
    · next f0 hf => cases h; exact ⟨_, _, hf, .f0 _, rfl⟩
    · next mk hf =>
      split at h
      · cases h; exact ⟨_, _, hf, .f1 _ _, rfl⟩
      · cases h
    · next mk hf =>
      split at h
      · next speed count offsets =>
        split at h
        · next hle =>
          cases h
          have hlen : (offsets.take count.toNat).length = count.toNat := List.length_take_of_le hle
          refine ⟨_, _, hf, .fa mk speed _ (hlen.trans_lt count.isLt), ?_⟩
          simp [hlen]
        · cases h
      · cases h
  · rintro ⟨f, ops, hf, hmakes, rfl⟩
    cases hmakes with
    | f0 | f1 => simp [decode, hf]
    | fa mk speed offsets hlen =>
      have hcount : (BitVec.ofNat 32 offsets.length).toNat = offsets.length := Nat.mod_eq_of_lt hlen
      simp [decode, hf, hcount, -BitVec.toNat_ofNat]

/-- Decoding refuses an opcode word exactly where the opcode map has no row for it, whatever follows. -/
theorem decode_cons_eq_unknownOpcode_iff {w : Word} {rest : List Word} :
    decode (w :: rest) = .unknownOpcode w ↔ formOf w = none := by
  simp only [decode]
  split
  · simp [*]
  · simp [*]
  · split <;> simp [*]
  · split
    · split <;> simp [*]
    · simp [*]

end Sys2Proof

namespace Sys2Proof.Machine

/-- Settles O1: the operand words of a well-formed instruction are those its opcode word calls for. -/
theorem decodeEncodeRoundTrip : Obligations.DecodeEncodeRoundTrip := by
  intro i rest hwf
  obtain ⟨f, hf, hmakes⟩ := formOf_makes_iff.2 ⟨hwf, rfl, rfl⟩
  exact decode_cons_eq_instr_iff.2 ⟨f, i.operands, hf, hmakes, rfl⟩

/-- Settles O2: the decoder reads an opcode word and the operand words its row calls for, which are those of one well-formed instruction. -/
theorem decodeReadsOnlyEncodings : Obligations.DecodeReadsOnlyEncodings := by
  intro ws i rest h
  cases ws with
  | nil => cases h
  | cons w tail =>
    obtain ⟨f, ops, hf, hmakes, rfl⟩ := decode_cons_eq_instr_iff.1 h
    obtain ⟨hwf, rfl, rfl⟩ := formOf_makes_iff.1 ⟨f, hf, hmakes⟩
    exact ⟨hwf, rfl⟩

/-- Settles O4: the decoder refuses a word exactly where the opcode map has no row for it. -/
theorem unrecognizedWords : Obligations.UnrecognizedWords :=
  ⟨by decide, by decide, fun _ _ => decode_cons_eq_unknownOpcode_iff.trans formOf_eq_none_iff⟩

/-- Settles O3: each list is the encoding of its instruction and the words after it, which the round trip decodes. -/
theorem sampleWordsDecode : Obligations.SampleWordsDecode :=
  ⟨decodeEncodeRoundTrip (.attack 60) [] rfl, decodeEncodeRoundTrip (.arpeggio 2 [0, 4, 7]) [] rfl,
    decodeEncodeRoundTrip (.waveform 0x80000000) [0x3F] rfl, decodeEncodeRoundTrip (.releaseticks 6) [] rfl,
    decodeEncodeRoundTrip (.step 4410) [] rfl, decodeEncodeRoundTrip (.call 20) [] rfl, decodeEncodeRoundTrip .endTrack [] rfl⟩

/-! ## Assembled programs (R99) -/

/-- An instruction takes its opcode word and its operand words (R92), whether well formed or not. -/
theorem encode_length (i : Instr) : (encode i).length = 1 + i.operandCount := by
  cases i with
  | arpeggio speed offsets => simp [encode, Instr.operands, Instr.operandCount]; omega
  | _ => rfl

theorem Statement.words_length {labels : List (List Char × Nat)} {x : Statement} {ws : List Word} (h : x.words labels = some ws) :
    ws.length = x.size := by
  cases x with
  | define name => cases h; rfl
  | plain i => cases h; exact encode_length i
  | call a | jump a =>
    obtain ⟨w, -, rfl⟩ := Option.map_eq_some_iff.1 h
    rfl

theorem wordsOf_cons_eq_some_iff {labels : List (List Char × Nat)} {x : Statement} {xs : List Statement} {ws : List Word} :
    wordsOf labels (x :: xs) = some ws ↔ ∃ ws₁ ws₂, x.words labels = some ws₁ ∧ wordsOf labels xs = some ws₂ ∧ ws = ws₁ ++ ws₂ := by
  simp only [wordsOf]
  cases x.words labels <;> cases wordsOf labels xs <;> simp [eq_comm]

theorem wordsOf_length {labels : List (List Char × Nat)} {xs : List Statement} {ws : List Word} (h : wordsOf labels xs = some ws) :
    ws.length = (xs.map Statement.size).sum := by
  induction xs generalizing ws with
  | nil => cases h; rfl
  | cons x xs ih =>
    obtain ⟨ws₁, ws₂, hx, hxs, rfl⟩ := wordsOf_cons_eq_some_iff.1 h
    simp [Statement.words_length hx, ih hxs]

/-- The words of a program in two parts are the words of the one followed by the words of the other. -/
theorem wordsOf_append_eq_some {labels : List (List Char × Nat)} {xs ys : List Statement} {ws : List Word}
    (h : wordsOf labels (xs ++ ys) = some ws) :
    ∃ ws₁ ws₂, wordsOf labels xs = some ws₁ ∧ wordsOf labels ys = some ws₂ ∧ ws = ws₁ ++ ws₂ := by
  induction xs generalizing ws with
  | nil => exact ⟨[], ws, rfl, h, rfl⟩
  | cons x xs ih =>
    obtain ⟨wx, wxy, hx, hxy, rfl⟩ := wordsOf_cons_eq_some_iff.1 h
    obtain ⟨ws₁, ws₂, hxs, hys, rfl⟩ := ih hxy
    exact ⟨wx ++ ws₁, ws₂, wordsOf_cons_eq_some_iff.2 ⟨wx, ws₁, hx, hxs, rfl⟩, hys, (List.append_assoc ..).symm⟩

/-- A statement moves the address on by its size; only a label's definition is listed. -/
theorem mem_labelsFrom_cons {l : List Char × Nat} {a : Nat} {x : Statement} {xs : List Statement} (h : l ∈ labelsFrom (a + x.size) xs) :
    l ∈ labelsFrom a (x :: xs) := by
  cases x with
  | define name => exact List.mem_cons_of_mem _ h
  | plain i | call t | jump t => exact h

/-- A label stands at the sum of the sizes before it. -/
theorem mem_labelsFrom_append_define (a : Nat) (before after : List Statement) (name : List Char) :
    (name, a + (before.map Statement.size).sum) ∈ labelsFrom a (before ++ .define name :: after) := by
  induction before generalizing a with
  | nil => exact List.mem_cons_self
  | cons x xs ih =>
    have h := ih (a + x.size)
    rw [Nat.add_assoc] at h
    exact mem_labelsFrom_cons h

/-- Settles O56: a label stands at the sum of the sizes before it, and those statements take as many words. -/
theorem labelsAreWordAddresses : Obligations.LabelsAreWordAddresses := by
  intro before after name labels a ws h
  obtain ⟨ws₁, ws', hbefore, hrest, rfl⟩ := wordsOf_append_eq_some h
  obtain ⟨wd, ws₂, hdefine, hafter, rfl⟩ := wordsOf_cons_eq_some_iff.1 hrest
  cases hdefine
  exact ⟨mem_labelsFrom_append_define a before after name, ws₁, ws₂, hbefore, hafter, rfl, wordsOf_length hbefore⟩

end Sys2Proof.Machine
end

section
/-! One step of an invocation at the head of Run's loop (40_interpreter_cycle.md R115 to R118): which words make the decoder answer an
instruction at the cursor, and the step for each answer. -/

namespace Sys2Proof.Machine

/-! ## The step and the running interpreter of an invocation -/

theorem State.it_of_invoke {s : State} {t : Track} {p : Phase} {rest : List Frame} (hctl : s.ctl = .invoke t p :: rest) :
    s.it = s.interp t := by
  rw [State.it, State.cur_of_invoke hctl]

theorem step_of_ctl_invoke {s : State} {t : Track} {p : Phase} {rest : List Frame} (hctl : s.ctl = .invoke t p :: rest) :
    step s = s.invokeStep t p rest := by
  unfold step; rw [hctl]

/-- A local step of an invocation, in the terms of the statements. -/
theorem Local.stepsTo {s u : State} {i : Interp} {evs : List Event} {ctl : List Frame} (h : Local s u) (hstep : step s = .next u)
    (hi : u.it = i) (hout : u.out = s.out ++ evs) (hctl : u.ctl = ctl) : StepsTo s i evs ctl :=
  ⟨u, hstep, h.leaves hi hout hctl⟩

/-! ## The words at the cursor (20_memory.md R71) -/

/-- At or beyond PROGLEN no word is left. -/
theorem Interp.stream_eq_nil {i : Interp} (h : i.bind.proglen.toNat ≤ i.pc.toNat) : i.stream = [] := by
  unfold Interp.stream
  rw [Nat.sub_eq_zero_of_le h]
  rfl

/-- Below PROGLEN the first word is the one at the cursor. -/
theorem Interp.stream_eq_cons {i : Interp} (h : i.pc.toNat < i.bind.proglen.toNat) :
    ∃ tail, i.stream = i.bind.pm.readWord i.pc.toNat :: tail := by
  unfold Interp.stream
  obtain ⟨n, hn⟩ := Nat.exists_eq_succ_of_ne_zero (Nat.sub_ne_zero_of_lt h)
  rw [hn]
  exact ⟨_, rfl⟩

/-- Words begin the stream exactly where they stand in program memory from the cursor on, all below PROGLEN. -/
theorem Interp.begins_stream_iff {i : Interp} {ws : List Word} (hne : ws ≠ []) :
    ws <+: i.stream ↔ i.pc.toNat + ws.length ≤ i.bind.proglen.toNat
      ∧ ∀ k w, ws[k]? = some w → i.bind.pm.readWord (i.pc.toNat + k) = w := by
  have hpos : 0 < ws.length := List.length_pos_of_ne_nil hne
  have hlen : i.stream.length = i.bind.proglen.toNat - i.pc.toNat := Memory.readWords_length _ _ _
  have hword : ∀ k, k < i.stream.length → i.stream[k]? = some (i.bind.pm.readWord (i.pc.toNat + k)) := fun k hk =>
    Memory.readWords_getElem? _ _ _ _ (hlen ▸ hk)
  constructor
  · intro hpre
    have hle := hpre.length_le
    refine ⟨by omega, fun k w hk => ?_⟩
    obtain ⟨hlt, rfl⟩ := List.getElem?_eq_some_iff.1 hk
    exact Option.some.inj ((hword k (by omega)).symm.trans (List.prefix_iff_getElem?.1 hpre k hlt))
  · rintro ⟨hle, hstand⟩
    refine List.prefix_iff_getElem?.2 fun k hk => ?_
    rw [hword k (by omega), hstand k _ (List.getElem?_eq_getElem hk)]

/-! ## What stands at the cursor (30_encoding.md R96) -/

/-- The decoder answers an instruction exactly where it is well formed and all of its words stand below PROGLEN from the cursor on. -/
theorem Interp.decode_stream_eq_instr_iff {p : Interp} {i : Instr} :
    (∃ more, decode p.stream = .instr i more) ↔
      i.wf = true ∧ p.pc.toNat + (encode i).length ≤ p.bind.proglen.toNat
        ∧ ∀ k w, (encode i)[k]? = some w → p.bind.pm.readWord (p.pc.toNat + k) = w := by
  have hne : encode i ≠ [] := List.cons_ne_nil i.code i.operands
  rw [← Interp.begins_stream_iff hne]
  constructor
  · rintro ⟨more, h⟩
    obtain ⟨hwf, hstream⟩ := decodeReadsOnlyEncodings _ _ _ h
    exact ⟨hwf, more, hstream.symm⟩
  · rintro ⟨hwf, more, hstream⟩
    exact ⟨more, hstream ▸ decodeEncodeRoundTrip i more hwf⟩

/-- Words that are there decode to an instruction, to a truncated one, or to an unrecognized word. -/
theorem decode_cons_cases (w : Word) (tail : List Word) :
    (∃ i rest, decode (w :: tail) = .instr i rest) ∨ decode (w :: tail) = .truncated w ∨ decode (w :: tail) = .unknownOpcode w := by
  simp only [decode]
  split
  · exact .inr (.inr rfl)
  · exact .inl ⟨_, _, rfl⟩
  · split
    · exact .inl ⟨_, _, rfl⟩
    · exact .inr (.inl rfl)
  · split
    · split
      · exact .inl ⟨_, _, rfl⟩
      · exact .inr (.inl rfl)
    · exact .inr (.inl rfl)

/-! ## The opcode word and the operand count (30_encoding.md R92, R94) -/

theorem Instr.code_eq_four_iff {i : Instr} : i.code = 4 ↔ ∃ speed offsets, i = .arpeggio speed offsets := by
  constructor
  · intro h
    cases i with
    | arpeggio speed offsets => exact ⟨speed, offsets, rfl⟩
    | _ => exact absurd (congrArg BitVec.toNat h) (by simp [Instr.code])
  · rintro ⟨speed, offsets, rfl⟩
    rfl

/-- But for ARPEGGIO the opcode word alone says how many operand words follow: none for RELEASE, MUTE, STEPTICKS, RETURN and END, else one. -/
theorem Instr.operandCount_of_code_ne_four {i : Instr} (h : i.code ≠ 4) :
    i.operandCount = if i.code ∈ ([0x02, 0x03, 0x21, 0x31, 0x3F] : List Word) then 0 else 1 := by
  cases i with
  | arpeggio speed offsets => exact absurd rfl h
  | _ => rfl

/-- An ARPEGGIO at the cursor lies below PROGLEN with its count word and as many offsets as that word says (R94). -/
theorem Interp.arpeggio_fits {p : Interp} {i : Instr} {more : List Word} (h : decode p.stream = .instr i more) (hcode : i.code = 4) :
    p.pc.toNat + 3 + (p.bind.pm.readWord (p.pc.toNat + 2)).toNat ≤ p.bind.proglen.toNat := by
  obtain ⟨hwf, hfits, hstand⟩ := Interp.decode_stream_eq_instr_iff.1 ⟨more, h⟩
  obtain ⟨speed, offsets, rfl⟩ := Instr.code_eq_four_iff.1 hcode
  have hcount : (BitVec.ofNat 32 offsets.length).toNat = offsets.length := Nat.mod_eq_of_lt (of_decide_eq_true hwf)
  rw [hstand 2 _ rfl, hcount]
  rw [encode_length] at hfits
  simp only [Instr.operandCount] at hfits
  omega

/-- A truncated instruction (R117): the operand words that the opcode at the cursor calls for do not all lie below PROGLEN. -/
def Interp.Truncated (p : Interp) : Prop :=
  (p.bind.pm.readWord p.pc.toNat ≠ 4 ∧ ∃ i : Instr, i.code = p.bind.pm.readWord p.pc.toNat
    ∧ p.bind.proglen.toNat < p.pc.toNat + 1 + i.operandCount)
  ∨ (p.bind.pm.readWord p.pc.toNat = 4 ∧ (p.bind.proglen.toNat < p.pc.toNat + 3
    ∨ p.bind.proglen.toNat < p.pc.toNat + 3 + (p.bind.pm.readWord (p.pc.toNat + 2)).toNat))

theorem Interp.Truncated.opcode {p : Interp} (h : p.Truncated) : p.bind.pm.readWord p.pc.toNat ∈ opcodes := by
  obtain ⟨-, i, hcode, -⟩ | ⟨hcode, -⟩ := h
  · exact hcode ▸ i.code_mem_opcodes
  · rw [hcode]; decide

theorem Interp.Truncated.ne_instr {p : Interp} (h : p.Truncated) (j : Instr) (more : List Word) : decode p.stream ≠ .instr j more := by
  intro hdecode
  obtain ⟨-, hfits, hstand⟩ := Interp.decode_stream_eq_instr_iff.1 ⟨more, hdecode⟩
  have hcode : p.bind.pm.readWord p.pc.toNat = j.code := hstand 0 _ rfl
  rw [encode_length] at hfits
  obtain ⟨hne, i, hi, hshort⟩ | ⟨hfour, hshort⟩ := h
  · have hsame : i.operandCount = j.operandCount := by
      rw [Instr.operandCount_of_code_ne_four (hi ▸ hne), Instr.operandCount_of_code_ne_four (hcode ▸ hne), hi, hcode]
    omega
  · have := Interp.arpeggio_fits hdecode (hcode ▸ hfour)
    omega

theorem Interp.Truncated.decode_stream {p : Interp} (h : p.Truncated) (hbelow : p.pc.toNat < p.bind.proglen.toNat) :
    decode p.stream = .truncated (p.bind.pm.readWord p.pc.toNat) := by
  have hnot := h.ne_instr
  obtain ⟨tail, hstream⟩ := Interp.stream_eq_cons hbelow
  rw [hstream] at hnot ⊢
  obtain ⟨i, more, hinstr⟩ | htruncated | hunknown := decode_cons_cases (p.bind.pm.readWord p.pc.toNat) tail
  · exact absurd hinstr (hnot i more)
  · exact htruncated
  · exact absurd h.opcode ((unrecognizedWords.2.2 _ _).1 hunknown)

/-! ## The step for each answer of the decoder (R115 to R118) -/

/-- What a machine at the head of Run's loop does with what stands at the cursor; `AtFetch.step_eq` ties it to the step. -/
def State.meets (s : State) : Decoded → Host.Outcome State Fault Refusal
  | .instr i _ => exec i s
  | .endOfStream | .truncated _ => .next s.markDone
  | .unknownOpcode _ => .next (s.raise .unknownOpcode)

section
variable {s : State} {t : Track} {rest : List Frame}

theorem AtFetch.it (h : AtFetch s t rest) : s.it = s.interp t := State.it_of_invoke h.ctl

/-- Where the program is neither ended nor held, the step is what the words at the cursor decode to. -/
theorem AtFetch.step_eq (h : AtFetch s t rest) {d : Decoded} (hdecode : decode (s.interp t).stream = d) : step s = s.meets d := by
  have hgoes : (s.it.status.done || s.it.tflags.hasStep) = false := by rw [h.it, h.done, h.free]; rfl
  rw [step_of_ctl_invoke h.ctl]
  show s.runStep = _
  unfold State.runStep
  rw [hgoes, State.fetch, h.it, hdecode]
  rfl

/-- Ending the program writes DONE and nothing else. -/
theorem AtFetch.stepsTo_markDone (h : AtFetch s t rest) (hstep : step s = .next s.markDone) :
    StepsTo s { s.interp t with status := { (s.interp t).status with done := true } } [] s.ctl :=
  (Local.markDone s).stepsTo hstep (by rw [State.markDone_it, h.it]) (by simp) (by simp)

end

/-- Settles O5: Run's loop executes what the decoder answers. -/
theorem stepRunsDecodedInstruction : Obligations.StepRunsDecodedInstruction :=
  fun _ _ _ _ _ hfetch hdecode _ => hfetch.step_eq hdecode

/-- Settles O6: the words that stand below PROGLEN from the cursor on are the ones the decoder is given, and it reads the instruction back. -/
theorem stepRunsEncodedInstruction : Obligations.StepRunsEncodedInstruction := by
  intro s t rest i hfetch hwf hbelow hstand
  obtain ⟨more, hdecode⟩ := Interp.decode_stream_eq_instr_iff.2 ⟨hwf, hbelow, hstand⟩
  exact hfetch.step_eq hdecode

/-- Settles O7: without a word left the decoder answers the end of the stream, with too few operand words a truncated instruction. -/
theorem programEndsAtFetch : Obligations.ProgramEndsAtFetch := by
  intro s t rest hfetch p len w hends
  apply hfetch.stepsTo_markDone
  obtain hbeyond | ⟨hbelow, hshort⟩ | ⟨hbelow, hshort⟩ := hends
  · exact hfetch.step_eq (congrArg decode (Interp.stream_eq_nil hbeyond))
  · exact hfetch.step_eq (Interp.Truncated.decode_stream (.inl hshort) hbelow)
  · exact hfetch.step_eq (Interp.Truncated.decode_stream (.inr hshort) hbelow)

/-- Settles O8: the decoder refuses a word that is none of the 22 codes, and the step is the fault entry. -/
theorem unknownOpcodeFaults : Obligations.UnknownOpcodeFaults := by
  intro s t rest hfetch hbelow hword
  obtain ⟨tail, hstream⟩ := Interp.stream_eq_cons hbelow
  have hdecode : decode (s.interp t).stream = .unknownOpcode ((s.interp t).bind.pm.readWord (s.interp t).pc.toNat) :=
    hstream ▸ (unrecognizedWords.2.2 _ tail).2 hword
  exact (Local.raise s _).stepsTo (hfetch.step_eq hdecode) (by rw [State.raise_it, hfetch.it]) (by simp)
    (State.raise_ctl_of_invoke _ hfetch.ctl)

end Sys2Proof.Machine
end

section
/-! The phases of an invocation around its instructions: entry and elapse (40_interpreter_cycle.md R112, R120), one pass's resolution and run
decision (R113, R114), and the returned wait (R115, R119, R121). -/

namespace Sys2Proof.Machine

/-! ## Entry and elapse (R112, R120) -/

theorem State.enterStep_of_done {s : State} (h : s.it.status.done = true) : s.enterStep = s.setPhase (.ret .done) := by
  unfold State.enterStep; rw [h]; rfl

theorem State.enterStep_of_not_done {s : State} (h : s.it.status.done = false) :
    s.enterStep = (s.updIt Interp.elapse).setPhase .resolve := by
  unfold State.enterStep; rw [h]; rfl

/-- After an interpreter reset no counter is armed. -/
@[simp] theorem Interp.fresh_armed (cfg : Params) (b : Bindings) : (Interp.fresh cfg b).armed = [] := rfl

/-- Between invocations of a program that has not ended, the wait last returned is no greater than any armed counter (R31 d). -/
theorem Interp.Resting.lastw_le {cfg : Params} {i : Interp} (h : i.Resting cfg) (hdone : i.status.done = false) :
    ∀ w ∈ i.armed, i.lastw ≤ w := by
  obtain hfresh | ⟨-, -, -, hnearest⟩ := h.2 hdone
  · rw [hfresh, Interp.fresh_armed]; exact fun _ hw => absurd hw List.not_mem_nil
  · exact (leastOf_least hnearest).2

/-- Settles O21: the entry of an ended program only moves the invocation to its return. -/
theorem terminalNoOp : Obligations.TerminalNoOp := by
  intro s t rest hctl hdone
  have hit := State.it_of_invoke hctl
  rw [← hit] at hdone ⊢
  refine (Local.enterStep s).stepsTo (step_of_ctl_invoke hctl) ?_ ?_ ?_
  all_goals rw [State.enterStep_of_done hdone]
  · simp
  · simp
  · exact State.setPhase_ctl_of_invoke _ hctl

/-- Settles O23: the elapse, and that an interpreter at rest was just reset or waits for its least armed counter. -/
theorem elapseCountsDown : Obligations.ElapseCountsDown := by
  intro s t rest p f hctl hdone
  refine ⟨?_, fun hrest => hrest.lastw_le hdone⟩
  have hit : s.it = p := State.it_of_invoke hctl
  rw [← hit] at hdone
  refine (Local.enterStep s).stepsTo (step_of_ctl_invoke hctl) ?_ ?_ ?_
  all_goals rw [State.enterStep_of_not_done hdone]
  · rw [State.setPhase_it, State.updIt_it, hit]; rfl
  · simp
  · exact State.setPhase_ctl_of_invoke _ hctl

/-! ## What a local step leaves alone -/

theorem Local.onlyRunning {s u : State} (h : Local s u) : OnlyRunning s u := by
  obtain ⟨evs, hout, -⟩ := h.out
  exact (h.leaves rfl hout rfl).rest

/-! ## One pass: due events, arpeggio cycle, run decision (R113, R114) -/

/-- The event is one gate transition on the sink of the track. -/
def Event.IsGate (t : Track) (e : Event) : Prop := ∃ k w, e = .sink t k w ∧ (k = .attack ∨ k = .release ∨ k = .mute)

/-- Carrying out the winner of the tie presents one gate event, or none where nothing was due. -/
theorem State.carryOut_out (s : State) (g : Option Gate) :
    ∃ gate, (s.carryOut g).out = s.out ++ gate ∧ gate.length ≤ 1 ∧ ∀ e ∈ gate, e.IsGate s.cur := by
  have hone : ∀ k w, k = .attack ∨ k = .release ∨ k = .mute → ∀ e ∈ [Event.sink s.cur k w], e.IsGate s.cur := by
    rintro k w hk e he
    exact ⟨k, w, List.mem_singleton.1 he, hk⟩
  rcases g with _ | _ | _ | _
  · exact ⟨[], (List.append_nil _).symm, Nat.zero_le _, fun _ he => absurd he List.not_mem_nil⟩
  · exact ⟨[_], s.doAttack_out, le_rfl, hone _ _ (.inl rfl)⟩
  · exact ⟨[_], s.sink_out _ _, le_rfl, hone _ _ (.inr (.inl rfl))⟩
  · exact ⟨[_], s.sink_out _ _, le_rfl, hone _ _ (.inr (.inr rfl))⟩

/-- Marking and clearing the IntrFlag bits presents nothing. -/
theorem State.resolveDue_out (s : State) :
    ∃ gate, s.resolveDue.out = s.out ++ gate ∧ gate.length ≤ 1 ∧ ∀ e ∈ gate, e.IsGate s.cur :=
  (s.updIt Interp.markDue).carryOut_out _

theorem State.arpCycleIfDue_out (s : State) :
    ∃ cycle, s.arpCycleIfDue.out = s.out ++ cycle ∧ cycle.length ≤ 1 ∧ ∀ e ∈ cycle, ∃ w, e = .sink s.cur .arpnote w := by
  unfold State.arpCycleIfDue
  split
  · exact ⟨[_], rfl, le_rfl, fun e he => ⟨_, List.mem_singleton.1 he⟩⟩
  · exact ⟨[], (List.append_nil _).symm, Nat.zero_le _, fun _ he => absurd he List.not_mem_nil⟩

theorem Interp.held_eq_true_iff {i : Interp} : i.held = true ↔ i.tflags.hasStep = true ∧ i.stepc ≠ 0 := by
  simp [Interp.held]

theorem Interp.held_eq_false_iff {i : Interp} : i.held = false ↔ i.tflags.hasStep = false ∨ i.stepc = 0 := by
  rw [← Bool.not_eq_true, Interp.held_eq_true_iff, not_and_or, Bool.not_eq_true, not_not]

/-- Neither the due events nor the cycle decide whether the step counter holds the program. -/
theorem State.resolved_held (s : State) : s.resolveDue.arpCycleIfDue.it.held = s.it.held := by
  obtain ⟨-, hstepc, hstep, -, -⟩ := s.resolved_keeps
  unfold Interp.held
  rw [hstepc, hstep]

theorem State.resolveStep_of_held {s : State} (h : s.it.held = true) :
    s.resolveStep = s.resolveDue.arpCycleIfDue.setPhase .settle := by
  unfold State.resolveStep
  dsimp only
  rw [s.resolved_held, h]
  rfl

theorem State.resolveStep_of_not_held {s : State} (h : s.it.held = false) :
    s.resolveStep =
      (s.resolveDue.arpCycleIfDue.updIt fun i => { i with tflags := { i.tflags with hasStep := false } }).setPhase .run := by
  unfold State.resolveStep
  dsimp only
  rw [s.resolved_held, h]
  rfl

/-- The run decision presents nothing and writes no counter and no cursor. -/
theorem State.resolveStep_keeps (s : State) :
    s.resolveStep.out = s.resolveDue.arpCycleIfDue.out ∧ s.resolveStep.it.pc = s.it.pc ∧ s.resolveStep.it.stepc = s.it.stepc := by
  obtain ⟨hpc, hstepc, -, -, -⟩ := s.resolved_keeps
  cases h : s.it.held with
  | true => rw [State.resolveStep_of_held h]; simp [hpc, hstepc]
  | false => rw [State.resolveStep_of_not_held h]; simp [hpc, hstepc]

/-- Settles O26: each stage of the pass presents at most one event, and the run decision is that of the step counter on entry. -/
theorem resolutionOrder : Obligations.ResolutionOrder := by
  intro s t rest hctl r
  have hcur : s.cur = t := State.cur_of_invoke hctl
  subst hcur
  have hr : r.ctl = .invoke s.cur .resolve :: rest := by simpa [r] using hctl
  obtain ⟨gate, hgate, hgate_one, hgate_kind⟩ := s.resolveDue_out
  obtain ⟨cycle, hcycle, hcycle_one, hcycle_kind⟩ := s.resolveDue.arpCycleIfDue_out
  rw [State.resolveDue_cur] at hcycle_kind
  obtain ⟨hout, hpc, hstepc⟩ := s.resolveStep_keeps
  obtain ⟨-, -, hstep, -, -⟩ := s.resolved_keeps
  have hlocal := Local.resolveStep s
  have hit : s.resolveStep.interp s.cur = s.resolveStep.it := by rw [State.it, hlocal.cur]
  refine ⟨s.resolveStep, gate, cycle, step_of_ctl_invoke hctl, hgate, hcycle, hout, hgate_one, hgate_kind, hcycle_one, hcycle_kind,
    hit ▸ hpc, hit ▸ hstepc, fun hheld => ?_, fun hfree => ?_, hlocal.onlyRunning⟩
  · rw [hit, State.resolveStep_of_held (Interp.held_eq_true_iff.2 hheld)]
    exact ⟨State.setPhase_ctl_of_invoke _ hr, by simp [r], by simpa using hstep.trans hheld.1⟩
  · rw [hit, State.resolveStep_of_not_held (Interp.held_eq_false_iff.2 hfree)]
    exact ⟨State.setPhase_ctl_of_invoke (s := r.updIt _) _ hr, by simp [r]⟩

/-! ## The returned wait (R115, R119, R121) -/

section
variable {s : State} {t : Track} {rest : List Frame}

theorem step_run_of_stopped (hctl : s.ctl = .invoke t .run :: rest) (h : s.it.status.done = true ∨ s.it.tflags.hasStep = true) :
    step s = .next (s.setPhase .settle) := by
  rw [step_of_ctl_invoke hctl]
  show s.runStep = _
  unfold State.runStep
  rw [if_pos (by simpa using h)]

theorem step_settle_of_done (hctl : s.ctl = .invoke t .settle :: rest) (h : s.it.status.done = true) :
    step s = .next ((s.updIt fun i => { i with lastw := 0 }).setPhase (.ret .done)) := by
  rw [step_of_ctl_invoke hctl]
  show s.settleStep = _
  unfold State.settleStep
  rw [if_pos h]

theorem step_settle_of_zero (hctl : s.ctl = .invoke t .settle :: rest) (h : s.it.status.done = false)
    (hnearest : s.it.nearest = some 0) : step s = .next (s.setPhase .resolve) := by
  rw [step_of_ctl_invoke hctl]
  show s.settleStep = _
  unfold State.settleStep
  rw [h, hnearest]
  rfl

theorem step_settle_of_wait (hctl : s.ctl = .invoke t .settle :: rest) (h : s.it.status.done = false) {w : Word}
    (hnearest : s.it.nearest = some w) (hw : w ≠ 0) :
    step s = .next ((s.updIt fun i => { i with lastw := w }).setPhase (.ret (.ok w))) := by
  rw [step_of_ctl_invoke hctl]
  show s.settleStep = _
  unfold State.settleStep
  rw [h, hnearest, if_neg nofun]
  dsimp only
  rw [if_neg hw]

end

/-- An armed counter no greater than any other is the minimum of R119. -/
theorem Interp.nearest_of_least {i : Interp} {w : Word} (hw : w ∈ i.armed) (hleast : ∀ v ∈ i.armed, w ≤ v) : i.nearest = some w := by
  obtain ⟨v, hv⟩ := leastOf_exists (List.ne_nil_of_mem hw)
  obtain ⟨hmem, hle⟩ := leastOf_least hv
  rw [BitVec.le_antisymm (hleast v hmem) (hle w hw)]
  exact hv

/-- Settles O27: each clause is one branch of the loop test of Run or of the return, and the least armed counter is the minimum of R119. -/
theorem returnedWait : Obligations.ReturnedWait := by
  intro s t rest p
  refine ⟨fun hctl hstopped => ?_, fun hctl => ⟨fun hdone => ?_, fun hdone w hw hleast => ⟨fun hne => ?_, fun heq => ?_⟩⟩⟩
  all_goals have hit : s.it = p := State.it_of_invoke hctl
  · exact (Local.setPhase s _).stepsTo (step_run_of_stopped hctl (hit ▸ hstopped)) (by simp [hit]) (by simp)
      (State.setPhase_ctl_of_invoke _ hctl)
  · exact ((Local.updIt s _ rfl).trans (Local.setPhase _ _)).stepsTo (step_settle_of_done hctl (hit ▸ hdone)) (by simp [hit])
      (by simp) (State.setPhase_ctl_of_invoke _ hctl)
  · have hnearest : s.it.nearest = some w := hit ▸ Interp.nearest_of_least hw hleast
    exact ((Local.updIt s _ rfl).trans (Local.setPhase _ _)).stepsTo (step_settle_of_wait hctl (hit ▸ hdone) hnearest hne)
      (by simp [hit]) (by simp) (State.setPhase_ctl_of_invoke _ hctl)
  · have hnearest : s.it.nearest = some 0 := hit ▸ heq ▸ Interp.nearest_of_least hw hleast
    exact (Local.setPhase s _).stepsTo (step_settle_of_zero hctl (hit ▸ hdone) hnearest) (by simp [hit]) (by simp)
      (State.setPhase_ctl_of_invoke _ hctl)

/-! ## A wait of 0 costs one more pass (R119) -/

section
variable {cfg : Params} {i : Interp}

/-- Where nothing is due an armed counter is not 0. -/
theorem Interp.armed_ne_zero (hstep : i.tflags.hasStep = true → i.stepc ≠ 0) (hattack : i.attackDue = false)
    (hrelease : i.releaseDue = false) (hmute : i.muteDue = false) (harp : i.arpDue = false) : ∀ w ∈ i.armed, w ≠ 0 := by
  simp only [Interp.attackDue, Interp.releaseDue, Interp.muteDue, Interp.arpDue, Bool.and_eq_false_imp, beq_eq_false_iff_ne]
    at hattack hrelease hmute harp
  intro w hw
  simp only [Interp.armed, List.mem_append, List.mem_ite_nil_right, List.mem_singleton] at hw
  obtain (((⟨hset, rfl⟩ | ⟨hset, rfl⟩) | ⟨hset, rfl⟩) | ⟨hset, rfl⟩) | ⟨hset, rfl⟩ := hw
  · exact hstep hset
  · exact hattack hset
  · exact hrelease hset
  · exact hmute hset
  · exact harp hset

/-- Resolving the due events consumes every one of them, whichever wins. -/
theorem Interp.dueResolved_nothing_due (i : Interp) :
    i.dueResolved.attackDue = false ∧ i.dueResolved.releaseDue = false ∧ i.dueResolved.muteDue = false := by
  have hmarked : i.markDue.attackDue = false ∧ i.markDue.releaseDue = false ∧ i.markDue.muteDue = false := by
    have hconsumed : ∀ armed zero : Bool, ((armed && !(armed && zero)) && zero) = false := by decide
    exact ⟨hconsumed _ _, hconsumed _ _, hconsumed _ _⟩
  unfold Interp.dueResolved
  split
  · obtain ⟨_, ⟨heq, -⟩ | ⟨heq, -⟩⟩ := i.markDue.attacked_cases
    · rw [heq]; exact hmarked
    · rw [heq]; exact hmarked
  · exact hmarked

/-- A due cycle reloads its timer with the speed, which is not 0 where the timer is armed (R31 f). -/
theorem Interp.Sound.cycled_not_due (h : i.Sound cfg) : i.cycled.arpDue = false := by
  unfold Interp.arpDue
  rw [Bool.and_eq_false_imp]
  intro harmed
  exact beq_eq_false_iff_ne.2 (h.arpeggio harmed).2

/-- After a pass's due events and cycle nothing is due any more. -/
theorem Interp.Sound.resolved_nothing_due (h : i.Sound cfg) :
    i.resolved.attackDue = false ∧ i.resolved.releaseDue = false ∧ i.resolved.muteDue = false ∧ i.resolved.arpDue = false := by
  obtain ⟨hattack, hrelease, hmute⟩ := i.dueResolved_nothing_due
  unfold Interp.resolved
  split
  · exact ⟨hattack, hrelease, hmute, h.dueResolved.cycled_not_due⟩
  · next hnot => exact ⟨hattack, hrelease, hmute, by simpa using hnot⟩

end

/-- After a pass that found the program held, the least armed counter exists and is not 0. -/
theorem State.resolved_nearest {s : State} {cfg : Params} (hsound : s.it.Sound cfg) (hheld : s.it.held = true) :
    ∃ w, s.resolveDue.arpCycleIfDue.it.nearest = some w ∧ w ≠ 0 := by
  obtain ⟨hstep, hstepc⟩ := Interp.held_eq_true_iff.1 (s.resolved_held.trans hheld)
  obtain ⟨hattack, hrelease, hmute, harp⟩ := hsound.resolved_nothing_due
  rw [(Writes.resolved s).it] at hstep hstepc ⊢
  have harmed : s.it.resolved.stepc ∈ s.it.resolved.armed := by simp [Interp.armed, hstep]
  obtain ⟨w, hw⟩ := leastOf_exists (List.ne_nil_of_mem harmed)
  exact ⟨w, hw, Interp.armed_ne_zero (fun _ => hstepc) hattack hrelease hmute harp w (leastOf_least hw).1⟩

/-- Settles O28: the wait of 0 sends the invocation round; the second pass, which the step counter holds out of Run, leaves no armed counter at 0; and the
least of them is returned. -/
theorem atMostTwoPasses : Obligations.AtMostTwoPasses := by
  intro s t rest p hctl hsound hdone hstep hstepc hnearest
  have hit : s.it = p := State.it_of_invoke hctl
  let s₁ := s.setPhase .resolve
  have hctl₁ : s₁.ctl = .invoke t .resolve :: rest := State.setPhase_ctl_of_invoke _ hctl
  have hit₁ : s₁.it = p := by rw [State.setPhase_it, hit]
  have hheld : s₁.it.held = true := Interp.held_eq_true_iff.2 (hit₁ ▸ ⟨hstep, hstepc⟩)
  let s₂ := s₁.resolveDue.arpCycleIfDue.setPhase .settle
  have hctl₂ : s₂.ctl = .invoke t .settle :: rest := State.setPhase_ctl_of_invoke _ (by simpa using hctl₁)
  have hit₂ : s₂.it = s₁.resolveDue.arpCycleIfDue.it := State.setPhase_it _ _
  obtain ⟨hpc, -, -, hstatus, -⟩ := s₁.resolved_keeps
  rw [← hit₂, hit₁] at hpc hstatus
  obtain ⟨w, hw, hne⟩ := State.resolved_nearest (hit₁ ▸ hsound) hheld
  let s₃ := (s₂.updIt fun i => { i with lastw := w }).setPhase (.ret (.ok w))
  have hit₃ : s₃.interp t = { s₂.it with lastw := w } := by
    have hcur₂ : s₂.cur = t := State.cur_of_invoke hctl₂
    simp only [s₃, State.setPhase_interp, State.updIt_interp, hcur₂, if_pos]
  have h₁ : step s = .next s₁ := step_settle_of_zero hctl (hit ▸ hdone) (hit ▸ hnearest)
  have h₂ : step s₁ = .next s₂ := (step_of_ctl_invoke hctl₁).trans (congrArg _ (State.resolveStep_of_held hheld))
  have h₃ : step s₂ = .next s₃ := step_settle_of_wait hctl₂ (hstatus ▸ hdone) (hit₂ ▸ hw) hne
  refine ⟨s₃, w, by simp only [stepN, h₁, h₂, h₃], hne, State.setPhase_ctl_of_invoke _ hctl₂, ?_, ?_⟩
  · rw [hit₃]
  · rw [hit₃, ← hpc]

end Sys2Proof.Machine
end

section
/-! The value-setting and gate instructions (41_value_setting.md): each presents one event on the running track's sink and moves the cursor past its words. -/

namespace Sys2Proof.Machine

/-! ## Completing an instruction -/

/-- An instruction writes only the running interpreter, so that interpreter, the trace and the thread of control are all there is to say of it. -/
theorem completes_of_exec {instr : Instr} {s u : State} {i : Interp} {evs : List Event} (hexec : exec instr s = .next u)
    (hi : u.it = i) (hout : u.out = s.out ++ evs) (hctl : u.ctl = s.ctl) : Completes instr s i evs :=
  ⟨u, hexec, (exec_local hexec).leaves hi hout hctl⟩

theorem completes_of_sink_advance {instr : Instr} {s : State} {kind : SinkKind} {payload : Word} {n : Nat}
    (hexec : exec instr s = .next ((s.sink kind payload).advance n)) :
    Completes instr s { s.it with pc := s.it.pc + BitVec.ofNat 32 n } [.sink s.cur kind payload] :=
  completes_of_exec hexec (by rw [State.advance_it, State.sink_it]) (by rw [State.advance_out, State.sink_out])
    (by rw [State.advance_ctl, State.sink_ctl])

/-! ## Parameters and gates (R132 to R139) -/

/-- Settles O9: the six parameter instructions differ only in the kind of their event. -/
theorem parameterInstructions : Obligations.ParameterInstructions := fun _ _ =>
  ⟨⟨rfl, completes_of_sink_advance rfl⟩, ⟨rfl, completes_of_sink_advance rfl⟩, ⟨rfl, completes_of_sink_advance rfl⟩,
    ⟨rfl, completes_of_sink_advance rfl⟩, ⟨rfl, completes_of_sink_advance rfl⟩, ⟨rfl, completes_of_sink_advance rfl⟩⟩

/-- Settles O10: RELEASE and MUTE write nothing but the cursor. -/
theorem gateInstructions : Obligations.GateInstructions := fun _ =>
  ⟨⟨rfl, completes_of_sink_advance rfl⟩, ⟨rfl, completes_of_sink_advance rfl⟩⟩

/-! ## The tables and the WAVEFORM operand (20_memory.md R74, 30_encoding.md R95) -/

theorem tableAt_eq (table : List Word) (i : Word) :
    tableAt table i = if h : i.toNat < table.length then table[i.toNat] else 0 := by
  unfold tableAt u32
  split
  · next h => rw [List.getElem?_eq_getElem h]; rfl
  · next h => rw [List.getElem?_eq_none (not_lt.1 h)]; rfl

/-- The operand is its index with the custom bit's value added: the two parts have no bit in common. -/
theorem waveIndex_add_customPart (cfg : Params) (w : Word) :
    waveIndex cfg w + (w &&& BitVec.twoPow 32 cfg.waveCustomBit) = w := by
  show (w &&& ~~~BitVec.twoPow 32 cfg.waveCustomBit) + _ = w
  generalize BitVec.twoPow 32 cfg.waveCustomBit = m
  have hdisjoint : (w &&& ~~~m) &&& (w &&& m) = 0#32 := by
    ext k hk
    cases hm : m[k] <;> simp [hm]
  rw [BitVec.add_eq_or_of_and_eq_zero _ _ hdisjoint, ← BitVec.and_or_distrib_left, BitVec.or_comm, BitVec.or_not_self,
    BitVec.and_allOnes]

theorem waveIndex_of_builtin {cfg : Params} {w : Word} (h : waveCustom cfg w = false) : waveIndex cfg w = w := by
  have hbit : w &&& BitVec.twoPow 32 cfg.waveCustomBit = 0#32 := by
    rw [BitVec.and_twoPow, ← waveCustom, h]; rfl
  simpa [hbit] using waveIndex_add_customPart cfg w

theorem waveIndex_of_custom {cfg : Params} {w : Word} (h : waveCustom cfg w = true) :
    waveIndex cfg w = w - BitVec.twoPow 32 cfg.waveCustomBit := by
  have hbit : w &&& BitVec.twoPow 32 cfg.waveCustomBit = BitVec.twoPow 32 cfg.waveCustomBit := by
    rw [BitVec.and_twoPow, ← waveCustom, h]; rfl
  rw [BitVec.eq_sub_iff_add_eq, ← hbit]
  exact waveIndex_add_customPart cfg w

theorem execWaveform_of_builtin {s : State} {w : Word} (h : waveCustom s.cfg w = false) :
    exec (.waveform w) s = .next ((s.sink .waveformBuiltin w).advance 2) := by
  show execWaveform w s = _
  unfold execWaveform
  rw [h, waveIndex_of_builtin h]
  rfl

theorem execWaveform_of_custom {s : State} {w : Word} (h : waveCustom s.cfg w = true) :
    exec (.waveform w) s = .next ((s.sink .waveformCustom (tableAt s.it.bind.wtab (waveIndex s.cfg w))).advance 2) := by
  show execWaveform w s = _
  unfold execWaveform
  rw [h]
  rfl

/-- Settles O11: the custom bit chooses the event, and without it the operand is the index. -/
theorem tableInstructions : Obligations.TableInstructions := by
  intro s w
  refine ⟨rfl, ?_, rfl, fun hbuiltin => ?_, fun hcustom => ?_⟩
  · rw [← tableAt_eq]
    exact completes_of_sink_advance rfl
  · exact completes_of_sink_advance (execWaveform_of_builtin hbuiltin)
  · dsimp only
    rw [← tableAt_eq, ← waveIndex_of_custom hcustom]
    exact completes_of_sink_advance (execWaveform_of_custom hcustom)

/-! ## The attack (R131, 45_arpeggio.md R190, R195) -/

theorem Interp.arpActive_eq (i : Interp) : i.arpActive = decide (1 ≤ i.arplen ∧ i.arpspeed ≠ 0) := by
  rw [Interp.arpActive, Bool.decide_and, decide_not]
  rfl

/-- The two outcomes of `Interp.rearm_cases` as one record. -/
theorem Interp.rearm_eq (i : Interp) :
    i.rearm =
      { i with arpc := if i.arpActive then i.arpspeed else i.arpc, tflags := { i.tflags with hasArpeggio := i.arpActive } } := by
  obtain ⟨hactive, hrearm⟩ | ⟨hactive, hrearm⟩ := i.rearm_cases <;> rw [hrearm, hactive] <;> rfl

/-- Settles O12: the attack restarts the arpeggio of the interpreter that already holds the new base note. -/
theorem attackInstruction : Obligations.AttackInstruction := by
  intro s note p active
  refine ⟨rfl, completes_of_exec rfl ?_ ?_ rfl⟩
  · rw [State.advance_it, State.doAttack_it, State.updIt_it, Interp.attacked, Interp.rearm_eq, Interp.arpActive_eq]
    rfl
  · rw [State.advance_out, State.doAttack_out, State.updIt_it, Interp.attackNote_eq]
    rfl

end Sys2Proof.Machine
end

section
/-! The timed envelope (42_timed_envelope.md): the three instructions that arm a counter (R151 to R154), and the resolution of the events that are due
(R155, R156). -/

namespace Sys2Proof.Machine

/-! ## Arming a counter (R151 to R154) -/

/-- An instruction that presents nothing and goes on completes with what `Interp.after` makes of the running interpreter. -/
theorem completes_after {instr : Instr} {s u : State} (hexec : exec instr s = .next u) (hout : u.out = s.out) (hctl : u.ctl = s.ctl) :
    Completes instr s (s.it.after s.cfg instr) [] :=
  completes_of_exec hexec (exec_next hexec).1.it (by rw [hout, List.append_nil]) hctl

/-- Settles O14: each of the three presents nothing, and what it makes of the running interpreter does not read the counter or the flag it writes. -/
theorem timedEnvelopeInstructions : Obligations.TimedEnvelopeInstructions := fun _ _ =>
  ⟨⟨rfl, completes_after rfl rfl rfl⟩, ⟨rfl, completes_after rfl rfl rfl⟩, ⟨rfl, completes_after rfl rfl rfl⟩⟩

/-! ## The tie among the due events (R155, R156) -/

/-- An attack wins only where it is alone. -/
theorem tieWinner_eq_attack_iff {attack release mute : Bool} :
    tieWinner attack release mute = some .attack ↔ attack = true ∧ release = false ∧ mute = false := by
  cases mute <;> cases release <;> cases attack <;> decide

theorem Interp.markDue_winner_eq_attack_iff (i : Interp) :
    i.markDue.winner = some .attack ↔ i.attackDue = true ∧ i.releaseDue = false ∧ i.muteDue = false :=
  tieWinner_eq_attack_iff

/-- The one event that carrying out the winner presents, in the tie order mute, release, attack. -/
theorem State.carryOut_tieWinner_out (s : State) (attack release mute : Bool) :
    (s.carryOut (tieWinner attack release mute)).out = s.out ++
      (if mute then [.sink s.cur .mute 0]
       else if release then [.sink s.cur .release 0]
       else if attack then [.sink s.cur .attack s.it.attackNote]
       else []) := by
  cases mute with
  | true => exact s.sink_out .mute 0
  | false =>
    cases release with
    | true => exact s.sink_out .release 0
    | false =>
      cases attack with
      | true => exact s.doAttack_out
      | false => exact (List.append_nil _).symm

/-- The IntrFlag bits hold exactly the due events, so the tie is among them. -/
theorem State.resolveDue_eq (s : State) :
    s.resolveDue =
      ((s.updIt Interp.markDue).carryOut (tieWinner s.it.attackDue s.it.releaseDue s.it.muteDue)).updIt Interp.clearIntr := by
  unfold State.resolveDue
  dsimp only
  rw [State.updIt_it]
  rfl

/-- What an attack makes of the interpreter, as one record (45_arpeggio.md R195). -/
theorem Interp.attacked_eq (i : Interp) :
    i.attacked =
      { i with
          arpidx := if 1 ≤ i.arplen then 1 % i.arplen else 0
          arpc := if i.arpActive then i.arpspeed else i.arpc
          tflags := { i.tflags with hasArpeggio := i.arpActive } } :=
  Interp.rearm_eq _

/-- Settles O24: marking consumes every due event, the tie among them chooses the one presented, and only an attack that wins writes the arpeggio unit. -/
theorem tieResolution : Obligations.TieResolution := by
  intro s p m r a active flags
  refine ⟨?_, ?_, s.resolveDue_ctl, (Local.resolveDue s).onlyRunning⟩
  · rw [State.resolveDue_eq, State.updIt_out, State.carryOut_tieWinner_out, Interp.attackNote_eq, State.updIt_it]
    rfl
  · have hwins : s.it.markDue.winner = some .attack ↔ a = true ∧ r = false ∧ m = false := s.it.markDue_winner_eq_attack_iff
    rw [State.resolveDue_it]
    by_cases hattack : a = true ∧ r = false ∧ m = false
    · rw [if_pos hattack, if_pos (hwins.2 hattack), Interp.attacked_eq, Interp.arpActive_eq]
      rfl
    · rw [if_neg hattack, if_neg (mt hwins.1 hattack)]
      rfl

end Sys2Proof.Machine
end

section
/-! The step instructions (43_step.md): the wait that `Yield` loads into the step counter, and that a wait of 0 lets the program go on (R166 to R169). -/

namespace Sys2Proof.Machine

/-- A wait of 0 does not yield (R167). -/
theorem Interp.yield_zero (i : Interp) : i.yield 0 = i := if_pos rfl

theorem Interp.yield_of_ne_zero {n : Word} (h : n ≠ 0) (i : Interp) :
    i.yield n = { i with stepc := n, tflags := { i.tflags with hasStep := true } } := if_neg h

/-- Clearing a DUR that is 0 changes nothing. -/
theorem Interp.clearDur_of_zero {i : Interp} (h : i.dur = 0) : { i with dur := 0 } = i := by
  rw [← h]

theorem completes_step (s : State) (n : Word) : Completes (.step n) s ((s.it.advance 2).yield n) [] :=
  completes_after rfl rfl rfl

theorem completes_stepticks (s : State) :
    Completes .stepticks s ((Interp.advance 1 { s.it with dur := 0 }).yield s.it.dur) [] :=
  completes_after rfl rfl rfl

/-- Settles O15: both instructions yield with the cursor already past them, and whether the wait is 0 decides what the yield writes. -/
theorem yieldInstructions : Obligations.YieldInstructions := by
  intro s n p
  have hstep := completes_step s n
  have hstepticks := completes_stepticks s
  refine ⟨rfl, fun hn => ?_, fun hn => ?_, rfl, fun hdur => ?_, fun hdur => ?_⟩
  · rw [Interp.yield_of_ne_zero hn] at hstep
    exact hstep
  · subst hn
    rw [Interp.yield_zero] at hstep
    exact hstep
  · rw [Interp.yield_of_ne_zero hdur] at hstepticks
    exact hstepticks
  · rw [Interp.clearDur_of_zero hdur, hdur, Interp.yield_zero] at hstepticks
    exact hstepticks

end Sys2Proof.Machine
end

section
/-! The control-flow instructions (44_control_flow.md): CALL and RETURN case by case and as a pair around a balanced run (R176 to R179), the call past the
stack's depth (R177), and the done state, which only interpreter reset leaves (R184, 60_exceptions.md R274, 70_reset_and_hazards.md R302). -/

namespace Sys2Proof.Machine

/-! ## CALL and RETURN, case by case (R176 to R179) -/

/-- The machine after a CALL with room on the stack; `exec_call_of_room` ties it to `exec`. -/
def State.called (target : Word) (s : State) : State := (s.updIt fun i => i.push (i.pc + 2)).goto target

@[simp] theorem State.called_cfg (target : Word) (s : State) : (s.called target).cfg = s.cfg := rfl
@[simp] theorem State.called_ctl (target : Word) (s : State) : (s.called target).ctl = s.ctl := rfl
@[simp] theorem State.called_out (target : Word) (s : State) : (s.called target).out = s.out := rfl
@[simp] theorem State.called_it (target : Word) (s : State) :
    (s.called target).it = { s.it with stack := s.it.stack.set s.it.sp (s.it.pc + 2), sp := s.it.sp + 1, pc := target } := by
  rw [State.called, State.goto_it, State.updIt_it]; rfl
theorem State.called_sp (target : Word) (s : State) : (s.called target).it.sp = s.it.sp + 1 := by rw [State.called_it]

/-- The machine after a RETURN with an entry on the stack; `exec_ret_of_entry` ties it to `exec`. -/
def State.returned (s : State) : State := (s.updIt Interp.drop).goto s.it.top

@[simp] theorem State.returned_cfg (s : State) : s.returned.cfg = s.cfg := rfl
@[simp] theorem State.returned_ctl (s : State) : s.returned.ctl = s.ctl := rfl
@[simp] theorem State.returned_out (s : State) : s.returned.out = s.out := rfl

/-- The pop reads the entry below the stack count. -/
theorem State.returned_it {s : State} {n : Nat} {a : Word} (hsp : s.it.sp = n + 1) (ha : s.it.stack[n]? = some a) :
    s.returned.it = { s.it with sp := n, pc := a } := by
  have htop : s.it.top = a := by
    rw [Interp.top, hsp, Nat.add_sub_cancel, List.getD_eq_getElem?_getD, ha, Option.getD_some]
  rw [State.returned, State.goto_it, State.updIt_it, htop, Interp.drop, hsp, Nat.add_sub_cancel]

theorem exec_call_of_room {s : State} (h : s.it.sp < s.cfg.stackDepth) (target : Word) :
    exec (.call target) s = .next (s.called target) := if_pos h

theorem exec_call_of_full {s : State} (h : s.it.sp = s.cfg.stackDepth) (target : Word) :
    exec (.call target) s = .next (s.raise .stackOverflow) := if_neg h.not_lt

theorem exec_ret_of_empty {s : State} (h : s.it.sp = 0) : exec .ret s = .next s.markDone := if_pos h

theorem exec_ret_of_entry {s : State} (h : s.it.sp ≠ 0) : exec .ret s = .next s.returned := if_neg h

/-- Settles O16: the stack count decides which case of CALL or RETURN it is. -/
theorem callAndReturnInstructions : Obligations.CallAndReturnInstructions := by
  intro s target p
  refine ⟨rfl, fun hroom => ?_, rfl, fun hempty => ?_, fun n a hsp ha => ?_⟩
  · exact completes_of_exec (exec_call_of_room hroom target) (s.called_it target) (by simp) (by simp)
  · exact completes_of_exec (exec_ret_of_empty hempty) s.markDone_it (by simp) (by simp)
  · have hentry : s.it.sp ≠ 0 := ne_of_eq_of_ne hsp n.succ_ne_zero
    exact completes_of_exec (exec_ret_of_entry hentry) (State.returned_it hsp ha) (by simp) (by simp)

/-- Settles O17: a full stack leaves CALL the fault entry alone. -/
theorem callOverflowFaults : Obligations.CallOverflowFaults := by
  intro s t rest target hctl hfull
  have hit : s.it = s.interp t := State.it_of_invoke hctl
  refine ⟨_, exec_call_of_full (hit ▸ hfull) target, (Local.raise s _).leaves ?_ (by simp) (State.raise_ctl_of_invoke _ hctl)⟩
  rw [State.raise_it, hit]

/-- Settles O18: each of the three goes on without an event, and what it makes of the running interpreter is one field written. -/
theorem jumpGroupEndInstructions : Obligations.JumpGroupEndInstructions := fun _ _ =>
  ⟨⟨rfl, completes_after rfl rfl rfl⟩, ⟨rfl, completes_after rfl rfl rfl⟩, ⟨rfl, completes_after rfl rfl rfl⟩⟩

/-! ## Instructions one after the other -/

theorem execAll_cons {i : Instr} {s t : State} (h : exec i s = .next t) (is : List Instr) : execAll (i :: is) s = execAll is t := by
  simp only [execAll, h]

theorem execAll_append {is : List Instr} {s t : State} (h : execAll is s = .next t) (js : List Instr) :
    execAll (is ++ js) s = execAll js t := by
  induction is generalizing s with
  | nil => cases h; rfl
  | cons i is ih =>
    rw [List.cons_append]
    cases hexec : exec i s with
    | next u => rw [execAll_cons hexec] at h ⊢; exact ih h
    | fault f => simp [execAll, hexec] at h
    | refused r => simp [execAll, hexec] at h

/-! ## Calls that return (R176, R178) -/

/-- From `s` to `t` the program is back at the stack count it had, with the entries below it and the status as they were, and nothing was presented. -/
structure Balanced (s t : State) : Prop where
  ctl : t.ctl = s.ctl
  out : t.out = s.out
  status : t.it.status = s.it.status
  sp : t.it.sp = s.it.sp
  below : ∀ k < s.it.sp, t.it.stack[k]? = s.it.stack[k]?

theorem Balanced.refl (s : State) : Balanced s s := ⟨rfl, rfl, rfl, rfl, fun _ _ => rfl⟩

/-- A RETURN after a balanced run of what was called comes back, balanced, to the word after the CALL. -/
theorem Balanced.ret {s t : State} {target : Word} (h : Balanced (s.called target) t) (hentry : s.it.sp < s.it.stack.length) :
    ∃ u, exec .ret t = .next u ∧ Balanced s u ∧ u.it.pc = s.it.pc + 2 := by
  obtain ⟨hctl, hout, hstatus, hsp, hbelow⟩ := h
  rw [State.called_it] at hstatus hsp hbelow
  have htop : t.it.stack[s.it.sp]? = some (s.it.pc + 2) :=
    (hbelow _ (Nat.lt_succ_self _)).trans (List.getElem?_set_self hentry)
  have hreturned := State.returned_it hsp htop
  refine ⟨t.returned, exec_ret_of_entry (ne_of_eq_of_ne hsp (Nat.succ_ne_zero _)), ⟨hctl, hout, ?_, ?_, fun k hk => ?_⟩, ?_⟩
  · rw [hreturned]; exact hstatus
  · rw [hreturned]
  · rw [hreturned]
    exact (hbelow k (Nat.lt_succ_of_lt hk)).trans (List.getElem?_set_ne (Nat.ne_of_gt hk))
  · rw [hreturned]

/-- The returns are all alike, so that the last of them is the one that belongs to the first call. -/
theorem calls_returns_cons (target : Word) (targets : List Word) :
    (target :: targets).map Instr.call ++ (target :: targets).map (fun _ => Instr.ret)
      = .call target :: ((targets.map Instr.call ++ targets.map fun _ => Instr.ret) ++ [.ret]) := by
  have hreturns : (target :: targets).map (fun _ => Instr.ret) = (targets.map fun _ => Instr.ret) ++ [.ret] := by
    rw [List.map_const', List.map_const', List.length_cons, List.replicate_succ']
  rw [hreturns, List.map_cons, List.cons_append, List.append_assoc]

/-- Calls for which the stack has room, then as many returns: the run between the first call and the last return is balanced by induction. -/
theorem execAll_calls_returns {s : State} (targets : List Word) (hlength : s.it.stack.length = s.cfg.stackDepth)
    (hroom : s.it.sp + targets.length ≤ s.cfg.stackDepth) :
    ∃ t, execAll (targets.map Instr.call ++ targets.map fun _ => Instr.ret) s = .next t
      ∧ Balanced s t ∧ (targets ≠ [] → t.it.pc = s.it.pc + 2) := by
  induction targets generalizing s with
  | nil => exact ⟨s, rfl, .refl s, fun hne => absurd rfl hne⟩
  | cons target targets ih =>
    rw [List.length_cons] at hroom
    have hcall := exec_call_of_room (s := s) (by omega) target
    obtain ⟨t, hrun, hbalanced, -⟩ := ih (s := s.called target) (by simpa using hlength)
      (by rw [State.called_sp, State.called_cfg]; omega)
    obtain ⟨u, hret, hback, hpc⟩ := hbalanced.ret (by omega)
    refine ⟨u, ?_, hback, fun _ => hpc⟩
    calc execAll ((target :: targets).map Instr.call ++ (target :: targets).map fun _ => Instr.ret) s
      _ = execAll (.call target :: ((targets.map Instr.call ++ targets.map fun _ => Instr.ret) ++ [.ret])) s := by
        rw [calls_returns_cons]
      _ = execAll [.ret] t := by rw [execAll_cons hcall, execAll_append hrun]
      _ = .next u := execAll_cons hret []

/-- Settles O19: the whole run is balanced, and ends at the word after the first call. -/
theorem callReturnSymmetry : Obligations.CallReturnSymmetry := by
  intro s targets hne hlength hroom
  obtain ⟨t, hrun, ⟨hctl, hout, hstatus, hsp, hbelow⟩, hpc⟩ := execAll_calls_returns targets hlength hroom
  have hit : t.interp s.cur = t.it := by rw [State.it, State.cur, State.cur, hctl]
  refine ⟨t, hrun, ?_⟩
  rw [hit]
  exact ⟨hpc hne, hsp, hbelow, hstatus, hout, hctl⟩

/-! ## The call past the stack's depth (R177) -/

/-- Calls for which the stack has room raise the stack count by one each. -/
theorem execAll_calls {s : State} (targets : List Word) (hroom : s.it.sp + targets.length ≤ s.cfg.stackDepth) :
    ∃ u, execAll (targets.map Instr.call) s = .next u ∧ u.cfg = s.cfg ∧ u.ctl = s.ctl
      ∧ u.it.sp = s.it.sp + targets.length ∧ u.it.status = s.it.status := by
  induction targets generalizing s with
  | nil => exact ⟨s, rfl, rfl, rfl, rfl, rfl⟩
  | cons target targets ih =>
    rw [List.length_cons] at hroom ⊢
    have hcall := exec_call_of_room (s := s) (by omega) target
    obtain ⟨u, hrun, hcfg, hctl, hsp, hstatus⟩ := ih (s := s.called target)
      (by rw [State.called_sp, State.called_cfg]; omega)
    rw [State.called_sp] at hsp
    rw [State.called_it] at hstatus
    refine ⟨u, ?_, hcfg, hctl, by omega, hstatus⟩
    rw [List.map_cons, execAll_cons hcall, hrun]

/-- Settles O20: the calls leave the stack full, so that the next one is the fault entry. -/
theorem depthPlusOneFaults : Obligations.DepthPlusOneFaults := by
  intro s t rest targets target hctl hfills
  have hits : s.it = s.interp t := State.it_of_invoke hctl
  rw [← hits] at hfills ⊢
  obtain ⟨u, hrun, hcfg, hctlu, hsp, hstatus⟩ := execAll_calls targets hfills.le
  have hctlu' : u.ctl = .invoke t .run :: rest := hctlu.trans hctl
  have hitu : u.it = u.interp t := State.it_of_invoke hctlu'
  have hctlv := State.raise_ctl_of_invoke .stackOverflow hctlu'
  have hitv : (u.raise .stackOverflow).it = (u.raise .stackOverflow).interp t := State.it_of_invoke hctlv
  have hfull : u.it.sp = u.cfg.stackDepth := by rw [hsp, hfills, hcfg]
  refine ⟨u, u.raise .stackOverflow, hrun, ?_⟩
  rw [← hitv, ← hitu, State.raise_it]
  exact ⟨hsp.trans hfills, hstatus, hctlu, exec_call_of_full hfull target, hctlv, rfl, rfl, rfl, rfl, rfl⟩

/-! ## The done state (R184, 60_exceptions.md R274) -/

theorem Interp.attacked_status (i : Interp) : i.attacked.status = i.status := by rw [Interp.attacked_eq]

theorem Interp.resolved_status (i : Interp) : i.resolved.status = i.status := by
  have hdue : i.dueResolved.status = i.status := by
    unfold Interp.dueResolved
    split
    · exact i.markDue.attacked_status
    · rfl
  unfold Interp.resolved
  split
  · exact hdue
  · exact hdue

/-- Only Run's loop writes the status. -/
theorem Turns.status {cfg : Params} {i j : Interp} {p q : Phase} (h : Turns cfg i p j q) (hp : p ≠ .run) : j.status = i.status := by
  cases h with
  | terminal | enter | finish | again | wait => rfl
  | held | free => exact i.resolved_status
  | yielded | instr | ended | fault => exact absurd rfl hp

/-- A step of an invocation keeps the status of a done interpreter: Run's loop does not go on with one. -/
theorem step_of_invoke_keeps_status {s u : State} {t : Track} {p : Phase} {rest : List Frame} (hctl : s.ctl = .invoke t p :: rest)
    (h : step s = .next u) {v : Track} (hdone : (s.interp v).status.done = true) : (u.interp v).status = (s.interp v).status := by
  obtain ⟨r, -, rfl⟩ | ⟨i, q, hwrites, -, hturn⟩ := step_of_invoke hctl h
  · rfl
  by_cases hv : v = s.cur
  · subst hv
    by_cases hp : p = .run
    · subst hp
      rw [step_run_of_stopped hctl (.inl hdone)] at h
      cases h
      rw [State.setPhase_interp]
    · calc (u.interp s.cur).status
        _ = u.it.status := by rw [State.it, hwrites.cur]
        _ = i.status := by rw [hwrites.it]
        _ = (s.interp s.cur).status := hturn.status hp
  · rw [hwrites.interp_other hv]

/-- Settles O22: an invocation keeps the status of a done interpreter, and any other step keeps the interpreter or resets it. -/
theorem doneOnlyLeftByReset : Obligations.DoneOnlyLeftByReset := by
  intro s u t hstep hdone
  by_cases hctl : ∀ v p rest, s.ctl ≠ .invoke v p :: rest
  · obtain hkept | hreset | ⟨program, itab, wtab, -, hbound⟩ := (step_of_not_invoke hstep hctl).2 t
    · exact .inl (by rw [hkept])
    · exact .inr (by rw [hreset]; rfl)
    · exact .inr (by rw [hbound]; rfl)
  · push Not at hctl
    obtain ⟨v, p, rest, hctl⟩ := hctl
    exact .inl (step_of_invoke_keeps_status hctl hstep hdone)

end Sys2Proof.Machine
end

section
/-! The arpeggio unit (45_arpeggio.md): the ARPEGGIO instruction, which loads it (R191, R196), and its cycle (R193, R194). -/

namespace Sys2Proof.Machine

/-! ## Loading the arpeggio (R191, R196) -/

/-- What the buffer holds, entry by entry: entry `k` is offset `k`, and 0 past the offsets given (R196). -/
theorem take_append_zeros_eq_map_getD (offsets : List Word) (size : Nat) :
    offsets.take (min offsets.length size) ++ List.replicate (size - min offsets.length size) 0
      = (List.range size).map fun k => offsets.getD k 0 := by
  have hlength : (offsets.take (min offsets.length size)).length = min offsets.length size := by
    rw [List.length_take]; omega
  refine List.ext_getElem (by simp only [List.length_append, hlength, List.length_replicate, List.length_map, List.length_range]; omega)
    fun k _ hk => ?_
  rw [List.length_map, List.length_range] at hk
  rw [List.getElem_map, List.getElem_range]
  by_cases hgiven : k < offsets.length
  · rw [List.getElem_append_left (by omega), List.getElem_take, List.getD_eq_getElem _ _ hgiven]
  · rw [List.getElem_append_right (by omega), List.getElem_replicate, List.getD_eq_default _ _ (Nat.le_of_not_lt hgiven)]

/-- What ARPEGGIO loads, as one record. -/
theorem Interp.loadArp_eq (cfg : Params) (speed : Word) (offsets : List Word) (i : Interp) :
    i.loadArp cfg speed offsets =
      let active := decide (1 ≤ min offsets.length cfg.arpMax ∧ speed ≠ 0)
      { i with
          arp := (List.range cfg.arpMax).map fun k => offsets.getD k 0
          arplen := min offsets.length cfg.arpMax
          arpspeed := speed
          arpidx := 0
          arpc := if active then speed else i.arpc
          tflags := { i.tflags with hasArpeggio := active } } := by
  rw [Interp.loadArp, take_append_zeros_eq_map_getD, Interp.rearm_eq, Interp.arpActive_eq]

/-- Settles O13: the offsets past ARP_MAX are dropped from the buffer only; the cursor moves past all of them. -/
theorem arpeggioInstruction : Obligations.ArpeggioInstruction := by
  intro s speed offsets p active
  have hpc : p.pc + BitVec.ofNat 32 (3 + offsets.length) = p.pc + 3 + BitVec.ofNat 32 offsets.length := by
    rw [BitVec.ofNat_add, ← BitVec.add_assoc]; rfl
  have hafter := completes_after (instr := .arpeggio speed offsets) (s := s) rfl rfl rfl
  rw [Interp.after, Interp.loadArp_eq, Interp.advance] at hafter
  refine ⟨rfl, ?_⟩
  rw [← hpc]
  exact hafter

/-! ## The cycle (R193, R194) -/

theorem Interp.arpDue_iff (i : Interp) : i.arpDue = true ↔ i.tflags.hasArpeggio = true ∧ i.arpc = 0 := by
  rw [Interp.arpDue, Bool.and_eq_true, beq_iff_eq]

theorem State.arpCycleIfDue_of_due {s : State} (h : s.it.arpDue = true) :
    s.arpCycleIfDue = (s.updIt Interp.cycled).sink .arpnote s.it.cycleNote := if_pos h

theorem State.arpCycleIfDue_of_not_due {s : State} (h : ¬ s.it.arpDue = true) : s.arpCycleIfDue = s := if_neg h

/-- Settles O25: whether the cycle is due decides between one event with the next offset taken, and nothing; the gate is not read. -/
theorem arpeggioCycle : Obligations.ArpeggioCycle := by
  intro s p
  refine ⟨fun harmed hzero _ => ?_, fun hidle => State.arpCycleIfDue_of_not_due fun hdue => ?_⟩
  · have hdue : s.it.arpDue = true := s.it.arpDue_iff.2 ⟨harmed, hzero⟩
    refine ⟨?_, ?_, s.arpCycleIfDue_ctl, (Local.arpCycleIfDue s).onlyRunning⟩
    · rw [State.arpCycleIfDue_of_due hdue, State.sink_out, State.updIt_out, State.updIt_cur, Interp.cycleNote_eq]
    · rw [State.arpCycleIfDue_it, if_pos hdue]
      rfl
  · obtain ⟨harmed, hzero⟩ := s.it.arpDue_iff.1 hdue
    obtain hdisarmed | hrunning := hidle
    · exact Bool.false_ne_true (hdisarmed.symm.trans harmed)
    · exact hrunning hzero

end Sys2Proof.Machine
end

section
/-! FixedTime arithmetic (46_fixed_time.md R200 to R209): every operation on the two fields is the integer operation on the raw value, so the order, the
floor and the bound on a clock's drift are facts about integers and rationals. -/

namespace Sys2Proof.Machine

/-! ## The raw value (R200) -/

/-- The fields are the quotient and the remainder of the raw value. -/
theorem ftRaw_eq_iff {t : FixedTime} {n : Int} :
    ftRaw t = n ↔ t.int.toInt = n / 2 ^ 20 ∧ (t.frac.toNat : Int) = n % 2 ^ 20 := by
  constructor
  · rintro rfl
    exact ⟨(ftRaw_ediv t).symm, (ftRaw_emod t).symm⟩
  · rintro ⟨hwhole, hfrac⟩
    rw [ftRaw, hwhole, hfrac, Int.ediv_mul_add_emod]

theorem ftRaw_lower (t : FixedTime) : -(2 ^ 83) ≤ ftRaw t := by
  have hwhole := t.int.le_toInt
  unfold ftRaw
  omega

theorem ftRaw_upper (t : FixedTime) : ftRaw t < 2 ^ 83 := by
  have hwhole := t.int.toInt_lt
  have hfrac := t.frac.isLt
  unfold ftRaw
  omega

/-- The low 20 bits of a number, as the fraction holds them. -/
theorem toNat_ofInt_emod (n : Int) : ((BitVec.ofInt 20 (n % 2 ^ 20)).toNat : Int) = n % 2 ^ 20 := by
  rw [BitVec.toNat_ofInt]
  omega

/-- A normalized sum is the FixedTime with that raw value, where there is one (R201, R208). -/
theorem ftNorm_eq_some_iff {i f : Int} {t : FixedTime} : ftNorm i f = some t ↔ ftRaw t = i * 2 ^ 20 + f := by
  have hwhole : (i * 2 ^ 20 + f) / 2 ^ 20 = i + f / 2 ^ 20 := by omega
  have hfrac : (i * 2 ^ 20 + f) % 2 ^ 20 = f % 2 ^ 20 := by omega
  rw [ftRaw_eq_iff, hwhole, hfrac, ftNorm, Option.map_eq_some_iff]
  constructor
  · rintro ⟨n, hn, rfl⟩
    exact ⟨int64_eq_some.1 hn, toNat_ofInt_emod f⟩
  · rintro ⟨hi, hf⟩
    refine ⟨t.int, int64_eq_some.2 hi, ?_⟩
    rw [← hf, BitVec.ofInt_natCast, BitVec.ofNat_toNat, BitVec.setWidth_eq]

/-- Every integer of the range is a raw value: a number's 64-bit quotient exists there. -/
theorem exists_ftRaw_eq {n : Int} (hlower : -(2 ^ 83) ≤ n) (hupper : n < 2 ^ 83) : ∃ t, ftRaw t = n := by
  have hplace : -(2 ^ 63) ≤ 0 + n / 2 ^ 20 ∧ 0 + n / 2 ^ 20 < 2 ^ 63 := by omega
  have hnorm : ftNorm 0 n = some ⟨BitVec.ofInt 64 (0 + n / 2 ^ 20), BitVec.ofInt 20 (n % 2 ^ 20)⟩ := by
    rw [ftNorm, int64, if_pos hplace, Option.map_some]
  exact ⟨_, by simpa using ftNorm_eq_some_iff.1 hnorm⟩

/-- Settles O33: injectivity is uniqueness of quotient and remainder. -/
theorem rawIsBijection : Obligations.RawIsBijection := by
  refine ⟨fun t => ⟨ftRaw_lower t, ftRaw_upper t⟩, fun n hlower hupper => ?_, fun t => ?_⟩
  · obtain ⟨t, ht⟩ := exists_ftRaw_eq hlower hupper
    exact ⟨t, ht, fun u hu => ftRaw_injective (hu.trans ht.symm)⟩
  · rw [ftRaw]
    push_cast
    ring

/-! ## Exact sums and differences (R201 to R203, R208) -/

theorem ftAdd_eq_some_iff {a b c : FixedTime} : ftAdd a b = some c ↔ ftRaw c = ftRaw a + ftRaw b := by
  have hsum : (a.int.toInt + b.int.toInt) * 2 ^ 20 + (a.frac.toNat + b.frac.toNat) = ftRaw a + ftRaw b := by
    unfold ftRaw; ring
  rw [ftAdd, ftNorm_eq_some_iff, hsum]

theorem ftSub_eq_some_iff {a b c : FixedTime} : ftSub a b = some c ↔ ftRaw c = ftRaw a - ftRaw b := by
  have hdiff : (a.int.toInt - b.int.toInt) * 2 ^ 20 + ((a.frac.toNat : Int) - b.frac.toNat) = ftRaw a - ftRaw b := by
    unfold ftRaw; ring
  rw [ftSub, ftNorm_eq_some_iff, hdiff]

/-- Settles O34: a sum and a difference are normalizations, whose value needs no bound on the fields. -/
theorem fixedTimeExact : Obligations.FixedTimeExact :=
  ⟨fun _ _ _ => ftNorm_eq_some_iff, fun _ _ _ => ftAdd_eq_some_iff, fun _ _ _ => ftSub_eq_some_iff⟩

/-! ## The order (R204) -/

theorem ftLt_iff_lex {a b : FixedTime} :
    ftLt a b = true ↔ a.int.toInt < b.int.toInt ∨ (a.int = b.int ∧ a.frac.toNat < b.frac.toNat) := by
  rw [ftLt, Bool.or_eq_true, Bool.and_eq_true, decide_eq_true_eq, decide_eq_true_eq, beq_iff_eq]

theorem ftCmp_eq_compare_raw (a b : FixedTime) : ftCmp a b = compare (ftRaw a) (ftRaw b) := by
  rw [ftCmp]
  split
  next hlt => exact (compare_lt_iff_lt.2 (ftLt_iff_raw.1 hlt)).symm
  next hge =>
    split
    next hgt => exact (compare_gt_iff_gt.2 (ftLt_iff_raw.1 hgt)).symm
    next hle =>
      rw [ftLt_iff_raw, not_lt] at hge hle
      exact (compare_eq_iff_eq.2 (le_antisymm hle hge)).symm

theorem ftCmp_eq_iff {a b : FixedTime} : ftCmp a b = .eq ↔ a = b := by
  rw [ftCmp_eq_compare_raw, compare_eq_iff_eq]
  exact ⟨ftRaw_injective, congrArg ftRaw⟩

/-- The test of positivity reads the fields as the comparison with zero does. -/
theorem ftIsPositive_eq_ftLt_zero (a : FixedTime) : ftIsPositive a = ftLt ⟨0, 0⟩ a := by
  rw [ftIsPositive, ftLt, BEq.comm (a := a.int)]
  rfl

/-- Settles O35: the order is total as it is that of the integers. -/
theorem fixedTimeOrder : Obligations.FixedTimeOrder := fun a b =>
  ⟨ftLt_iff_lex, ftLt_iff_raw, ftCmp_eq_compare_raw a b, ftCmp_eq_iff, by rw [ftIsPositive_eq_ftLt_zero]⟩

/-! ## Samples, seconds and the floor (R205, R206) -/

theorem ftRaw_ftFromSamples (n : BitVec 64) : ftRaw (ftFromSamples n) = n.toInt * 2 ^ 20 :=
  add_zero _

theorem ftFloor_eq_floor (t : FixedTime) : ftFloor t = ⌊(ftRaw t : ℚ) / 2 ^ 20⌋ := by
  have hdiv : ⌊(ftRaw t : ℚ) / 2 ^ 20⌋ = ftRaw t / 2 ^ 20 := by
    exact_mod_cast Rat.floor_intCast_div_natCast (ftRaw t) (2 ^ 20)
  rw [hdiv, ftRaw_ediv, ftFloor]

theorem ftFromSeconds_eq_some_iff {num den rate : Nat} {t : FixedTime} (hden : 1 ≤ den) :
    ftFromSeconds num den rate = some t ↔ ftRaw t = ⌊((num * rate * 2 ^ 20 : Nat) : ℚ) / (den : ℚ)⌋ := by
  rw [ftFromSeconds, if_neg (Nat.ne_of_gt hden), ftNorm_eq_some_iff, Rat.floor_natCast_div_natCast, zero_mul, zero_add,
    Int.natCast_div]

/-- Settles O36: the floor over the rationals is the integer division that the raw value's fields come from. -/
theorem fixedTimeConversions : Obligations.FixedTimeConversions :=
  ⟨ftRaw_ftFromSamples, ftFloor_eq_floor, fun _ _ _ _ hden => ftFromSeconds_eq_some_iff hden⟩

/-! ## The drift bound (R209) -/

/-- Nothing is rounded after the conversion that made the period. -/
theorem ftRaw_nthBoundary {p : FixedTime} {k : Nat} {t : FixedTime} (h : nthBoundary p k = some t) : ftRaw t = k * ftRaw p := by
  induction k generalizing t with
  | zero =>
    obtain rfl := Option.some.inj h
    rw [Nat.cast_zero, zero_mul]
    rfl
  | succ k ih =>
    rw [nthBoundary, Option.bind_eq_some_iff] at h
    obtain ⟨u, hu, hadd⟩ := h
    rw [ftAdd_eq_some_iff.1 hadd, ih hu]
    push_cast
    ring

/-- A time exceeds its floor by its fraction, which is below one sample (R205). -/
theorem val_sub_ftFloor_mem (t : FixedTime) :
    0 ≤ (ftRaw t : ℚ) / 2 ^ 20 - ftFloor t ∧ (ftRaw t : ℚ) / 2 ^ 20 - ftFloor t < 1 := by
  rw [ftFloor_eq_floor, Int.self_sub_floor]
  exact ⟨Int.fract_nonneg _, Int.fract_lt_one _⟩

/-- The conversion from seconds errs by less than one unit of the raw value (R206). -/
theorem ftFromSeconds_error {num den rate : Nat} {p : FixedTime} (hden : 1 ≤ den) (h : ftFromSeconds num den rate = some p) :
    0 ≤ (num : ℚ) * rate / den - ftRaw p / 2 ^ 20 ∧ (num : ℚ) * rate / den - ftRaw p / 2 ^ 20 < 1 / 2 ^ 20 := by
  have hfloor := Int.floor_eq_iff.1 ((ftFromSeconds_eq_some_iff hden).1 h).symm
  have hscale : ((num * rate * 2 ^ 20 : Nat) : ℚ) / den = (num : ℚ) * rate / den * 2 ^ 20 := by
    push_cast
    ring
  rw [hscale] at hfloor
  obtain ⟨hlower, hupper⟩ := hfloor
  constructor <;> linarith

/-- An error of less than one unit of the raw value, made up to 2^20 times, stays below one sample. -/
theorem accumulated_error_lt_one {e : ℚ} {k : Nat} (hnonneg : 0 ≤ e) (hunit : e < 1 / 2 ^ 20) (hk : k ≤ 2 ^ 20) : k * e < 1 := by
  have hk' : (k : ℚ) ≤ 2 ^ 20 := by exact_mod_cast hk
  calc k * e ≤ 2 ^ 20 * e := mul_le_mul_of_nonneg_right hk' hnonneg
    _ < 1 := by linarith

/-- Settles O37: the boundary is exact (induction on its index), so the only errors are its own fraction and the period's rounding. -/
theorem driftBound : Obligations.DriftBound := by
  intro p t k h
  have hraw := ftRaw_nthBoundary h
  have hval : (k : ℚ) * (ftRaw p / 2 ^ 20) = ftRaw t / 2 ^ 20 := by
    rw [hraw]
    push_cast
    ring
  refine ⟨hraw, ?_, ?_, fun num den rate hden hp hk => ?_⟩
  · rw [hval]
    exact (val_sub_ftFloor_mem t).1
  · rw [hval]
    exact (val_sub_ftFloor_mem t).2
  · obtain ⟨hnonneg, hunit⟩ := ftFromSeconds_error hden hp
    rw [← mul_sub]
    exact ⟨mul_nonneg k.cast_nonneg hnonneg, accumulated_error_lt_one hnonneg hunit hk⟩

end Sys2Proof.Machine
end

section
/-! The clocks of the Context (47_clock_divider.md R221 to R225): the time to the nearest boundary is a minimum, and the scan of the clock list keeps the
earliest due clock of the part it has read. -/

namespace Sys2Proof.Machine

/-! ## The time to the nearest boundary (R221, R222) -/

theorem Clock.due_iff {c : Clock} {now : BitVec 64} : c.due now = true ↔ c.next.int.toInt ≤ now.toInt := decide_eq_true_iff

theorem Clock.timeToNext_eq_max (c : Clock) (now : BitVec 64) :
    (c.timeToNext now : Int) = max 0 (c.next.int.toInt - now.toInt) := by
  rw [Clock.timeToNext, Int.ofNat_toNat, max_comm]

/-- The fold over the auxiliary clocks is the minimum of a list that is not empty. -/
theorem Context.min?_timeToNext (x : Context) : (x.clockList.map (·.timeToNext x.now)).min? = some x.timeToNext := by
  rw [Context.clockList, List.map_cons, List.min?_cons', List.foldl_map, Context.timeToNext]

/-- Settles O38: the minimum of a list is one of its members and at most each. -/
theorem timeToNext : Obligations.TimeToNext := by
  refine ⟨fun c now => ⟨Clock.due_iff, c.timeToNext_eq_max now⟩, fun x => ?_⟩
  obtain ⟨hmem, hle⟩ := List.min?_eq_some_iff.1 x.min?_timeToNext
  obtain ⟨c, hc, heq⟩ := List.mem_map.1 hmem
  exact ⟨⟨c, hc, heq.symm⟩, fun d hd => hle _ (List.mem_map_of_mem hd)⟩

/-! ## Picking the due clock (R225) -/

/-- The clock at a place of a list is due, no due clock has an earlier boundary, and every due clock before it has a later one. -/
structure Earliest (now : BitVec 64) (l : List Clock) (i : Nat) (c : Clock) : Prop where
  place : l[i]? = some c
  due : c.due now = true
  least : ∀ j d, l[j]? = some d → d.due now = true → ftLt d.next c.next = false ∧ (j < i → ftLt c.next d.next = true)

/-- Ties go to the place that comes first, so there is one such place. -/
theorem Earliest.unique {now : BitVec 64} {l : List Clock} {i j : Nat} {c d : Clock} (hi : Earliest now l i c) (hj : Earliest now l j d) :
    i = j := by
  obtain ⟨hjle, hjlt⟩ := hi.least j d hj.place hj.due
  obtain ⟨hile, hilt⟩ := hj.least i c hi.place hi.due
  rcases lt_trichotomy i j with hlt | heq | hgt
  · rw [hilt hlt] at hjle; cases hjle
  · exact heq
  · rw [hjlt hgt] at hile; cases hile

/-- What the scan of the clock list holds after the clocks of `l`. -/
def BestOf (now : BitVec 64) (l : List Clock) : Option (Nat × FixedTime) → Prop
  | none => ∀ c ∈ l, c.due now = false
  | some (i, t) => ∃ c, Earliest now l i c ∧ c.next = t

theorem getElem?_concat_eq_some {l : List Clock} {c d : Clock} {j : Nat} (h : (l ++ [c])[j]? = some d) :
    l[j]? = some d ∨ (j = l.length ∧ d = c) := by
  rcases lt_trichotomy j l.length with hlt | rfl | hgt
  · rw [List.getElem?_append_left hlt] at h; exact .inl h
  · rw [List.getElem?_concat_length] at h; exact .inr ⟨rfl, (Option.some.inj h).symm⟩
  · rw [List.getElem?_eq_none (by rw [List.length_append, List.length_singleton]; omega)] at h; cases h

/-- The best so far stays the best where the next clock is not due, or not earlier. -/
theorem Earliest.concat {now : BitVec 64} {l : List Clock} {i : Nat} {b : Clock} (h : Earliest now l i b) {c : Clock}
    (hc : c.due now = true → ftLt c.next b.next = false) : Earliest now (l ++ [c]) i b := by
  have hi : i < l.length := (List.getElem?_eq_some_iff.1 h.place).1
  refine ⟨(List.getElem?_append_left hi).trans h.place, h.due, fun j d hj hd => ?_⟩
  obtain hold | ⟨rfl, rfl⟩ := getElem?_concat_eq_some hj
  · exact h.least j d hold hd
  · exact ⟨hc hd, fun hlt => absurd (hlt.trans hi) (lt_irrefl _)⟩

/-- A due clock that is earlier than every due one before it becomes the best. -/
theorem Earliest.last {now : BitVec 64} {l : List Clock} {c : Clock} (hdue : c.due now = true)
    (hc : ∀ d ∈ l, d.due now = true → ftLt c.next d.next = true) : Earliest now (l ++ [c]) l.length c := by
  refine ⟨List.getElem?_concat_length, hdue, fun j d hj hd => ?_⟩
  obtain hold | ⟨rfl, rfl⟩ := getElem?_concat_eq_some hj
  · have hlt := hc d (List.mem_of_getElem? hold) hd
    exact ⟨ftLt_eq_false_iff_raw.2 (ftLt_iff_raw.1 hlt).le, fun _ => hlt⟩
  · exact ⟨ftLt_eq_false_iff_raw.2 le_rfl, fun hlt => absurd hlt (lt_irrefl _)⟩

theorem pickFrom_cons_none (now : BitVec 64) (c : Clock) (cs : List Clock) (i : Nat) :
    pickFrom now (c :: cs) i none = pickFrom now cs (i + 1) (if c.due now then some (i, c.next) else none) := by
  simp only [pickFrom, Bool.and_true]

theorem pickFrom_cons_some (now : BitVec 64) (c : Clock) (cs : List Clock) (i j : Nat) (t : FixedTime) :
    pickFrom now (c :: cs) i (some (j, t)) =
      pickFrom now cs (i + 1) (if c.due now && ftLt c.next t then some (i, c.next) else some (j, t)) := rfl

/-- The scan takes the best of the clocks read so far to the best of all. -/
theorem pickFrom_bestOf {now : BitVec 64} (cs : List Clock) {l : List Clock} {best : Option (Nat × FixedTime)} (h : BestOf now l best) :
    BestOf now (l ++ cs) (pickFrom now cs l.length best) := by
  induction cs generalizing l best with
  | nil => rwa [List.append_nil]
  | cons c cs ih =>
    rw [← List.singleton_append, ← List.append_assoc, List.singleton_append]
    have hlen : l.length + 1 = (l ++ [c]).length := (List.length_append (as := l) (bs := [c])).symm
    match best with
    | none =>
      rw [pickFrom_cons_none, hlen]
      refine ih ?_
      split
      · next hdue => exact ⟨c, .last hdue fun d hd hdue' => absurd hdue' (by rw [h d hd]; nofun), rfl⟩
      · next hdue => exact List.forall_mem_append.2 ⟨h, List.forall_mem_singleton.2 (Bool.not_eq_true _ ▸ hdue)⟩
    | some (j, t) =>
      obtain ⟨b, hb, rfl⟩ := h
      rw [pickFrom_cons_some, hlen]
      refine ih ?_
      split
      · next hearlier =>
        obtain ⟨hdue, hlt⟩ := Bool.and_eq_true_iff.1 hearlier
        refine ⟨c, .last hdue fun d hd hd' => ?_, rfl⟩
        obtain ⟨n, hn⟩ := List.mem_iff_getElem?.1 hd
        have hle := (hb.least n d hn hd').1
        exact ftLt_iff_raw.2 ((ftLt_iff_raw.1 hlt).trans_le (ftLt_eq_false_iff_raw.1 hle))
      · next hearlier =>
        exact ⟨b, hb.concat fun hdue => by simpa [hdue] using hearlier, rfl⟩

/-- Nothing is picked only where nothing is due; what is picked is the earliest. -/
theorem Context.pickDue_cases (x : Context) :
    (x.pickDue = none ∧ ∀ c ∈ x.clockList, c.due x.now = false) ∨ ∃ i c, x.pickDue = some i ∧ Earliest x.now x.clockList i c := by
  have hbest : BestOf x.now x.clockList (pickFrom x.now x.clockList 0 none) := pickFrom_bestOf x.clockList (l := []) nofun
  unfold Context.pickDue
  match hpick : pickFrom x.now x.clockList 0 none with
  | none => rw [hpick] at hbest; exact .inl ⟨rfl, hbest⟩
  | some (i, t) =>
    rw [hpick] at hbest
    obtain ⟨c, hc, -⟩ := hbest
    exact .inr ⟨i, c, rfl, hc⟩

theorem Context.pickDue_eq_none_iff {x : Context} : x.pickDue = none ↔ ∀ c ∈ x.clockList, c.due x.now = false := by
  obtain ⟨hnone, hdue⟩ | ⟨i, c, hsome, hc⟩ := x.pickDue_cases
  · exact iff_of_true hnone hdue
  · refine iff_of_false (by rw [hsome]; nofun) fun hnot => ?_
    have hfalse := hnot c (List.mem_of_getElem? hc.place)
    rw [hc.due] at hfalse
    cases hfalse

theorem Context.pickDue_eq_some_iff {x : Context} {i : Nat} : x.pickDue = some i ↔ ∃ c, Earliest x.now x.clockList i c := by
  obtain ⟨hnone, hdue⟩ | ⟨j, d, hsome, hd⟩ := x.pickDue_cases
  · refine iff_of_false (by rw [hnone]; nofun) fun ⟨c, hc⟩ => ?_
    have hfalse := hdue c (List.mem_of_getElem? hc.place)
    rw [hc.due] at hfalse
    cases hfalse
  · rw [hsome]
    constructor
    · intro heq; cases heq; exact ⟨d, hd⟩
    · rintro ⟨c, hc⟩; rw [hd.unique hc]

/-- Settles O39: the scan keeps the earliest of the clocks read so far, and there is only one earliest. -/
theorem pickDue : Obligations.PickDue := fun _ =>
  ⟨Context.pickDue_eq_none_iff, fun _ => Context.pickDue_eq_some_iff.trans
    (exists_congr fun _ => ⟨fun ⟨hplace, hdue, hleast⟩ => ⟨hplace, hdue, hleast⟩, fun ⟨hplace, hdue, hleast⟩ => ⟨hplace, hdue, hleast⟩⟩)⟩

end Sys2Proof.Machine
end

section
/-! The sequencer (47_clock_divider.md R224 to R252): the stages of an iteration, the boundaries, the passes over the groups, the firings and the track port. -/

namespace Sys2Proof.Machine

/-! ## The step for each activation of the sequencer -/

theorem step_of_ctl_core {s : State} {n p : Nat} {stage : Stage} {rest : List Frame} (h : s.ctl = .core n p stage :: rest) :
    step s = s.coreStep n p stage rest := by
  unfold step; rw [h]

theorem step_of_ctl_groups {s : State} {gs : List GroupNo} {k : BitVec 64} {rest : List Frame} (h : s.ctl = .groups gs k :: rest) :
    step s = .next (s.groupsStep gs k rest) := by
  unfold step; rw [h]

theorem step_of_ctl_pass {s : State} {g : GroupNo} {ids : List DividerId} {k : BitVec 64} {rest : List Frame}
    (h : s.ctl = .pass g ids k :: rest) : step s = .next (s.passStep g ids k rest) := by
  unfold step; rw [h]

/-! ## The environment's posts (R238) -/

theorem State.openToPosts_of_nil {s : State} (h : s.env.posts = []) : s.openToPosts = s := by
  unfold State.openToPosts; rw [h]

theorem State.openToPosts_of_cons {s : State} {cmds : List Command} {later : List (List Command)} (h : s.env.posts = cmds :: later) :
    s.openToPosts = { s with env := { s.env with posts := later }, ctl := .post cmds :: s.ctl } := by
  unfold State.openToPosts; rw [h]

/-! ## Processing a boundary (R224) -/

/-- Changing the clock of a place changes that place of the clock list. -/
theorem Context.clockList_updClock (x : Context) (i : Nat) (f : Clock → Clock) : (x.updClock i f).clockList = x.clockList.modify i f := by
  cases i <;> rfl

theorem Context.updClock_rest (x : Context) (i : Nat) (f : Clock → Clock) :
    { x.updClock i f with master := x.master, clocks := x.clocks } = x := by
  cases i <;> rfl

theorem State.coreDue_of_pick {s : State} {n p i : Nat} {rest : List Frame} (h : s.ctx.pickDue = some i) :
    s.coreDue n p rest = s.boundary i := by
  unfold State.coreDue; rw [h]

theorem State.coreDue_of_none {s : State} {n p : Nat} {rest : List Frame} (h : s.ctx.pickDue = none) :
    s.coreDue n p rest = .next (if p = n then { s with ctl := rest } else { s with ctl := .core n p .head :: rest }) := by
  unfold State.coreDue; rw [h]

section
variable {s : State} {i : Nat} {c : Clock}

theorem State.boundary_of_fit (hc : s.ctx.clockList[i]? = some c) (hcount : c.tickCount.toNat + 1 < 2 ^ 64) {b : FixedTime}
    (hb : ftAdd c.next c.period = some b) :
    s.boundary i = .next ((s.updCtx fun x => x.updClock i fun c => { c with tickCount := c.tickCount + 1, next := b }).push
      (.groups (c.groups.map (·.num)) c.tickCount)) := by
  unfold State.boundary
  simp only [hc, if_pos hcount, hb]

theorem State.boundary_of_count_overflow (hc : s.ctx.clockList[i]? = some c) (hcount : c.tickCount.toNat + 1 = 2 ^ 64) :
    s.boundary i = .fault .timeOverflow := by
  unfold State.boundary
  simp only [hc, if_neg (not_lt.2 hcount.ge)]

theorem State.boundary_of_time_overflow (hc : s.ctx.clockList[i]? = some c) (hb : ftAdd c.next c.period = none) :
    s.boundary i = .fault .timeOverflow := by
  unfold State.boundary
  simp only [hc, hb, ite_self]

end

/-- Settles O40: the step at a due clock is `boundary` of its place, which changes that place of the clock list only. -/
theorem boundaryStep : Obligations.BoundaryStep := by
  intro s n p i rest c hctl hpick hc
  have hstep : step s = s.boundary i := (step_of_ctl_core hctl).trans (State.coreDue_of_pick hpick)
  refine ⟨fun b hcount hb => ?_, fun hcount => ?_, fun hb => ?_⟩
  · have hlist := s.ctx.clockList_updClock i fun c => { c with tickCount := c.tickCount + 1, next := b }
    refine ⟨_, hstep.trans (State.boundary_of_fit hc hcount hb), rfl, ?_, fun j hj => ?_, s.ctx.updClock_rest i _, rfl, rfl, rfl, rfl⟩
    · refine (congrArg (·[i]?) hlist).trans ?_
      rw [List.getElem?_modify_eq, show s.ctx.clockList[i]? = some c from hc]
      rfl
    · exact (congrArg (·[j]?) hlist).trans (List.getElem?_modify_ne _ _ hj.symm)
  · exact hstep.trans (State.boundary_of_count_overflow hc hcount)
  · exact hstep.trans (State.boundary_of_time_overflow hc hb)

/-! ## An iteration of GenerateCore (R250 to R252) -/

section
variable {s : State} {n p : Nat} {rest : List Frame}

theorem State.coreHead_of_zero (h : s.ctx.stepLength n p = 0) :
    s.coreHead n p rest = { s with ctl := .core n p (.advance (s.ctx.stepLength n p)) :: rest } := if_pos h

theorem State.coreHead_of_ne_zero (h : s.ctx.stepLength n p ≠ 0) :
    s.coreHead n p rest =
      (({ s with ctl := .core n p (.advance (s.ctx.stepLength n p)) :: rest } : State).emit
        (.render s.ctx.now (s.ctx.stepLength n p))).openToPosts := if_neg h

/-- The advance exists where the new time fits its 64 bits (R321). -/
theorem State.coreAdvance_of_fit {d : Nat} (h : s.ctx.now.toInt + d < 2 ^ 63) :
    ∃ now', now'.toInt = s.ctx.now.toInt + d
      ∧ s.coreAdvance n p d rest = .next { s with ctl := .core n (p + d) .due :: rest, ctx := { s.ctx with now := now' } } := by
  have hlower := s.ctx.now.le_toInt
  have hsome : int64 (s.ctx.now.toInt + d) = some (BitVec.ofInt 64 (s.ctx.now.toInt + d)) := if_pos ⟨by omega, h⟩
  refine ⟨_, int64_eq_some.1 hsome, ?_⟩
  unfold State.coreAdvance
  rw [hsome]

theorem State.coreAdvance_of_overflow {d : Nat} (h : 2 ^ 63 ≤ s.ctx.now.toInt + d) :
    s.coreAdvance n p d rest = .fault .timeOverflow := by
  have hnone : int64 (s.ctx.now.toInt + d) = none := if_neg fun hfit => absurd hfit.2 (not_lt.2 h)
  unfold State.coreAdvance
  rw [hnone]

end

/-- Settles O41: the head and the advance, each by whether its length is 0 or its sum fits. -/
theorem iterationAdvances : Obligations.IterationAdvances := by
  intro s n p rest
  refine ⟨fun hctl => ⟨fun hzero => ?_, fun hlen hposts => ?_, fun cmds later hlen hposts => ?_⟩, fun d hctl => ⟨fun hfit => ?_, fun hover => ?_⟩⟩
  · exact (step_of_ctl_core hctl).trans (congrArg _ (State.coreHead_of_zero hzero))
  · refine (step_of_ctl_core hctl).trans (congrArg _ ((State.coreHead_of_ne_zero hlen).trans ?_))
    exact State.openToPosts_of_nil hposts
  · refine (step_of_ctl_core hctl).trans (congrArg _ ((State.coreHead_of_ne_zero hlen).trans ?_))
    exact State.openToPosts_of_cons hposts
  · obtain ⟨now', hnow, hstep⟩ := State.coreAdvance_of_fit (n := n) (p := p) (rest := rest) hfit
    exact ⟨now', hnow, (step_of_ctl_core hctl).trans hstep⟩
  · exact (step_of_ctl_core hctl).trans (State.coreAdvance_of_overflow hover)

/-! ## The return from GenerateCore (R250) -/

/-- At each stage GenerateCore goes on with some activation above those below it, or it returns. -/
theorem State.coreStep_cases {s u : State} {n p : Nat} {stage : Stage} {rest : List Frame} (hctl : s.ctl = .core n p stage :: rest)
    (h : s.coreStep n p stage rest = .next u) :
    (∃ fs f, u.ctl = fs ++ f :: rest) ∨ (stage = .due ∧ s.ctx.pickDue = none ∧ p = n ∧ u = { s with ctl := rest }) := by
  cases stage with
  | head =>
    left
    obtain rfl : s.coreHead n p rest = u := Host.Outcome.next.inj h
    by_cases hlen : s.ctx.stepLength n p = 0
    · rw [State.coreHead_of_zero hlen]; exact ⟨[], _, rfl⟩
    · rw [State.coreHead_of_ne_zero hlen]
      obtain ⟨-, heq⟩ | ⟨cmds, more, -, heq⟩ := State.openToPosts_cases
        (({ s with ctl := .core n p (.advance (s.ctx.stepLength n p)) :: rest } : State).emit (.render s.ctx.now (s.ctx.stepLength n p)))
      · rw [heq]; exact ⟨[], _, rfl⟩
      · rw [heq]; exact ⟨[_], _, rfl⟩
  | advance d =>
    left
    replace h : s.coreAdvance n p d rest = .next u := h
    unfold State.coreAdvance at h
    split at h <;> cases h
    exact ⟨[], _, rfl⟩
  | due =>
    replace h : s.coreDue n p rest = .next u := h
    match hpick : s.ctx.pickDue with
    | none =>
      obtain rfl := Host.Outcome.next.inj ((State.coreDue_of_none hpick).symm.trans h)
      split
      · next hall => exact .inr ⟨rfl, rfl, hall, rfl⟩
      · exact .inl ⟨[], _, rfl⟩
    | some i =>
      left
      replace h : s.boundary i = .next u := (State.coreDue_of_pick hpick).symm.trans h
      unfold State.boundary at h
      split at h
      · cases h; exact ⟨[], _, hctl⟩
      · split at h
        · split at h <;> cases h
          exact ⟨[_], _, congrArg (_ :: ·) hctl⟩
        · cases h

theorem append_cons_ne_self (fs : List Frame) (f : Frame) (rest : List Frame) : fs ++ f :: rest ≠ rest := fun h => by
  have hlen := congrArg List.length h
  rw [List.length_append, List.length_cons] at hlen
  omega

/-- Settles O42: of the ways a step of GenerateCore comes out only the return leaves the activations below alone. -/
theorem coreReturns : Obligations.CoreReturns := by
  intro s n p stage rest hctl
  refine ⟨fun u hstep hrest => ?_, ?_, ?_⟩
  · rw [step_of_ctl_core hctl] at hstep
    obtain ⟨fs, f, hgoes⟩ | ⟨hstage, hpick, hall, hu⟩ := State.coreStep_cases hctl hstep
    · exact absurd (hgoes.symm.trans hrest) (append_cons_ne_self fs f rest)
    · exact ⟨hstage, hall, Context.pickDue_eq_none_iff.1 hpick, hu⟩
  · rintro rfl hdue hall
    refine (step_of_ctl_core hctl).trans ((State.coreDue_of_none (Context.pickDue_eq_none_iff.2 hdue)).trans ?_)
    rw [if_pos hall]
  · rintro rfl hdue hleft
    refine (step_of_ctl_core hctl).trans ((State.coreDue_of_none (Context.pickDue_eq_none_iff.2 hdue)).trans ?_)
    rw [if_neg hleft]

/-! ## The groups of a boundary (R224, R232, R234) -/

theorem State.beginPass_of_group {s : State} {g : GroupNo} {grp : Group} (h : s.ctx.group? g = some grp) (k : BitVec 64) :
    s.beginPass g k = (s.updCtx fun c => c.withGroup g fun x => { x with inPass := true }).push (.pass g (grp.list.map (·.id)) k) := by
  unfold State.beginPass
  rw [h]
  rfl

/-- Settles O44: the step is `groupsStep`, which opens the pass over the first group or ends the boundary. -/
theorem groupsInOrder : Obligations.GroupsInOrder := by
  intro s g more k rest grp
  refine ⟨fun hctl => step_of_ctl_groups hctl, fun hctl hgroup => ?_⟩
  exact (step_of_ctl_groups hctl).trans (congrArg _ (State.beginPass_of_group (s := { s with ctl := .groups more k :: rest }) hgroup k))

/-! ## The track port (R237, R239) -/

/-- The count after a tick is 0 where it was 0 or 1 before it. -/
theorem countdown_eq_zero_iff (w : Word) : (if w = 0 then 0 else w - 1) = 0 ↔ w.toNat ≤ 1 := by
  split
  · next hzero => rw [hzero]; decide
  · bv_omega

theorem State.trackTick_of_done {s : State} {t : Track} {p : Port} (hport : s.ctx.port? t = some p)
    (hdone : (s.interp t).status.done = true) : s.trackTick t = s := by
  unfold State.trackTick
  simp only [hport, hdone, if_true]

/-- A tick of a track that has not ended: the wait is counted down, and the interpreter invoked where it then is 0. -/
theorem State.trackTick_of_live {s : State} {t : Track} {p : Port} (hport : s.ctx.port? t = some p)
    (hlive : (s.interp t).status.done = false) :
    let counted := s.updCtx fun c => c.updPort t fun q => { q with waitc := if p.waitc = 0 then 0 else p.waitc - 1 }
    s.trackTick t = if p.waitc.toNat ≤ 1 then counted.push (.invoke t .enter) else counted := by
  unfold State.trackTick
  simp only [hport, hlive, countdown_eq_zero_iff, Bool.false_eq_true, if_false]

/-- Settles O29: the tick counts down in the track's port, and at 0 an invocation is started. -/
theorem trackTick : Obligations.TrackTick := by
  intro s t p hport
  refine ⟨State.trackTick_of_done hport, fun hlive => ?_⟩
  have hwait : ∀ q : Port, ({ q with waitc := if p.waitc = 0 then 0 else p.waitc - 1 } : Port).track = q.track := fun _ => rfl
  have hctx : (s.trackTick t).ctx = s.ctx.updPort t fun q => { q with waitc := if p.waitc = 0 then 0 else p.waitc - 1 } := by
    rw [State.trackTick_of_live hport hlive]; split <;> rfl
  refine ⟨?_, fun hle => ?_, fun hgt => ?_, fun v hv => ?_, ?_, State.trackTick_interps t s, State.trackTick_out t s, ?_,
    State.trackTick_cfg t s⟩
  · rw [hctx, Context.port?_updPort_same t _ hwait, hport]; rfl
  · rw [State.trackTick_of_live hport hlive, if_pos hle]; rfl
  · rw [State.trackTick_of_live hport hlive, if_neg (not_le.2 hgt)]; rfl
  · rw [hctx, Context.port?_updPort_other hv _ hwait]
  · rw [hctx]; rfl
  · rw [State.trackTick_of_live hport hlive]; split <;> rfl

@[simp] theorem Port.take_track (r : InvResult) (p : Port) : (p.take r).track = p.track := by cases r <;> rfl

/-- Settles O30: the return writes the port of the invocation's track only. -/
theorem portTakesResult : Obligations.PortTakesResult := by
  intro s t r rest p hctl hport
  refine ⟨s.returnStep t r rest, step_of_ctl_invoke hctl, rfl, rfl, rfl, rfl, rfl, rfl, fun v hv => ?_, ?_⟩
  · exact Context.port?_updPort_other hv s.ctx (Port.take_track r)
  · refine (Context.port?_updPort_same t s.ctx (Port.take_track r)).trans ?_
    rw [hport]
    cases r <;> rfl

/-! ## A pass over a group (R230 to R236) -/

theorem Divider.due_iff {d : Divider} {k : BitVec 64} : d.due k = true ↔ d.divisor.toNat ∣ k.toNat := by
  rw [Divider.due, beq_iff_eq, Nat.dvd_iff_mod_eq_zero]

theorem Context.member?_eq_some_iff {c : Context} {g : GroupNo} {id : DividerId} {d : Divider} :
    c.member? g id = some d ↔ ∃ grp, c.group? g = some grp ∧ grp.divider? id = some d := Option.bind_eq_some_iff

section
variable {s : State} {g : GroupNo} {id : DividerId} {k : BitVec 64}

theorem State.visit_of_due {d : Divider} (hd : s.ctx.member? g id = some d) (hclk : s.ctx.flags.clkrst = false)
    (hdue : d.divisor.toNat ∣ k.toNat) : s.visit g id k = s.fire d k := by
  unfold State.visit
  simp only [hd, hclk, Divider.due_iff.2 hdue, Bool.not_false, Bool.and_self, if_true]

/-- A divider that is gone, not due, or held by CLKRST is passed over. -/
theorem State.visit_of_not_due
    (h : s.ctx.flags.clkrst = true ∨ ∀ d, s.ctx.member? g id = some d → ¬d.divisor.toNat ∣ k.toNat) : s.visit g id k = s := by
  unfold State.visit
  split
  · rfl
  · next d hd =>
    refine if_neg fun hfires => ?_
    obtain ⟨hclk, hdue⟩ := Bool.and_eq_true_iff.1 hfires
    rw [Bool.not_eq_true'] at hclk
    obtain hreset | hnot := h
    · rw [hreset] at hclk; cases hclk
    · exact hnot d hd (Divider.due_iff.1 hdue)

theorem State.fire_track {d : Divider} {t : Track} (h : d.target = .track t) : s.fire d k = s.openToPosts.trackTick t := by
  unfold State.fire; rw [h]

theorem State.fire_ext {d : Divider} {tag : Word} (h : d.target = .ext tag) : s.fire d k = (s.emit (.extFire tag k)).openToPosts := by
  unfold State.fire; rw [h]

end

/-- The event of an external divider at a tick index, where it is due (R235). -/
def Divider.event? (k : BitVec 64) (d : Divider) : Option Event :=
  match d.target with
  | .ext tag => if d.divisor.toNat ∣ k.toNat then some (.extFire tag k) else none
  | .track _ => none

/-- A visit of an external divider, where nothing is posted, presents its event. -/
theorem State.visit_external {s : State} {g : GroupNo} {d : Divider} {k : BitVec 64} (hd : s.ctx.member? g d.id = some d)
    (hext : d.external = true) (hclk : s.ctx.flags.clkrst = false) (hposts : s.env.posts = []) :
    s.visit g d.id k = { s with out := s.out ++ (d.event? k).toList } := by
  obtain ⟨tag, htag⟩ := Divider.external_iff.1 hext
  by_cases hdue : d.divisor.toNat ∣ k.toNat
  · have hevent : d.event? k = some (.extFire tag k) := by unfold Divider.event?; rw [htag]; exact if_pos hdue
    rw [State.visit_of_due hd hclk hdue, State.fire_ext htag, hevent]
    exact State.openToPosts_of_nil hposts
  · have hevent : d.event? k = none := by unfold Divider.event?; rw [htag]; exact if_neg hdue
    rw [hevent, Option.toList_none, List.append_nil]
    refine State.visit_of_not_due (.inr fun e he => ?_)
    rwa [Option.some.inj (he.symm.trans hd)]

/-- The visits of a list of external dividers present their events in order and change nothing else. -/
theorem stepN_visits {g : GroupNo} {k : BitVec 64} {rest : List Frame} (ds : List Divider) (m : Nat) {s : State} {more : List DividerId}
    (hctl : s.ctl = .pass g (ds.map (·.id) ++ more) k :: rest) (hds : ∀ d ∈ ds, s.ctx.member? g d.id = some d ∧ d.external = true)
    (hclk : s.ctx.flags.clkrst = false) (hposts : s.env.posts = []) :
    stepN (ds.length + m) s =
      stepN m { s with ctl := .pass g more k :: rest, out := s.out ++ ds.filterMap (Divider.event? k) } := by
  induction ds generalizing s with
  | nil =>
    have hsame : { s with ctl := .pass g more k :: rest, out := s.out ++ [] } = s := by
      rw [List.append_nil]
      exact congrArg (fun c => { s with ctl := c }) hctl.symm
    rw [List.filterMap_nil, hsame, List.length_nil, Nat.zero_add]
  | cons d ds ih =>
    obtain ⟨⟨hd, hext⟩, hrest⟩ := List.forall_mem_cons.1 hds
    have hstep : step s = .next { s with ctl := .pass g (ds.map (·.id) ++ more) k :: rest, out := s.out ++ (d.event? k).toList } :=
      (step_of_ctl_pass hctl).trans (congrArg _
        (State.visit_external (s := { s with ctl := .pass g (ds.map (·.id) ++ more) k :: rest }) hd hext hclk hposts))
    rw [List.length_cons, Nat.succ_add, stepN, hstep]
    refine (ih (s := { s with ctl := .pass g (ds.map (·.id) ++ more) k :: rest, out := s.out ++ (d.event? k).toList })
      rfl hrest hclk hposts).trans ?_
    rw [List.append_assoc, List.filterMap_cons]
    cases d.event? k <;> rfl

/-- A group with distinct identifiers finds each of its dividers under its own. -/
theorem Group.divider?_of_mem {grp : Group} (hids : (grp.list.map (·.id)).Nodup) {d : Divider} (hd : d ∈ grp.list) :
    grp.divider? d.id = some d := by
  unfold Group.divider?
  obtain ⟨e, he⟩ : ∃ e, grp.list.find? (fun x => x.id == d.id) = some e :=
    Option.isSome_iff_exists.1 (List.find?_isSome.2 ⟨d, hd, beq_self_eq_true _⟩)
  have hid : e.id = d.id := by simpa using List.find?_some he
  rw [he, List.inj_on_of_nodup_map hids (List.mem_of_find?_eq_some he) hd hid]

/-- The end of a pass: the mark is cleared, the queue is applied in order and then empty (R232, R233). -/
theorem State.endPass_of_group {s : State} {g : GroupNo} {grp : Group} (h : s.ctx.group? g = some grp) :
    s.endPass g = (grp.queue.foldl (State.applyDeferred g) (s.updCtx fun c => c.updGroup g fun x => { x with inPass := false })).updCtx
      fun c => c.updGroup g fun x => { x with queue := [] } := by
  have hfound : (s.ctx.updGroup g fun x => { x with inPass := false }).group? g = some { grp with inPass := false } := by
    rw [Context.group?_updGroup_same s.ctx g (f := fun x => { x with inPass := false }) fun _ => rfl, h]; rfl
  unfold State.endPass State.drainQueue
  rw [State.updCtx_ctx, hfound]

theorem State.endPass_of_empty_queue {s : State} {g : GroupNo} {grp : Group} (h : s.ctx.group? g = some grp) (hqueue : grp.queue = []) :
    s.endPass g = s.updCtx fun c => c.withGroup g fun x => { x with inPass := false, queue := [] } := by
  rw [State.endPass_of_group h, hqueue]
  exact congrArg (fun x => { s with ctx := x }) (Context.updGroup_updGroup s.ctx g (k := fun x => { x with inPass := false }) fun _ => rfl)

/-- Settles O43: a step of a pass is `visit`; the whole pass is the visits of its snapshot (induction on it), then the end of a pass with an empty queue. -/
theorem passFiresInOrder : Obligations.PassFiresInOrder := by
  refine ⟨fun s g id more k rest hctl => ?_, fun s g grp k rest hctl hgroup hids hext hqueue hclk hposts => ?_⟩
  · have hstep := step_of_ctl_pass hctl
    refine ⟨fun d hvisited hclk hdue => ?_, fun hnot => ?_⟩
    · have hfire : step s = .next (({ s with ctl := .pass g more k :: rest } : State).fire d k) :=
        hstep.trans (congrArg _ (State.visit_of_due (Context.member?_eq_some_iff.2 hvisited) hclk hdue))
      exact ⟨fun t ht => hfire.trans (congrArg _ (State.fire_track ht)), fun tag htag => hfire.trans (congrArg _ (State.fire_ext htag))⟩
    · refine hstep.trans (congrArg _ (State.visit_of_not_due ?_))
      exact hnot.imp_right fun hdue d hd => hdue d (Context.member?_eq_some_iff.1 hd)
  · have hmember : ∀ d ∈ grp.list, s.ctx.member? g d.id = some d ∧ d.external = true := fun d hd =>
      ⟨Context.member?_eq_some_iff.2 ⟨grp, hgroup, Group.divider?_of_mem hids hd⟩, hext d hd⟩
    rw [stepN_visits grp.list 1 (more := []) (by rw [hctl, List.append_nil]) hmember hclk hposts, stepN, step_of_ctl_pass rfl]
    exact congrArg Host.Outcome.next (State.endPass_of_empty_queue (s := { s with ctl := rest, out := _ }) hgroup hqueue)

end Sys2Proof.Machine
end

section
/-! The divider commands (47_clock_divider.md R262 to R264), at once and deferred (R233, R238), and Init (R257). -/

namespace Sys2Proof.Machine

/-! ## Commands past the gate (R255, R256) -/

theorem gate_passed {c : Command} {s : State} {st : CtxState} (hstate : s.ctx.state = st) (hallowed : c.allowedIn st = true)
    (hgen : s.ctx.flags.ingen = false ∨ c.allowedInGen = true) :
    ¬(!c.allowedIn s.ctx.state || (s.ctx.flags.ingen && !c.allowedInGen)) = true :=
  Bool.eq_false_iff.1 (commandGate_open (hstate ▸ hallowed) hgen)

section
variable {s : State}

theorem runCommand_init (hstate : s.ctx.state = .uninitialized) (hgen : s.ctx.flags.ingen = false) (nchan rate : Int)
    (period : FixedTime) : runCommand (.init nchan rate period) s = cmdInit nchan rate period s :=
  if_neg (gate_passed hstate rfl (.inl hgen))

theorem runCommand_dividerAttach (hrun : s.ctx.state = .running) (g : GroupNo) (divisor tag : Word) :
    runCommand (.dividerAttach g divisor tag) s = cmdDividerAttach g divisor tag s :=
  if_neg (gate_passed hrun rfl (.inr rfl))

theorem runCommand_dividerDetach (hrun : s.ctx.state = .running) (id : DividerId) :
    runCommand (.dividerDetach id) s = cmdDividerDetach id s :=
  if_neg (gate_passed hrun rfl (.inr rfl))

theorem runCommand_dividerSetDivisor (hrun : s.ctx.state = .running) (id : DividerId) (divisor : Word) :
    runCommand (.dividerSetDivisor id divisor) s = cmdDividerSetDivisor id divisor s :=
  if_neg (gate_passed hrun rfl (.inr rfl))

end

/-! ## Allocation (60_exceptions.md R279) -/

/-- An allocation, and what follows its success; its failure is answered with AllocationError. -/
def State.allocateThen (s : State) (room : Bool) (go : State → State) : State :=
  match s.allocate room with
  | (true, u) => go u
  | (false, u) => u.refuse .allocation

theorem Allocates.of_allocateThen {c : Command} {s : State} {noRoom : Prop} {x : Context} {r : Reply} {room : Bool}
    {go : State → State} (hroom : room = false ↔ noRoom) (hrun : runCommand c s = s.allocateThen room go)
    (hgo : ∀ e, go { s with env := e } = { s with ctx := x, env := e, out := s.out ++ [.reply r] }) : Allocates c s noRoom x r :=
  Allocates.of hroom hrun hgo

theorem State.allocate_of_full (s : State) : s.allocate false = (false, s) := rfl

/-- With room, and no refusal at the head of the tape, the allocation succeeds and takes what is at the head. -/
theorem State.allocate_of_granted {s : State} (h : s.env.allocs.head? ≠ some false) :
    s.allocate true = (true, { s with env := { s.env with allocs := s.env.allocs.tail } }) := by
  obtain ⟨cfg, ctx, interps, ctl, ⟨host, posts, acks, ackCount, allocs⟩, out⟩ := s
  match allocs, h with
  | [], _ => rfl
  | true :: later, _ => rfl
  | false :: later, h => exact absurd rfl h

/-! ## The divider commands, case by case (R262 to R264, R238) -/

section
variable {s : State} {g : GroupNo} {grp : Group} {divisor tag : Word}

theorem cmdDividerAttach_of_unknown (h : s.ctx.group? g = none) : cmdDividerAttach g divisor tag s = s.refuse .invalidValue := by
  unfold cmdDividerAttach; rw [h]

theorem cmdDividerAttach_of_inPass (h : s.ctx.group? g = some grp) (hpass : grp.inPass = true) :
    cmdDividerAttach g divisor tag s =
      (s.updCtx fun c => { c.updGroup g (Group.post (.attach s.ctx.nextDivider divisor tag)) with
        nextDivider := s.ctx.nextDivider + 1 }).reply (.divider s.ctx.nextDivider) := by
  unfold cmdDividerAttach; rw [h]; exact if_pos hpass

theorem cmdDividerAttach_of_zero (h : s.ctx.group? g = some grp) (hidle : grp.inPass = false) :
    cmdDividerAttach g 0 tag s = s.refuse .invalidValue := by
  unfold cmdDividerAttach; rw [h]; exact (if_neg (Bool.eq_false_iff.1 hidle)).trans (if_pos rfl)

theorem cmdDividerAttach_of_idle (h : s.ctx.group? g = some grp) (hidle : grp.inPass = false) (hd : divisor ≠ 0) :
    cmdDividerAttach g divisor tag s = s.allocateThen (belowCap s.cfg.capDividers grp.list.length) fun u =>
      (u.updCtx fun c => { c.updGroup g (Group.append { id := s.ctx.nextDivider, divisor := divisor, target := .ext tag }) with
        nextDivider := s.ctx.nextDivider + 1 }).reply (.divider s.ctx.nextDivider) := by
  unfold cmdDividerAttach; rw [h]; exact (if_neg (Bool.eq_false_iff.1 hidle)).trans (if_neg hd)

end

section
variable {s : State} {id : DividerId} {grp : Group} {d : Divider} {divisor : Word}

theorem cmdDividerDetach_of_unknown (h : s.ctx.divider? id = none) : cmdDividerDetach id s = s.refuse .invalidValue := by
  unfold cmdDividerDetach; rw [h]

theorem cmdDividerDetach_of_inPass (h : s.ctx.divider? id = some (grp, d)) (hpass : grp.inPass = true) :
    cmdDividerDetach id s = (s.updCtx fun c => c.updGroup grp.num (Group.post (.detach id))).reply .done := by
  unfold cmdDividerDetach; rw [h]; exact if_pos hpass

theorem cmdDividerDetach_of_external (h : s.ctx.divider? id = some (grp, d)) (hidle : grp.inPass = false) (hext : d.external = true) :
    cmdDividerDetach id s = (s.updCtx fun c => c.updGroup grp.num (Group.remove id)).reply .done := by
  unfold cmdDividerDetach; rw [h]; exact (if_neg (Bool.eq_false_iff.1 hidle)).trans (if_pos hext)

/-- A track's divider goes with its track only. -/
theorem cmdDividerDetach_of_track (h : s.ctx.divider? id = some (grp, d)) (hidle : grp.inPass = false) (hext : d.external = false) :
    cmdDividerDetach id s = s.refuse .invalidValue := by
  unfold cmdDividerDetach; rw [h]; exact (if_neg (Bool.eq_false_iff.1 hidle)).trans (if_neg (Bool.eq_false_iff.1 hext))

theorem cmdDividerSetDivisor_of_unknown (h : s.ctx.divider? id = none) : cmdDividerSetDivisor id divisor s = s.refuse .invalidValue := by
  unfold cmdDividerSetDivisor; rw [h]

theorem cmdDividerSetDivisor_of_inPass (h : s.ctx.divider? id = some (grp, d)) (hpass : grp.inPass = true) :
    cmdDividerSetDivisor id divisor s = (s.updCtx fun c => c.updGroup grp.num (Group.post (.setDivisor id divisor))).reply .done := by
  unfold cmdDividerSetDivisor; rw [h]; exact if_pos hpass

theorem cmdDividerSetDivisor_of_zero (h : s.ctx.divider? id = some (grp, d)) (hidle : grp.inPass = false) :
    cmdDividerSetDivisor id 0 s = s.refuse .invalidValue := by
  unfold cmdDividerSetDivisor; rw [h]; exact (if_neg (Bool.eq_false_iff.1 hidle)).trans (if_pos rfl)

theorem cmdDividerSetDivisor_of_idle (h : s.ctx.divider? id = some (grp, d)) (hidle : grp.inPass = false) (hd : divisor ≠ 0) :
    cmdDividerSetDivisor id divisor s = (s.updCtx fun c => c.updGroup grp.num (Group.setDivisor id divisor)).reply .done := by
  unfold cmdDividerSetDivisor; rw [h]; exact (if_neg (Bool.eq_false_iff.1 hidle)).trans (if_neg hd)

end

/-- Settles O45: in a pass each of the three commands is a post to its group's queue. -/
theorem dividerCommandsDeferred : Obligations.DividerCommandsDeferred := by
  intro s g grp hrun hgroup hpass
  obtain rfl := Context.group?_num hgroup
  refine ⟨fun divisor tag => ?_, fun id d hfound => ⟨?_, fun divisor => ?_⟩⟩
  · exact (runCommand_dividerAttach hrun grp.num divisor tag).trans (cmdDividerAttach_of_inPass hgroup hpass)
  · exact (runCommand_dividerDetach hrun id).trans (cmdDividerDetach_of_inPass hfound hpass)
  · exact (runCommand_dividerSetDivisor hrun id divisor).trans (cmdDividerSetDivisor_of_inPass hfound hpass)

/-! ## The end of a pass (R232, R233) -/

theorem foldl_applyDeferred_rest (g : GroupNo) (qs : List Deferred) (s : State) :
    (qs.foldl (State.applyDeferred g) s).interps = s.interps ∧ (qs.foldl (State.applyDeferred g) s).out = s.out
    ∧ (qs.foldl (State.applyDeferred g) s).ctl = s.ctl ∧ (qs.foldl (State.applyDeferred g) s).cfg = s.cfg := by
  induction qs generalizing s with
  | nil => exact ⟨rfl, rfl, rfl, rfl⟩
  | cons q qs ih =>
    obtain ⟨hcfg, hinterps, hctl, hout⟩ := s.applyDeferred_rest g q
    have hrest := ih (State.applyDeferred g s q)
    rwa [hinterps, hout, hctl, hcfg] at hrest

theorem State.applyDeferred_out (g : GroupNo) (s : State) (q : Deferred) : (State.applyDeferred g s q).out = s.out := by
  obtain ⟨-, -, -, hout⟩ := s.applyDeferred_rest g q
  exact hout

/-! ## Deferred commands as the host's (R233) -/

section
variable {s : State}

/-- With no pass running, the group of a divider is not in one. -/
theorem Context.divider?_idle {c : Context} (hidle : ∀ x ∈ c.allGroups, x.inPass = false) {id : DividerId} {grp : Group} {d : Divider}
    (h : c.divider? id = some (grp, d)) : grp.inPass = false := hidle grp (Context.divider?_mem h).1

theorem applyDeferred_detach_ctx (hidle : ∀ x ∈ s.ctx.allGroups, x.inPass = false) (g : GroupNo) (id : DividerId) :
    (State.applyDeferred g s (.detach id)).ctx = (cmdDividerDetach id s).ctx := by
  simp only [State.applyDeferred]
  split
  · next hnone => rw [cmdDividerDetach_of_unknown hnone, State.refuse_ctx]
  · next grp d hfound =>
    have hpass := Context.divider?_idle hidle hfound
    split
    · next hext => rw [cmdDividerDetach_of_external hfound hpass hext, State.reply_ctx]
    · next hext => rw [cmdDividerDetach_of_track hfound hpass (Bool.eq_false_iff.2 hext), State.refuse_ctx]

theorem applyDeferred_setDivisor_ctx (hidle : ∀ x ∈ s.ctx.allGroups, x.inPass = false) (g : GroupNo) (id : DividerId) (divisor : Word) :
    (State.applyDeferred g s (.setDivisor id divisor)).ctx = (cmdDividerSetDivisor id divisor s).ctx := by
  simp only [State.applyDeferred]
  split
  · next hnone => rw [cmdDividerSetDivisor_of_unknown hnone, State.refuse_ctx]
  · next grp d hfound =>
    have hpass := Context.divider?_idle hidle hfound
    split
    · next hzero => rw [hzero, cmdDividerSetDivisor_of_zero hfound hpass, State.refuse_ctx]
    · next hd => rw [cmdDividerSetDivisor_of_idle hfound hpass hd, State.reply_ctx]

/-- A queued attach was given its identifier when it was posted, so only the host's raises the next one. -/
theorem applyDeferred_attach_ctx (hidle : ∀ x ∈ s.ctx.allGroups, x.inPass = false) (g : GroupNo) (divisor tag : Word) :
    { (State.applyDeferred g s (.attach s.ctx.nextDivider divisor tag)).ctx with nextDivider := 0 } =
      { (cmdDividerAttach g divisor tag s).ctx with nextDivider := 0 } := by
  simp only [State.applyDeferred]
  split
  · next hnone => rw [cmdDividerAttach_of_unknown hnone, State.refuse_ctx]
  · next grp hgroup =>
    have hpass := hidle grp (Context.group?_mem hgroup)
    split
    · next hzero => rw [hzero, cmdDividerAttach_of_zero hgroup hpass, State.refuse_ctx]
    · next hd =>
      rw [cmdDividerAttach_of_idle hgroup hpass hd, State.allocateThen]
      obtain ⟨ok, env, halloc⟩ := s.allocate_eq (belowCap s.cfg.capDividers grp.list.length)
      rw [halloc]
      cases ok <;> rfl

theorem applyDeferred_attach_of_granted {g : GroupNo} {grp : Group} {id : DividerId} {divisor tag : Word} (hgroup : s.ctx.group? g = some grp)
    (hd : divisor ≠ 0) (hroom : ¬CapReached s.cfg.capDividers grp.list.length) (hgranted : s.env.allocs.head? ≠ some false) :
    State.applyDeferred g s (.attach id divisor tag) =
      { s with
          ctx := s.ctx.withGroup g fun x => { x with list := x.list ++ [⟨id, divisor, .ext tag⟩] }
          env := { s.env with allocs := s.env.allocs.tail } } := by
  have hbelow : belowCap s.cfg.capDividers grp.list.length = true := by rwa [← Bool.not_eq_false, belowCap_eq_false]
  simp only [State.applyDeferred, hgroup, if_neg hd, hbelow, State.allocate_of_granted hgranted]
  rfl

theorem applyDeferred_attach_of_refused {g : GroupNo} {id : DividerId} {divisor tag : Word}
    (h : s.ctx.group? g = none ∨ divisor = 0 ∨ ∃ grp, s.ctx.group? g = some grp ∧ CapReached s.cfg.capDividers grp.list.length) :
    State.applyDeferred g s (.attach id divisor tag) = s := by
  simp only [State.applyDeferred]
  split
  · rfl
  · next grp hgroup =>
    split
    · rfl
    · next hd =>
      obtain hnone | hzero | ⟨grp', hgroup', hfull⟩ := h
      · rw [hnone] at hgroup; cases hgroup
      · exact absurd hzero hd
      · obtain rfl := Option.some.inj (hgroup.symm.trans hgroup')
        rw [belowCap_eq_false.2 hfull, State.allocate_of_full]

end

/-- Settles O46: the commands outside a pass and the deferred ones, case by case, and the end of a pass as the fold of its queue. -/
theorem queuedAsHostCommands : Obligations.QueuedAsHostCommands := by
  refine ⟨fun s g divisor tag hrun => ⟨fun grp hgroup hidle => ⟨fun hd => ?_, ?_⟩, fun hnone => ?_⟩,
    fun s id hrun => ⟨fun grp d hfound hidle => ⟨fun tag htag => ?_, fun t ht => ?_, fun divisor => ⟨fun hd => ?_, ?_⟩⟩,
      fun hnone => ⟨?_, fun divisor => ?_⟩⟩,
    fun s g grp k rest hctl hgroup => ?_, fun s g id divisor tag hidle => ?_, fun s g id divisor tag => ?_⟩
  · exact Allocates.of_allocateThen belowCap_eq_false
      ((runCommand_dividerAttach hrun g divisor tag).trans (cmdDividerAttach_of_idle hgroup hidle hd)) fun _ => rfl
  · rintro rfl
    exact (runCommand_dividerAttach hrun g 0 tag).trans (cmdDividerAttach_of_zero hgroup hidle)
  · exact (runCommand_dividerAttach hrun g divisor tag).trans (cmdDividerAttach_of_unknown hnone)
  · exact (runCommand_dividerDetach hrun id).trans (cmdDividerDetach_of_external hfound hidle (Divider.external_iff.2 ⟨tag, htag⟩))
  · refine (runCommand_dividerDetach hrun id).trans (cmdDividerDetach_of_track hfound hidle ?_)
    rw [Divider.external, ht]
  · exact (runCommand_dividerSetDivisor hrun id divisor).trans (cmdDividerSetDivisor_of_idle hfound hidle hd)
  · rintro rfl
    exact (runCommand_dividerSetDivisor hrun id 0).trans (cmdDividerSetDivisor_of_zero hfound hidle)
  · exact (runCommand_dividerDetach hrun id).trans (cmdDividerDetach_of_unknown hnone)
  · exact (runCommand_dividerSetDivisor hrun id divisor).trans (cmdDividerSetDivisor_of_unknown hnone)
  · exact ⟨(step_of_ctl_pass hctl).trans (congrArg _ (State.endPass_of_group (s := { s with ctl := rest }) hgroup)),
      foldl_applyDeferred_rest g grp.queue _⟩
  · exact ⟨applyDeferred_detach_ctx hidle g id, applyDeferred_setDivisor_ctx hidle g id divisor,
      applyDeferred_attach_ctx hidle g divisor tag, s.applyDeferred_out g _, s.applyDeferred_out g _, s.applyDeferred_out g _⟩
  · exact ⟨fun grp hgroup hd hroom hgranted => applyDeferred_attach_of_granted hgroup hd hroom hgranted, applyDeferred_attach_of_refused⟩

/-! ## Init (R257) -/

/-- The argument checks of Init. -/
def InitArgs (cfg : Params) (nchan rate : Int) (period : FixedTime) : Prop :=
  1 ≤ nchan ∧ nchan ≤ cfg.maxChannels ∧ cfg.minRate ≤ rate ∧ rate ≤ cfg.maxRate ∧ ftIsPositive period = true

section
variable {s : State} {nchan rate : Int} {period : FixedTime}

theorem cmdInit_of_args (h : InitArgs s.cfg nchan rate period) :
    cmdInit nchan rate period s =
      s.allocateThen true fun u => (u.updCtx fun _ => initialContext nchan.toNat rate.toNat period).reply .done :=
  if_pos h

theorem cmdInit_of_not_args (h : ¬InitArgs s.cfg nchan rate period) : cmdInit nchan rate period s = s.refuse .invalidValue :=
  if_neg h

end

/-- Settles O49: where the checks pass, what is left to see is that the channel count and the rate are not negative. -/
theorem initValues : Obligations.InitValues := by
  intro nchan rate period s hstate hgen
  have hrun := runCommand_init hstate hgen nchan rate period
  refine ⟨fun hargs => ?_, fun hargs => hrun.trans (cmdInit_of_not_args hargs)⟩
  have ⟨hone, _, hmin, _, _⟩ := hargs
  have hchannels : 0 ≤ nchan := Int.le_trans (by decide) hone
  have hrate : 0 ≤ rate := (Int.natCast_nonneg _).trans hmin
  refine ⟨initialContext nchan.toNat rate.toNat period,
    Allocates.of_allocateThen (iff_of_false Bool.noConfusion id) (hrun.trans (cmdInit_of_args hargs)) fun _ => rfl,
    rfl, Int.toNat_of_nonneg hchannels, Int.toNat_of_nonneg hrate, rfl, rfl, rfl, rfl, rfl, rfl, rfl, rfl, rfl⟩

end Sys2Proof.Machine
end

section
/-! The rendering commands (47_clock_divider.md R266, R267) and the attributes (R268). -/

namespace Sys2Proof.Machine

/-! ## The rendering commands (R266, R267) -/

section
variable {s : State}

theorem runCommand_generate (hrun : s.ctx.state = .running) (hgen : s.ctx.flags.ingen = false) (n : Int) :
    runCommand (.generate n) s = cmdGenerate n s :=
  if_neg (gate_passed hrun rfl (.inl hgen))

theorem runCommand_generateToTime (hrun : s.ctx.state = .running) (hgen : s.ctx.flags.ingen = false) (endTime : FixedTime) (cap : Int) :
    runCommand (.generateToTime endTime cap) s = cmdGenerateToTime endTime cap s :=
  if_neg (gate_passed hrun rfl (.inl hgen))

end

theorem step_of_ctl_generate {s : State} {n : Nat} {rest : List Frame} (h : s.ctl = .generate n :: rest) :
    step s = .next (s.endCall (.frames n) rest) := by
  unfold step; rw [h]

theorem step_of_ctl_toTime {s : State} {e : Int} {cap total : Nat} {rest : List Frame} (h : s.ctl = .toTime e cap total :: rest) :
    step s = .next (s.toTimeStep e cap total rest) := by
  unfold step; rw [h]

theorem step_of_ctl_callback {s : State} {e : Int} {cap total m : Nat} {rest : List Frame}
    (h : s.ctl = .callback e cap total m :: rest) : step s = .next (s.callbackStep e cap total m rest) := by
  unfold step; rw [h]

theorem step_of_ctl_unacknowledged {s : State} {rest : List Frame} (h : s.ctl = .unacknowledged :: rest) :
    step s = .next (s.endCall (.error .invalidReturnValue) rest) := by
  unfold step; rw [h]

section
variable {s : State}

/-- The write callback's answer is the head of its tape. -/
theorem State.takeAck_of_cons {ok : Bool} {more : List Bool} (h : s.env.acks = ok :: more) :
    s.takeAck = (ok, { s with env := { s.env with acks := more } }) := by
  unfold State.takeAck; rw [h]

theorem State.takeAck_of_nil (h : s.env.acks = []) :
    s.takeAck = (Config.writeAck s.env.ackCount, { s with env := { s.env with ackCount := s.env.ackCount + 1 } }) := by
  unfold State.takeAck; rw [h]

/-- What follows the write callback's answer (R267, R280). -/
theorem State.callbackStep_of_ack {e : Int} {cap total m : Nat} {rest : List Frame} {ok : Bool} {env : Env}
    (h : (s.emit (.writeCallback m)).takeAck = (ok, { s.emit (.writeCallback m) with env := env })) :
    s.callbackStep e cap total m rest =
      ({ s with
          ctl := (if ok then .toTime e cap (total + m) else .unacknowledged) :: rest
          env := env
          out := s.out ++ [.writeCallback m] } : State).openToPosts := by
  unfold State.callbackStep
  rw [h]
  rfl

/-- A chunk is the lesser of the capacity and what remains (R267). -/
theorem State.toTimeStep_of_before {e : Int} (h : s.ctx.now.toInt < e) (cap total : Nat) (rest : List Frame) :
    ∃ m : Nat, (m : Int) = min (cap : Int) (e - s.ctx.now.toInt)
      ∧ s.toTimeStep e cap total rest = { s with ctl := .core m 0 .head :: .callback e cap total m :: rest } := by
  refine ⟨min cap (e - s.ctx.now.toInt).toNat, ?_, if_pos h⟩
  rw [Nat.cast_min, Int.toNat_of_nonneg (Int.sub_nonneg_of_le h.le)]

theorem State.toTimeStep_of_reached {e : Int} (h : e ≤ s.ctx.now.toInt) (cap total : Nat) (rest : List Frame) :
    s.toTimeStep e cap total rest = s.endCall (.frames total) rest := if_neg (not_lt.2 h)

end

/-- Settles O53: the two commands by their argument checks, and the step of each of their activations. -/
theorem renderingCommands : Obligations.RenderingCommands := by
  refine ⟨fun s n hrun hgen => ?_, fun s n hrun hgen hneg => ?_, fun s endTime cap hrun hgen => ⟨fun hcap => ?_, fun hcap => ?_⟩,
    fun s n rest hctl => step_of_ctl_generate hctl, fun s e cap total rest hctl => ⟨fun hbefore => ?_, fun hreached => ?_⟩,
    fun s e cap total m rest hctl => ⟨fun ok more hacks => ?_, fun hacks => ⟨Config.writeAck s.env.ackCount, ?_⟩⟩,
    fun s rest hctl => step_of_ctl_unacknowledged hctl⟩
  · exact (runCommand_generate hrun hgen n).trans (if_pos (Int.natCast_nonneg n))
  · exact (runCommand_generate hrun hgen n).trans (if_neg (not_le.2 hneg))
  · exact (runCommand_generateToTime hrun hgen endTime cap).trans (if_pos hcap)
  · exact (runCommand_generateToTime hrun hgen endTime cap).trans (if_neg (not_le.2 hcap))
  · obtain ⟨m, hm, hstep⟩ := State.toTimeStep_of_before hbefore cap total rest
    exact ⟨m, hm, (step_of_ctl_toTime hctl).trans (congrArg _ hstep)⟩
  · exact (step_of_ctl_toTime hctl).trans (congrArg _ (State.toTimeStep_of_reached hreached cap total rest))
  · exact (step_of_ctl_callback hctl).trans (congrArg _ (State.callbackStep_of_ack (State.takeAck_of_cons hacks)))
  · exact (step_of_ctl_callback hctl).trans (congrArg _ (State.callbackStep_of_ack (State.takeAck_of_nil hacks)))

/-! ## The attributes (R268) -/

section
variable {s : State}

theorem runCommand_getAttr (hrun : s.ctx.state = .running) (id index : Nat) :
    runCommand (.getAttr id index) s = cmdGetAttr id index s :=
  if_neg (gate_passed hrun rfl (.inr rfl))

theorem runCommand_setAttr (hrun : s.ctx.state = .running) (id index : Nat) (value : AttrValue) :
    runCommand (.setAttr id index value) s = cmdSetAttr id index value s :=
  if_neg (gate_passed hrun rfl (.inr rfl))

theorem State.attrOr_map_of_some {α : Type} {o : Option α} {a : α} (h : o = some a) (f : α → AttrValue) :
    s.attrOr (o.map f) = s.reply (.attr (f a)) := by
  rw [h]; rfl

theorem State.attrOr_map_of_none {α : Type} {o : Option α} (h : o = none) (f : α → AttrValue) :
    s.attrOr (o.map f) = s.refuse .invalidValue := by
  rw [h]; rfl

theorem cmdGetAttr_of_unknown {id : Nat} (h : id = 0 ∨ 6 < id) (index : Nat) : cmdGetAttr id index s = s.refuse .invalidAttribute := by
  obtain rfl | hlarge := h
  · rfl
  · obtain ⟨n, rfl⟩ := Nat.exists_eq_add_of_le' hlarge
    rfl

theorem cmdSetAttr_of_not_writable {id : Nat} (hperiod : id ≠ 2) (hdivisor : id ≠ 3) (index : Nat) (v : AttrValue) :
    cmdSetAttr id index v s = s.refuse .invalidAttribute := by
  unfold cmdSetAttr
  split
  · exact absurd rfl hperiod
  · exact absurd rfl hdivisor
  · rfl

theorem cmdSetAttr_period {index : Nat} {p : FixedTime} (hindex : index < s.ctx.clockList.length) (hp : ftIsPositive p = true) :
    cmdSetAttr 2 index (.time p) s = (s.updCtx fun c => c.updClock index fun k => { k with period := p }).reply .done :=
  if_pos ⟨hindex, hp⟩

theorem cmdSetAttr_period_of_bad {index : Nat} {p : FixedTime} (h : s.ctx.clockList.length ≤ index ∨ ftIsPositive p = false) :
    cmdSetAttr 2 index (.time p) s = s.refuse .invalidValue :=
  if_neg fun ⟨hindex, hp⟩ => h.elim (fun hle => absurd hindex (not_lt.2 hle)) fun hbad => by rw [hp] at hbad; cases hbad

theorem cmdSetAttr_divisor {index v : Nat} (hv : v < 2 ^ 32) :
    cmdSetAttr 3 index (.num v) s = cmdDividerSetDivisor index (BitVec.ofNat 32 v) s := if_pos hv

/-- A divisor that is no word, a 0 outside a pass and an unknown divider are refused. -/
theorem cmdSetAttr_divisor_of_bad {index v : Nat}
    (h : 2 ^ 32 ≤ v ∨ v = 0 ∧ (∀ g d, s.ctx.divider? index = some (g, d) → g.inPass = false) ∨ s.ctx.divider? index = none) :
    cmdSetAttr 3 index (.num v) s = s.refuse .invalidValue := by
  by_cases hv : v < 2 ^ 32
  · rw [cmdSetAttr_divisor hv]
    match hfound : s.ctx.divider? index, h with
    | none, _ => exact cmdDividerSetDivisor_of_unknown hfound
    | some (g, d), .inl hlarge => exact absurd hv (not_lt.2 hlarge)
    | some (g, d), .inr (.inl ⟨hzero, hidle⟩) => rw [hzero]; exact cmdDividerSetDivisor_of_zero hfound (hidle g d rfl)
  · exact if_neg hv

end

/-- Settles O54: each identifier is one arm of GetAttr and of SetAttr; a divisor is written through DividerSetDivisor. -/
theorem attributes : Obligations.Attributes := by
  intro s id index hrun
  have hget := runCommand_getAttr hrun id index
  have hset := runCommand_setAttr hrun id index
  refine ⟨?_, fun c hc => ⟨?_, ?_⟩, fun g d hfound => ?_, ?_, ?_, fun hunknown => ?_, ?_, fun v hperiod hdivisor => ?_, fun p => ?_,
    fun v => ?_, fun n p => ⟨?_, ?_⟩⟩
  · rintro rfl; exact hget
  · rintro rfl; exact hget.trans (State.attrOr_map_of_some hc _)
  · rintro rfl; exact hget.trans (State.attrOr_map_of_some hc _)
  · rintro rfl; exact hget.trans (State.attrOr_map_of_some hfound _)
  · rintro rfl; exact hget
  · rintro rfl; exact hget
  · exact hget.trans (cmdGetAttr_of_unknown hunknown index)
  · rintro (⟨rfl | rfl, hindex⟩ | ⟨rfl, hnone⟩)
    · exact hget.trans (State.attrOr_map_of_none (List.getElem?_eq_none hindex) _)
    · exact hget.trans (State.attrOr_map_of_none (List.getElem?_eq_none hindex) _)
    · exact hget.trans (State.attrOr_map_of_none hnone _)
  · exact (hset v).trans (cmdSetAttr_of_not_writable hperiod hdivisor index v)
  · rintro rfl
    refine ⟨fun hindex hp => ⟨_, (hset _).trans (cmdSetAttr_period hindex hp), ?_, s.ctx.updClock_rest index _⟩, fun hbad => ?_⟩
    · exact s.ctx.clockList_updClock index _
    · exact (hset _).trans (cmdSetAttr_period_of_bad hbad)
  · rintro rfl
    refine ⟨fun hv => ?_, fun hbad => (hset _).trans (cmdSetAttr_divisor_of_bad hbad)⟩
    exact ((hset _).trans (cmdSetAttr_divisor hv)).trans (runCommand_dividerSetDivisor hrun index _).symm
  · rintro rfl; exact hset _
  · rintro rfl; exact hset _

end Sys2Proof.Machine
end

section
/-! The commands that bind, attach, detach, reset and report tracks, attach and detach clocks and units, and Dispose (47_clock_divider.md R259 to R261, R265).
What they detach is one operation, the removal of dividers by their identifiers from every group; where the Context is linked it reaches only the groups meant. -/

namespace Sys2Proof.Machine

/-! ## Changes of every group that leave some as they are -/

theorem Clock.mapGroups_congr {k : Clock} {f h : Group → Group} (hk : ∀ x ∈ k.groups, f x = h x) : k.mapGroups f = k.mapGroups h :=
  congrArg (fun gs => { k with groups := gs }) (List.map_congr_left hk)

theorem Clock.mapGroups_of_fixed {k : Clock} {f : Group → Group} (hk : ∀ x ∈ k.groups, f x = x) : k.mapGroups f = k :=
  congrArg (fun gs => { k with groups := gs }) ((List.map_congr_left hk).trans (List.map_id _))

theorem Context.mapGroups_congr {c : Context} {f h : Group → Group} (hc : ∀ x ∈ c.allGroups, f x = h x) : c.mapGroups f = c.mapGroups h := by
  have hclock : ∀ k ∈ c.clockList, k.mapGroups f = k.mapGroups h := fun k hk =>
    Clock.mapGroups_congr fun x hx => hc x (Context.mem_allGroups.2 ⟨k, hk, hx⟩)
  unfold Context.mapGroups
  rw [hclock c.master List.mem_cons_self, List.map_congr_left fun k hk => hclock k (List.mem_cons_of_mem _ hk)]

theorem Context.mapGroups_of_fixed {c : Context} {f : Group → Group} (hc : ∀ x ∈ c.allGroups, f x = x) : c.mapGroups f = c := by
  have hclock : ∀ k ∈ c.clockList, k.mapGroups f = k := fun k hk =>
    Clock.mapGroups_of_fixed fun x hx => hc x (Context.mem_allGroups.2 ⟨k, hk, hx⟩)
  unfold Context.mapGroups
  rw [hclock c.master List.mem_cons_self,
    (List.map_congr_left fun k hk => hclock k (List.mem_cons_of_mem _ hk)).trans (List.map_id _)]

/-! ## Dividers removed by identifier -/

/-- A group without the dividers of some identifiers. -/
def Group.without (ids : List DividerId) (x : Group) : Group := { x with list := x.list.filter fun d => decide (d.id ∉ ids) }

theorem Group.without_of_apart {ids : List DividerId} {x : Group} (h : ∀ d ∈ x.list, d.id ∉ ids) : x.without ids = x :=
  congrArg (fun l => { x with list := l }) (List.filter_eq_self.2 fun d hd => decide_eq_true (h d hd))

theorem Context.mapGroups_without_nil (c : Context) : c.mapGroups (Group.without []) = c :=
  Context.mapGroups_of_fixed fun _ _ => Group.without_of_apart fun _ _ => List.not_mem_nil

theorem Group.remove_eq_without (id : DividerId) : Group.remove id = Group.without [id] := by
  funext x
  refine congrArg (fun l => { x with list := l }) (List.filter_congr fun d _ => ?_)
  rw [Bool.eq_iff_iff, bne_iff_ne, decide_eq_true_iff, List.mem_singleton]

theorem Group.without_without (ids ids' : List DividerId) : Group.without ids' ∘ Group.without ids = Group.without (ids' ++ ids) := by
  funext x
  refine congrArg (fun l => { x with list := l }) ((List.filter_filter).trans (List.filter_congr fun d _ => ?_))
  rw [← Bool.decide_and, decide_eq_decide, List.mem_append, not_or]

/-- Detaching a track removes the divider that its port names from every group. -/
theorem Context.detachTrack_eq (c : Context) (t : Track) :
    ∃ ids, (∀ id ∈ ids, ∃ p ∈ c.tracks, p.track = t ∧ p.divider = id)
      ∧ c.detachTrack t = { c.mapGroups (Group.without ids) with tracks := c.tracks.filter fun p => p.track != t } := by
  match hport : c.port? t with
  | none =>
    have hsame : c.detachTrack t = c := by unfold Context.detachTrack; rw [hport]
    refine ⟨[], nofun, ?_⟩
    rw [← Context.detachTrack_tracks, Context.mapGroups_without_nil, hsame]
  | some p =>
    refine ⟨[p.divider], List.forall_mem_singleton.2 ⟨p, List.mem_of_find?_eq_some hport, by simpa using List.find?_some hport, rfl⟩, ?_⟩
    unfold Context.detachTrack
    rw [hport, ← Group.remove_eq_without]

/-- So does detaching one track after the other. -/
theorem Context.detachTracks_eq (c : Context) (ts : List Track) :
    ∃ ids, (∀ id ∈ ids, ∃ p ∈ c.tracks, p.track ∈ ts ∧ p.divider = id)
      ∧ ts.foldl Context.detachTrack c =
        { c.mapGroups (Group.without ids) with tracks := c.tracks.filter fun p => decide (p.track ∉ ts) } := by
  induction ts generalizing c with
  | nil =>
    refine ⟨[], nofun, ?_⟩
    rw [Context.mapGroups_without_nil, List.filter_eq_self.2 fun _ _ => decide_eq_true List.not_mem_nil]
    rfl
  | cons t ts ih =>
    obtain ⟨ids, hids, hone⟩ := c.detachTrack_eq t
    obtain ⟨ids', hids', hrest⟩ := ih (c.detachTrack t)
    refine ⟨ids' ++ ids, List.forall_mem_append.2 ⟨fun id hid => ?_, fun id hid => ?_⟩, ?_⟩
    · obtain ⟨p, hp, htrack, hid⟩ := hids' id hid
      rw [Context.detachTrack_tracks] at hp
      exact ⟨p, List.mem_of_mem_filter hp, List.mem_cons_of_mem _ htrack, hid⟩
    · obtain ⟨p, hp, rfl, hid⟩ := hids id hid
      exact ⟨p, hp, List.mem_cons_self, hid⟩
    · rw [List.foldl_cons, hrest, Context.detachTrack_tracks, hone]
      have hgroups := (c.mapGroups_mapGroups (Group.without ids') (Group.without ids)).trans
        (congrArg c.mapGroups (Group.without_without ids ids'))
      have htracks : (c.tracks.filter fun p => p.track != t).filter (fun p => decide (p.track ∉ ts)) =
          c.tracks.filter fun p => decide (p.track ∉ t :: ts) := by
        rw [List.filter_filter]
        refine List.filter_congr fun p _ => ?_
        rw [Bool.eq_iff_iff, Bool.and_eq_true, decide_eq_true_iff, bne_iff_ne, decide_eq_true_iff, List.mem_cons, not_or]
        exact and_comm
      rw [htracks, ← hgroups]
      rfl

/-! ## Groups and clocks apart (R262) -/

/-- An identifier is held by one group only. -/
theorem Context.Linked.group_unique {c : Context} (h : c.Linked) {x y : Group} (hx : x ∈ c.allGroups) (hy : y ∈ c.allGroups)
    {id : DividerId} (hidx : id ∈ x.ids) (hidy : id ∈ y.ids) : x = y := by
  by_contra hne
  obtain ⟨-, hapart⟩ := List.nodup_flatMap.1 h.ids
  have hsymm : Std.Symm (Function.onFun List.Disjoint Group.ids) := ⟨fun _ _ hdisjoint => List.Disjoint.symm hdisjoint⟩
  exact hapart.forall hx hy hne hidx hidy

/-- An identifier that an auxiliary clock's groups hold is held by no other clock's. -/
theorem Context.Linked.clock_apart {c : Context} (h : c.Linked) {j : Nat} {k : Clock} (hk : c.clocks[j]? = some k) {m : Clock}
    (hm : m ∈ c.master :: c.clocks.eraseIdx j) {id : DividerId} (hid : id ∈ k.groups.flatMap Group.ids) :
    id ∉ m.groups.flatMap Group.ids := by
  obtain ⟨hj, rfl⟩ := List.getElem?_eq_some_iff.1 hk
  have hperm : (c.clocks[j] :: c.master :: c.clocks.eraseIdx j).Perm c.clockList :=
    (List.Perm.swap _ _ _).trans ((List.getElem_cons_eraseIdx_perm hj).cons _)
  have hnodup : (c.clockList.flatMap fun n => n.groups.flatMap Group.ids).Nodup := by
    rw [← List.flatMap_assoc]; exact h.ids
  rw [← (hperm.flatMap_right _).nodup_iff, List.flatMap_cons, List.nodup_append] at hnodup
  obtain ⟨-, -, hapart⟩ := hnodup
  exact fun hmem => hapart id hid id (List.mem_flatMap.2 ⟨m, hm, hmem⟩) rfl

theorem Group.mem_ids_of_mem {x : Group} {d : Divider} (hd : d ∈ x.list) : d.id ∈ x.ids :=
  List.mem_append_left _ (List.mem_map_of_mem hd)

/-- The port of a track that a clock's dividers drive names one of that clock's dividers. -/
theorem Context.Linked.divider_of_driven {c : Context} (h : c.Linked) {k : Clock} (hk : k ∈ c.clockList) {p : Port} (hp : p ∈ c.tracks)
    (hdriven : p.track ∈ k.drivenTracks) : p.divider ∈ k.groups.flatMap Group.ids := by
  obtain ⟨id, hid⟩ := Clock.mem_drivenTracks.1 hdriven
  obtain ⟨x, hx, hdrives⟩ := List.mem_flatMap.1 hid
  obtain ⟨d, hd, heq⟩ := List.mem_map.1 hdrives
  have htarget : d.target = .track p.track := (Prod.ext_iff.1 heq).2
  obtain ⟨q, hq, htrack, hdivider⟩ := h.dividerPort x (Context.mem_allGroups.2 ⟨k, hk, hx⟩) d hd p.track htarget
  obtain rfl := List.inj_on_of_nodup_map h.tracks hq hp htrack
  exact List.mem_flatMap.2 ⟨x, hx, hdivider ▸ Group.mem_ids_of_mem hd⟩

/-- A divider in some list is found. -/
theorem Context.exists_divider? {c : Context} {x : Group} (hx : x ∈ c.allGroups) {d : Divider} (hd : d ∈ x.list) :
    ∃ g e, c.divider? d.id = some (g, e) := by
  obtain ⟨e, he⟩ : ∃ e, x.divider? d.id = some e :=
    Option.isSome_iff_exists.1 (List.find?_isSome.2 ⟨d, hd, beq_self_eq_true _⟩)
  have hfound : (c.divider? d.id).isSome = true := List.findSome?_isSome_iff.2 ⟨x, hx, by rw [he]; rfl⟩
  obtain ⟨⟨g, e'⟩, hge⟩ := Option.isSome_iff_exists.1 hfound
  exact ⟨g, e', hge⟩

/-! ## What is detached, where the Context is linked (R260, R265) -/

/-- A track's divider leaves the group it is found in, and no other group changes. -/
theorem Context.Linked.detachTrack_eq {c : Context} (h : c.Linked) {t : Track} {p : Port} (hport : c.port? t = some p) :
    ∃ g d, c.divider? p.divider = some (g, d)
      ∧ c.detachTrack t = { c.updGroup g.num (Group.remove p.divider) with tracks := c.tracks.filter fun q => q.track != t } := by
  obtain ⟨x, hx, e, he, hid, -⟩ := h.portDivider p (List.mem_of_find?_eq_some hport)
  obtain ⟨g, d, hfound⟩ := Context.exists_divider? hx he
  rw [hid] at hfound
  obtain ⟨hg, hd, hdid⟩ := Context.divider?_mem hfound
  refine ⟨g, d, hfound, ?_⟩
  have hgroups : c.mapGroups (Group.remove p.divider) = c.updGroup g.num (Group.remove p.divider) := by
    refine Context.mapGroups_congr fun y hy => ?_
    split
    · rfl
    · next hnum =>
      rw [Group.remove_eq_without]
      refine Group.without_of_apart fun e he hmem => hnum (congrArg Group.num (h.group_unique (id := e.id) hy hg (Group.mem_ids_of_mem he) ?_))
      rw [List.mem_singleton.1 hmem, ← hdid]
      exact Group.mem_ids_of_mem hd
  unfold Context.detachTrack
  rw [hport]
  exact congrArg (fun x : Context => { x with tracks := c.tracks.filter fun q => q.track != t }) hgroups

theorem Clock.not_mem_drivenTracks_iff {k : Clock} {t : Track} :
    t ∉ k.drivenTracks ↔ ∀ g ∈ k.groups, ∀ d ∈ g.list, d.target ≠ .track t := by
  rw [Clock.mem_drivenTracks]
  constructor
  · exact fun hnot g hg d hd htarget => hnot ⟨d.id, List.mem_flatMap.2 ⟨g, hg, List.mem_map.2 ⟨d, hd, by rw [htarget]⟩⟩⟩
  · rintro hfree ⟨id, hid⟩
    obtain ⟨g, hg, hdrives⟩ := List.mem_flatMap.1 hid
    obtain ⟨d, hd, heq⟩ := List.mem_map.1 hdrives
    exact hfree g hg d hd (Prod.ext_iff.1 heq).2

/-- With a clock go its dividers and the tracks they drive; the other clocks stay as they are. -/
theorem Context.Linked.detachClock_eq {c : Context} (h : c.Linked) {j : Nat} {k : Clock} (hk : c.clocks[j]? = some k) :
    { k.drivenTracks.foldl Context.detachTrack c with
        clocks := (k.drivenTracks.foldl Context.detachTrack c).clocks.eraseIdx j } =
      { c with clocks := c.clocks.eraseIdx j, tracks := c.tracks.filter fun p => decide (p.track ∉ k.drivenTracks) } := by
  obtain ⟨ids, hids, heq⟩ := c.detachTracks_eq k.drivenTracks
  have hkc : k ∈ c.clockList := List.mem_cons_of_mem _ (List.mem_of_getElem? hk)
  have hfixed : ∀ m ∈ c.master :: c.clocks.eraseIdx j, m.mapGroups (Group.without ids) = m := fun m hm =>
    Clock.mapGroups_of_fixed fun x hx => Group.without_of_apart fun d hd hmem => by
      obtain ⟨p, hp, hdriven, hid⟩ := hids d.id hmem
      exact h.clock_apart hk hm (hid ▸ h.divider_of_driven hkc hp hdriven) (List.mem_flatMap.2 ⟨x, hx, Group.mem_ids_of_mem hd⟩)
  have hclocks : (c.clocks.map (Clock.mapGroups (Group.without ids))).eraseIdx j = c.clocks.eraseIdx j := by
    rw [List.eraseIdx_map]
    exact (List.map_congr_left fun m hm => hfixed m (List.mem_cons_of_mem _ hm)).trans (List.map_id _)
  rw [heq]
  unfold Context.mapGroups
  rw [hclocks, hfixed c.master List.mem_cons_self]

/-- Dispose leaves the master clock with its groups empty, and no track, unit or auxiliary clock (R259). -/
theorem Context.disposed_eq (c : Context) :
    { (c.tracks.foldl (fun c p => c.detachTrack p.track) c).mapGroups (fun g => { g with list := [] }) with
        units := [], clocks := [], state := .disposed } =
      { c with
          state := .disposed
          master := { c.master with groups := c.master.groups.map fun g => { g with list := [] } }
          clocks := []
          tracks := []
          units := [] } := by
  rw [← List.foldl_map (f := Port.track) (g := Context.detachTrack)]
  obtain ⟨ids, -, heq⟩ := c.detachTracks_eq (c.tracks.map Port.track)
  have htracks : c.tracks.filter (fun p => decide (p.track ∉ c.tracks.map Port.track)) = [] :=
    List.filter_eq_nil_iff.2 fun p hp => by simpa using ⟨p, hp, rfl⟩
  have hgroups : (c.master.groups.map (Group.without ids)).map (fun g => { g with list := [] }) =
      c.master.groups.map fun g => { g with list := [] } := List.map_map
  rw [heq, htracks]
  unfold Context.mapGroups Clock.mapGroups
  rw [hgroups]

/-! ## The commands past the gate -/

section
variable {s : State}

theorem runCommand_dispose (hrun : s.ctx.state = .running) (hgen : s.ctx.flags.ingen = false) : runCommand .dispose s = cmdDispose s :=
  if_neg (gate_passed hrun rfl (.inl hgen))

theorem runCommand_trackBind (hrun : s.ctx.state = .running) (hgen : s.ctx.flags.ingen = false) (t : Track)
    (program itab wtab : List Word) : runCommand (.trackBind t program itab wtab) s = cmdTrackBind t program itab wtab s :=
  if_neg (gate_passed hrun rfl (.inl hgen))

theorem runCommand_trackAttach (hrun : s.ctx.state = .running) (hgen : s.ctx.flags.ingen = false) (t : Track) (g : GroupNo)
    (divisor : Word) : runCommand (.trackAttach t g divisor) s = cmdTrackAttach t g divisor s :=
  if_neg (gate_passed hrun rfl (.inl hgen))

theorem runCommand_trackDetach (hrun : s.ctx.state = .running) (hgen : s.ctx.flags.ingen = false) (t : Track) :
    runCommand (.trackDetach t) s = cmdTrackDetach t s :=
  if_neg (gate_passed hrun rfl (.inl hgen))

theorem runCommand_trackReset (hrun : s.ctx.state = .running) (hgen : s.ctx.flags.ingen = false) (t : Track) :
    runCommand (.trackReset t) s = cmdTrackReset t s :=
  if_neg (gate_passed hrun rfl (.inl hgen))

theorem runCommand_trackStatus (hrun : s.ctx.state = .running) (t : Track) : runCommand (.trackStatus t) s = cmdTrackStatus t s :=
  if_neg (gate_passed hrun rfl (.inr rfl))

theorem runCommand_clockAttach (hrun : s.ctx.state = .running) (hgen : s.ctx.flags.ingen = false) (period : FixedTime) :
    runCommand (.clockAttach period) s = cmdClockAttach period s :=
  if_neg (gate_passed hrun rfl (.inl hgen))

theorem runCommand_clockDetach (hrun : s.ctx.state = .running) (hgen : s.ctx.flags.ingen = false) (i : Nat) :
    runCommand (.clockDetach i) s = cmdClockDetach i s :=
  if_neg (gate_passed hrun rfl (.inl hgen))

theorem runCommand_unitAttach (hrun : s.ctx.state = .running) (hgen : s.ctx.flags.ingen = false) (u : UnitId) :
    runCommand (.unitAttach u) s = cmdUnitAttach u s :=
  if_neg (gate_passed hrun rfl (.inl hgen))

theorem runCommand_unitDetach (hrun : s.ctx.state = .running) (hgen : s.ctx.flags.ingen = false) (u : UnitId) :
    runCommand (.unitDetach u) s = cmdUnitDetach u s :=
  if_neg (gate_passed hrun rfl (.inl hgen))

/-! ## The commands, case by case -/

theorem cmdTrackBind_of_free {t : Track} {program : List Word} (hport : s.ctx.port? t = none) (hlen : program.length < 2 ^ 32)
    (itab wtab : List Word) :
    cmdTrackBind t program itab wtab s = (s.setInterp t (Interp.fresh s.cfg (bindingsOf program itab wtab))).reply .done :=
  if_pos ⟨Option.isNone_iff_eq_none.2 hport, hlen⟩

theorem cmdTrackBind_of_bad {t : Track} {program : List Word} (h : s.ctx.port? t ≠ none ∨ 2 ^ 32 ≤ program.length) (itab wtab : List Word) :
    cmdTrackBind t program itab wtab s = s.refuse .invalidValue :=
  if_neg fun ⟨hport, hlen⟩ => h.elim (fun hattached => hattached (Option.isNone_iff_eq_none.1 hport)) fun hlong => absurd hlen (not_lt.2 hlong)

theorem cmdTrackAttach_of_args {t : Track} {g : GroupNo} {grp : Group} {divisor : Word} (hgroup : s.ctx.group? g = some grp)
    (hbound : s.bound t = true) (hport : s.ctx.port? t = none) (hd : divisor ≠ 0) :
    cmdTrackAttach t g divisor s =
      s.allocateThen (belowCap s.cfg.capTracks s.ctx.tracks.length && belowCap s.cfg.capDividers grp.list.length) fun u =>
        (u.updCtx fun c =>
          { c.updGroup g (Group.append { id := u.ctx.nextDivider, divisor := divisor, target := .track t }) with
              tracks := c.tracks ++ [{ track := t, divider := u.ctx.nextDivider }]
              nextDivider := u.ctx.nextDivider + 1 }).reply (.divider u.ctx.nextDivider) := by
  unfold cmdTrackAttach
  rw [hgroup]
  exact if_pos ⟨hbound, Option.isNone_iff_eq_none.2 hport, hd⟩

theorem cmdTrackAttach_of_bad {t : Track} {g : GroupNo} {divisor : Word}
    (h : s.bound t = false ∨ s.ctx.port? t ≠ none ∨ s.ctx.group? g = none ∨ divisor = 0) :
    cmdTrackAttach t g divisor s = s.refuse .invalidValue := by
  unfold cmdTrackAttach
  split
  · rfl
  · next grp hgroup =>
    refine if_neg fun ⟨hbound, hport, hd⟩ => ?_
    obtain hunbound | hattached | hnone | hzero := h
    · rw [hunbound] at hbound; cases hbound
    · exact hattached (Option.isNone_iff_eq_none.1 hport)
    · rw [hnone] at hgroup; cases hgroup
    · exact hd hzero

/-- A list has no room where either capacity is reached. -/
theorem belowCaps_eq_false {cap cap' : Option Nat} {n n' : Nat} :
    (belowCap cap n && belowCap cap' n') = false ↔ CapReached cap n ∨ CapReached cap' n' := by
  rw [Bool.and_eq_false_iff, belowCap_eq_false, belowCap_eq_false]

theorem cmdTrackDetach_of_attached {t : Track} {p : Port} (h : s.ctx.port? t = some p) :
    cmdTrackDetach t s = (s.updCtx fun c => c.detachTrack t).reply .done := if_pos (by rw [h]; rfl)

theorem cmdTrackDetach_of_free {t : Track} (h : s.ctx.port? t = none) : cmdTrackDetach t s = s.refuse .invalidValue :=
  if_neg (by rw [h]; nofun)

theorem cmdTrackReset_of_bound {t : Track} (h : s.bound t = true) :
    cmdTrackReset t s = ((s.interpReset t).updCtx fun c => c.updPort t Port.cleared).reply .done := if_pos h

theorem cmdClockAttach_of_positive {period : FixedTime} (h : ftIsPositive period = true) :
    cmdClockAttach period s = s.allocateThen (belowCap s.cfg.capClocks s.ctx.clocks.length) fun u =>
      (u.updCtx fun c => c.withClock period (ftFromSamples c.now)).reply (.group u.ctx.nextGroup) := if_pos h

theorem cmdClockDetach_of_clock {i : Nat} {k : Clock} (h : s.ctx.clocks[i]? = some k) :
    cmdClockDetach (i + 1) s =
      (s.updCtx fun c =>
        { k.drivenTracks.foldl Context.detachTrack c with
            clocks := (k.drivenTracks.foldl Context.detachTrack c).clocks.eraseIdx i }).reply .done := by
  simp only [cmdClockDetach, h]

theorem cmdClockDetach_of_none {i : Nat} (h : s.ctx.clocks[i]? = none) : cmdClockDetach (i + 1) s = s.refuse .invalidValue := by
  simp only [cmdClockDetach, h]

end

/-- A bound program is readable word for word (20_memory.md R72). -/
theorem readWord_bindingsOf {program : List Word} {k : Nat} {w : Word} (h : program[k]? = some w) (itab wtab : List Word) :
    (bindingsOf program itab wtab).pm.readWord k = w := by
  have hlt : k < program.length := (List.getElem?_eq_some_iff.1 h).1
  have hread := (Memory.writeWords [] 0 program).readWords_getElem? 0 program.length k hlt
  rw [Memory.readWords_writeWords Memory.nil_wf, h, Nat.zero_add] at hread
  exact (Option.some.inj hread).symm

theorem proglen_bindingsOf {program : List Word} (h : program.length < 2 ^ 32) (itab wtab : List Word) :
    (bindingsOf program itab wtab).proglen.toNat = program.length := BitVec.toNat_ofNat _ _ |>.trans (Nat.mod_eq_of_lt h)

/-! ## The clauses of the obligation -/

section
variable {s : State} (hrun : s.ctx.state = .running) (hgen : s.ctx.flags.ingen = false)
include hrun hgen

theorem trackBind_binds {t : Track} {program : List Word} (hport : s.ctx.port? t = none) (hlen : program.length < 2 ^ 32)
    (itab wtab : List Word) :
    let u := runCommand (.trackBind t program itab wtab) s
    u.interp t = Interp.fresh s.cfg (bindingsOf program itab wtab) ∧ (∀ v, v ≠ t → u.interp v = s.interp v)
    ∧ { u with interps := s.interps } = { s with out := s.out ++ [.reply .done] } := by
  rw [runCommand_trackBind hrun hgen, cmdTrackBind_of_free hport hlen]
  exact ⟨s.setInterp_interp_same t _, fun v hv => s.setInterp_interp_other hv _, rfl⟩

theorem trackReset_resets {t : Track} (hbound : s.bound t = true) :
    let u := runCommand (.trackReset t) s
    u.interp t = Interp.fresh s.cfg (s.interp t).bind ∧ (∀ v, v ≠ t → u.interp v = s.interp v)
    ∧ { u with interps := s.interps } = { s with ctx := s.ctx.updPort t Port.cleared, out := s.out ++ [.reply .done] } := by
  rw [runCommand_trackReset hrun hgen, cmdTrackReset_of_bound hbound]
  exact ⟨(s.interpReset_interp t t).trans (if_pos rfl), fun v hv => (s.interpReset_interp t v).trans (if_neg hv), rfl⟩

theorem trackDetach_answers (hlinked : s.ctx.Linked) {t : Track} {p : Port} (hport : s.ctx.port? t = some p) :
    ∃ g d, s.ctx.divider? p.divider = some (g, d) ∧ Answers (.trackDetach t) s
      { s.ctx.updGroup g.num (Group.remove p.divider) with tracks := s.ctx.tracks.filter fun q => q.track != t } .done := by
  obtain ⟨g, d, hfound, hctx⟩ := hlinked.detachTrack_eq hport
  refine ⟨g, d, hfound, ?_⟩
  unfold Answers
  rw [runCommand_trackDetach hrun hgen, cmdTrackDetach_of_attached hport, ← hctx]
  rfl

theorem clockDetach_answers (hlinked : s.ctx.Linked) {i : Nat} {k : Clock} (hk : s.ctx.clocks[i]? = some k) :
    Answers (.clockDetach (i + 1)) s
      { s.ctx with
          clocks := s.ctx.clocks.eraseIdx i
          tracks := s.ctx.tracks.filter fun p => decide (∀ g ∈ k.groups, ∀ d ∈ g.list, d.target ≠ .track p.track) } .done := by
  have hfree : ∀ p ∈ s.ctx.tracks, decide (∀ g ∈ k.groups, ∀ d ∈ g.list, d.target ≠ .track p.track) = decide (p.track ∉ k.drivenTracks) :=
    fun p _ => decide_eq_decide.2 Clock.not_mem_drivenTracks_iff.symm
  unfold Answers
  rw [runCommand_clockDetach hrun hgen, cmdClockDetach_of_clock hk, List.filter_congr hfree, ← hlinked.detachClock_eq hk]
  rfl

theorem dispose_answers : Answers .dispose s
    { s.ctx with
        state := .disposed
        master := { s.ctx.master with groups := s.ctx.master.groups.map fun g => { g with list := [] } }
        clocks := []
        tracks := []
        units := [] } .done := by
  unfold Answers
  rw [runCommand_dispose hrun hgen, ← s.ctx.disposed_eq]
  rfl

end

/-- Settles O52: each command by its checks; what is detached with a track, a clock or the Context is the removal of dividers by identifier. -/
theorem bindAndAttach : Obligations.BindAndAttach := by
  intro s hrun hgen
  refine ⟨fun t program itab wtab => ⟨fun hport hlen => ?_, fun hbad => ?_⟩,
    fun t g divisor => ⟨fun grp hbound hport hgroup hd => ?_, fun hbad => ?_⟩,
    fun t => ⟨fun hlinked p hport => trackDetach_answers hrun hgen hlinked hport, fun hport => ?_⟩,
    fun t => ⟨fun hbound => ?_, fun hunbound => ⟨?_, ?_⟩⟩,
    fun period => ⟨fun hpositive => ?_, fun hbad => ?_⟩,
    fun i => ⟨fun hlinked k hk => clockDetach_answers hrun hgen hlinked hk, fun hnone => ?_⟩,
    runCommand_clockDetach hrun hgen 0,
    fun u => ⟨fun hnew => ⟨?_, ?_⟩, fun hold => ⟨?_, ?_⟩⟩, dispose_answers hrun hgen⟩
  · obtain ⟨hinterp, hothers, hrest⟩ := trackBind_binds hrun hgen hport hlen itab wtab
    dsimp only
    rw [hinterp]
    exact ⟨fun k w hw => readWord_bindingsOf hw itab wtab, proglen_bindingsOf hlen itab wtab, rfl, rfl, rfl, hothers, hrest⟩
  · exact (runCommand_trackBind hrun hgen t program itab wtab).trans (cmdTrackBind_of_bad hbad itab wtab)
  · exact Allocates.of_allocateThen belowCaps_eq_false
      ((runCommand_trackAttach hrun hgen t g divisor).trans (cmdTrackAttach_of_args hgroup hbound hport hd)) fun _ => rfl
  · exact (runCommand_trackAttach hrun hgen t g divisor).trans (cmdTrackAttach_of_bad hbad)
  · exact (runCommand_trackDetach hrun hgen t).trans (cmdTrackDetach_of_free hport)
  · obtain ⟨hinterp, hothers, hrest⟩ := trackReset_resets hrun hgen hbound
    exact ⟨hinterp, hothers, hrest, (runCommand_trackStatus hrun t).trans (if_pos hbound)⟩
  · exact (runCommand_trackReset hrun hgen t).trans (if_neg (Bool.eq_false_iff.1 hunbound))
  · exact (runCommand_trackStatus hrun t).trans (if_neg (Bool.eq_false_iff.1 hunbound))
  · exact Allocates.of_allocateThen belowCap_eq_false
      ((runCommand_clockAttach hrun hgen period).trans (cmdClockAttach_of_positive hpositive)) fun _ => rfl
  · exact (runCommand_clockAttach hrun hgen period).trans (if_neg (Bool.eq_false_iff.1 hbad))
  · exact (runCommand_clockDetach hrun hgen (i + 1)).trans (cmdClockDetach_of_none hnone)
  · exact (runCommand_unitAttach hrun hgen u).trans (if_neg hnew)
  · exact (runCommand_unitDetach hrun hgen u).trans (if_neg hnew)
  · exact (runCommand_unitDetach hrun hgen u).trans (if_pos hold)
  · exact (runCommand_unitAttach hrun hgen u).trans (if_pos hold)

end Sys2Proof.Machine
end

section
/-! Locality of an invocation (20_memory.md R79, R84; 60_exceptions.md R275): each of its steps is local to its track, and its return writes that
track's port. -/

namespace Sys2Proof.Machine

/-- One step of an invocation returns its result to the track port, or is local to the running interpreter and its sink. -/
theorem step_of_invoke_local {s u : State} {t : Track} {p : Phase} {rest : List Frame} (hctl : s.ctl = .invoke t p :: rest)
    (h : step s = .next u) : (∃ r, u = s.returnStep t r rest) ∨ Local s u := by
  rw [step_of_ctl_invoke hctl] at h
  cases p with
  | enter => cases h; exact .inr (Local.enterStep s)
  | resolve => cases h; exact .inr (Local.resolveStep s)
  | run => exact .inr (State.runStep_local h)
  | settle => exact .inr (State.settleStep_local h)
  | ret r => cases h; exact .inl ⟨r, rfl⟩

/-- Settles O31: the return writes one port and presents nothing; every other step keeps the Context and is local. -/
theorem invocationIsLocal : Obligations.InvocationIsLocal := by
  intro s u t phase rest hctl hstep
  obtain ⟨r, rfl⟩ | hlocal := step_of_invoke_local hctl hstep
  · exact ⟨fun v hv => ⟨rfl, Context.port?_updPort_other hv s.ctx (Port.take_track r)⟩, rfl, rfl, rfl,
      [], (List.append_nil _).symm, nofun⟩
  · obtain rfl := State.cur_of_invoke hctl
    exact ⟨fun v hv => ⟨hlocal.others v hv, by rw [hlocal.ctx]⟩, by rw [hlocal.ctx], hlocal.env, hlocal.cfg, hlocal.out⟩

end Sys2Proof.Machine
end

section
/-! Refusals (60_exceptions.md R278, R279): a command is refused before it writes anything, the read of the allocation tape (log 7) aside. -/

namespace Sys2Proof.Machine

/-! ## How a command comes out -/

/-- From `s` a command leaves `u`: refused, with the inputs read at most; answered with something else than an error code; or started, the answer to
come when it returns. -/
inductive ComesOut (s : State) : State → Prop
  | refused (e : ErrCode) (env : Env) : ComesOut s { s with env := env, out := s.out ++ [.reply (.error e)] }
  | answered {u : State} {r : Reply} (hout : u.out = s.out) (hr : ∀ e, r ≠ .error e) : ComesOut s (u.reply r)
  | started {u : State} (hout : u.out = s.out) : ComesOut s u

namespace ComesOut
variable {s : State}

/-- A command that goes on in one of two ways by a check. -/
theorem ite {p : Prop} [Decidable p] {u v : State} (hu : ComesOut s u) (hv : ComesOut s v) : ComesOut s (if p then u else v) := by
  split
  · exact hu
  · exact hv

theorem refuse (s : State) (e : ErrCode) : ComesOut s (s.refuse e) := .refused e s.env

/-- An allocation that fails is a refusal; one that succeeds comes out as what follows it does. -/
theorem allocateThen {room : Bool} {go : State → State} (hgo : ∀ u : State, u.out = s.out → ComesOut s (go u)) :
    ComesOut s (s.allocateThen room go) := by
  obtain ⟨granted, env, halloc⟩ := s.allocate_eq room
  unfold State.allocateThen
  rw [halloc]
  cases granted with
  | true => exact hgo _ rfl
  | false => exact .refused .allocation env

/-- A command that presented an error code only was refused. -/
theorem unchanged {u : State} (h : ComesOut s u) {e : ErrCode} (hout : u.out = s.out ++ [.reply (.error e)]) :
    u.ctx = s.ctx ∧ u.interps = s.interps ∧ u.ctl = s.ctl ∧ u.cfg = s.cfg := by
  cases h with
  | refused e env => exact ⟨rfl, rfl, rfl, rfl⟩
  | answered hkept hr =>
    rw [State.reply_out, hkept] at hout
    simp only [List.append_cancel_left_eq, List.cons.injEq, Event.reply.injEq, and_true] at hout
    exact absurd hout (hr e)
  | started hkept => simp [hkept] at hout

/-! ## The commands one by one -/

theorem cmdInit (nchan rate : Int) (period : FixedTime) : ComesOut s (cmdInit nchan rate period s) :=
  .ite (.allocateThen fun _ hout => .answered hout nofun) (.refuse s _)

theorem cmdTrackAttach (t : Track) (g : GroupNo) (divisor : Word) : ComesOut s (cmdTrackAttach t g divisor s) := by
  unfold Machine.cmdTrackAttach
  split
  · exact .refuse s _
  · exact .ite (.allocateThen fun _ hout => .answered hout nofun) (.refuse s _)

theorem cmdClockAttach (period : FixedTime) : ComesOut s (cmdClockAttach period s) :=
  .ite (.allocateThen fun _ hout => .answered hout nofun) (.refuse s _)

theorem cmdClockDetach (i : Nat) : ComesOut s (cmdClockDetach i s) := by
  unfold Machine.cmdClockDetach
  split
  · exact .refuse s _
  · split
    · exact .refuse s _
    · exact .answered rfl nofun

theorem cmdDividerAttach (g : GroupNo) (divisor tag : Word) : ComesOut s (cmdDividerAttach g divisor tag s) := by
  unfold Machine.cmdDividerAttach
  split
  · exact .refuse s _
  · exact .ite (.answered rfl nofun) (.ite (.refuse s _) (.allocateThen fun _ hout => .answered hout nofun))

theorem cmdDividerDetach (id : DividerId) : ComesOut s (cmdDividerDetach id s) := by
  unfold Machine.cmdDividerDetach
  split
  · exact .refuse s _
  · exact .ite (.answered rfl nofun) (.ite (.answered rfl nofun) (.refuse s _))

theorem cmdDividerSetDivisor (id : DividerId) (divisor : Word) : ComesOut s (cmdDividerSetDivisor id divisor s) := by
  unfold Machine.cmdDividerSetDivisor
  split
  · exact .refuse s _
  · exact .ite (.answered rfl nofun) (.ite (.refuse s _) (.answered rfl nofun))

theorem attrOr (v : Option AttrValue) : ComesOut s (s.attrOr v) := by
  cases v with
  | none => exact .refuse s _
  | some v => exact .answered rfl nofun

theorem cmdGetAttr (id index : Nat) : ComesOut s (cmdGetAttr id index s) := by
  unfold Machine.cmdGetAttr
  split
  case h_1 | h_4 | h_5 => exact .answered rfl nofun
  case h_2 | h_3 | h_6 => exact attrOr _
  case h_7 => exact .refuse s _

theorem cmdSetAttr (id index : Nat) (value : AttrValue) : ComesOut s (cmdSetAttr id index value s) := by
  unfold Machine.cmdSetAttr
  split
  · cases value with
    | time p => exact .ite (.answered rfl nofun) (.refuse s _)
    | num v => exact .refuse s _
  · cases value with
    | num v => exact .ite (cmdDividerSetDivisor _ _) (.refuse s _)
    | time p => exact .refuse s _
  · exact .refuse s _

theorem runCommand (c : Command) (s : State) : ComesOut s (runCommand c s) := by
  refine .ite (.refuse s _) ?_
  cases c with
  | init nchan rate period => exact cmdInit nchan rate period
  | reset => exact .answered (State.contextReset_out s) nofun
  | dispose => exact .answered rfl nofun
  | trackAttach t g divisor => exact cmdTrackAttach t g divisor
  | trackBind | trackDetach | trackReset | trackStatus | unitDetach => exact .ite (.answered rfl nofun) (.refuse s _)
  | unitAttach u => exact .ite (.refuse s _) (.answered rfl nofun)
  | clockAttach period => exact cmdClockAttach period
  | clockDetach i => exact cmdClockDetach i
  | dividerAttach g divisor tag => exact cmdDividerAttach g divisor tag
  | dividerDetach id => exact cmdDividerDetach id
  | dividerSetDivisor id divisor => exact cmdDividerSetDivisor id divisor
  | generate | generateToTime => exact .ite (.started rfl) (.refuse s _)
  | getAttr id index => exact cmdGetAttr id index
  | setAttr id index value => exact cmdSetAttr id index value

end ComesOut

/-- Settles O48: of the ways in which a command comes out only a refusal presents an error code alone, and it leaves all but the inputs as it was. -/
theorem refusalsChangeNothing : Obligations.RefusalsChangeNothing :=
  fun c s _ hout => (ComesOut.runCommand c s).unchanged hout

end Sys2Proof.Machine
end

section
/-! Reset (70_reset_and_hazards.md R300 to R304): what the reset sequence leaves, that it is idempotent, and that the machine at power-on is sound. -/

namespace Sys2Proof.Machine

/-! ## The reset sequence (R303) -/

theorem runCommand_reset {s : State} (hrun : s.ctx.state = .running) (hgen : s.ctx.flags.ingen = false) :
    runCommand .reset s = s.contextReset.reply .done :=
  if_neg (gate_passed hrun rfl (.inl hgen))

/-- What the reset sequence makes of a clock. -/
def Clock.restarted (k : Clock) : Clock := (k.mapGroups Group.quiet).zeroed

/-- The Context's part of the reset sequence, clock by clock and port by port. -/
theorem Context.resetSeq_eq (c : Context) :
    c.resetSeq =
      { c with
          state := .running
          master := c.master.restarted
          clocks := c.clocks.map Clock.restarted
          tracks := c.tracks.map Port.cleared
          now := 0
          flags := { c.flags with clkrst := false } } := rfl

theorem State.contextReset_interp_attached {s : State} {t : Track} (h : ∃ p ∈ s.ctx.tracks, p.track = t) :
    s.contextReset.interp t = Interp.fresh s.cfg (s.interp t).bind :=
  (s.contextReset_interp t).trans (if_pos (List.mem_map.2 h))

theorem State.contextReset_interp_free {s : State} {t : Track} (h : ∀ p ∈ s.ctx.tracks, p.track ≠ t) :
    s.contextReset.interp t = s.interp t :=
  (s.contextReset_interp t).trans (if_neg fun hmem => by
    obtain ⟨p, hp, htrack⟩ := List.mem_map.1 hmem
    exact h p hp htrack)

theorem TFlags.word_cleared : ({} : TFlags).word = 0 := by decide

theorem Status.word_cleared : ({} : Status).word = 0 := by decide

/-- Settles O50: the Context is `resetSeq`, which leaves the state Running as it was; an attached track's interpreter is `Interp.fresh`. -/
theorem resetSequence : Obligations.ResetSequence := by
  intro s hrun hgen
  dsimp only
  rw [runCommand_reset hrun hgen]
  refine ⟨?_, fun t hattached => ?_, fun t hfree => State.contextReset_interp_free hfree, ?_, s.contextReset_env, s.contextReset_ctl⟩
  · rw [State.reply_ctx, State.contextReset_ctx, Context.resetSeq_eq, ← hrun]
    rfl
  · rw [State.reply_interp, State.contextReset_interp_attached hattached]
    exact ⟨rfl, rfl, rfl, fun w hw => List.eq_of_mem_replicate hw, rfl, rfl, rfl, rfl, rfl, rfl, rfl, TFlags.word_cleared,
      Status.word_cleared, fun w hw => List.eq_of_mem_replicate hw, rfl, rfl, rfl, rfl⟩
  · rw [State.reply_out, State.contextReset_out]

/-! ## Two Resets in a row (R304) -/

theorem Clock.restarted_restarted (k : Clock) : k.restarted.restarted = k.restarted := by
  unfold Clock.restarted Clock.mapGroups Clock.zeroed
  rw [List.map_map]
  rfl

theorem Context.resetSeq_resetSeq (c : Context) : c.resetSeq.resetSeq = c.resetSeq := by
  have hclocks : (c.clocks.map Clock.restarted).map Clock.restarted = c.clocks.map Clock.restarted :=
    List.map_map.trans (congrArg (List.map · c.clocks) (funext Clock.restarted_restarted))
  have htracks : (c.tracks.map Port.cleared).map Port.cleared = c.tracks.map Port.cleared := List.map_map
  calc c.resetSeq.resetSeq
    _ = { c.resetSeq with
            master := c.master.restarted.restarted
            clocks := (c.clocks.map Clock.restarted).map Clock.restarted
            tracks := (c.tracks.map Port.cleared).map Port.cleared } := c.resetSeq.resetSeq_eq
    _ = c.resetSeq := by rw [Clock.restarted_restarted, hclocks, htracks]; rfl

theorem Context.resetSeq_tracks_map (c : Context) : c.resetSeq.tracks.map (·.track) = c.tracks.map (·.track) := List.map_map

/-- Settles O51: the second reset finds the values of the first, the same tracks attached, and the bindings that the first has kept. -/
theorem resetIdempotent : Obligations.ResetIdempotent := by
  intro s hrun hgen
  have hfirst := runCommand_reset hrun hgen
  have hctx : (runCommand .reset s).ctx = s.ctx.resetSeq := by rw [hfirst, State.reply_ctx, State.contextReset_ctx]
  have hsecond : runCommand .reset (runCommand .reset s) = (runCommand .reset s).contextReset.reply .done :=
    runCommand_reset (by rw [hctx]; rfl) (by rw [hctx]; exact hgen)
  refine ⟨?_, fun t => ?_⟩
  · rw [hsecond, State.reply_ctx, State.contextReset_ctx, hctx, Context.resetSeq_resetSeq]
  · rw [hsecond, State.reply_interp, State.contextReset_interp, hctx, Context.resetSeq_tracks_map, hfirst, State.reply_interp,
      State.reply_cfg, State.contextReset_cfg, State.contextReset_interp]
    split
    · rfl
    · rfl

/-! ## Power-on (R300) -/

/-- The lists of the Context at power-on are those that Init leaves; that the master's period is positive is asked of a running Context only. -/
theorem powerOn_intact : State.reset.ctx.Intact := by
  obtain ⟨⟨-, periods, divisors, builtin, single, numbers, numbersBelow, queues, now, clkrst⟩,
    ⟨ids, idsBelow, tracks, portDivider, dividerPort⟩⟩ := Context.Intact.initial 0 0 (period := ⟨1, 0⟩) (by decide)
  exact ⟨⟨nofun, periods, divisors, builtin, single, numbers, numbersBelow, queues, now, clkrst⟩,
    ⟨ids, idsBelow, tracks, portDivider, dividerPort⟩⟩

/-- Settles O60: no track is bound and nothing is running, so every interpreter has the reset values; the Context's lists are empty. -/
theorem resetIsSound : Obligations.ResetIsSound :=
  ⟨⟨List.Pairwise.nil, fun _ hp => absurd hp List.not_mem_nil⟩, .of_noInvoke .nil fun _ => Interp.fresh_resting _ _,
    powerOn_intact.sound, powerOn_intact.linked⟩

end Sys2Proof.Machine
end
